-- ==== Sys2Proof/Word.lean ====
section
/-! DEFINITION. The word, byte and register-index types every other file uses. -/

namespace Sys2Proof

/-- The spec's `bits32` (R9): a 32-bit pattern; `toInt` and `toNat` are its `signed` and `unsigned` readings. -/
abbrev Word := BitVec 32

/-- The smallest addressable unit (R34). -/
abbrev Byte := BitVec 8

/-- A 5-bit register index, as the fields `rd`, `rs1` and `rs2` of a word hold it (R60, R67). -/
abbrev RegIdx := BitVec 5

end Sys2Proof
end

