-- ==== Sys2Proof/Config.lean ====
section
/-! DEFINITION. The values the spec leaves open and the machine goes on with. Each is a constant with no body: nothing
can be proved about which value it is. The parameters of R5 (`NREGS`, `BUS_DEVICES`) are fields of `State` (log 4). -/

namespace Sys2Proof

/-- What the n-th draw of `localRead` answers on a device that is no `Memory` and whose answers the platform does not
give (93_implementation_defined.md row 12, R38, D24): a free value (log 7). -/
opaque Config.localRead : Nat → Word

/-- What the n-th read of an operand the instruction does not use yields when its index is not below `NREGS` (R90, D26):
a free value (log 10). -/
opaque Config.unusedOperand : Nat → Word

/-- The `imm` of the record of an `invalid` word (R70, D13, C6): a free value, one for each word (log 11). -/
opaque Config.invalidImm : Word → Word

end Sys2Proof
end

