-- ==== Sys2Proof/WellFormed.lean ====
section
/-! DEFINITION. Which instructions have an encoding: the immediate lies in the range of its format, with the alignment
that range states (R64, R65, R73). Register indices are in range by their type (R67, R72). -/

namespace Sys2Proof

/-- I and S formats: -2048 .. 2047 (R64). -/
def imm12Ok (imm : Word) : Bool := decide (-2048 ≤ imm.toInt ∧ imm.toInt ≤ 2047)

/-- B format: -4096 .. 4094, even (R64). -/
def immBOk (imm : Word) : Bool := decide (-4096 ≤ imm.toInt ∧ imm.toInt ≤ 4094 ∧ imm.toNat % 2 = 0)

/-- U format: multiples of 4096 (R64). -/
def immUOk (imm : Word) : Bool := decide (imm.toNat % 4096 = 0)

/-- J format: -2^20 .. 2^20 - 2, even (R64). -/
def immJOk (imm : Word) : Bool := decide (-1048576 ≤ imm.toInt ∧ imm.toInt ≤ 1048574 ∧ imm.toNat % 2 = 0)

/-- The shift amount of `slli`, `srli` and `srai`: 0 .. 31 (R65). -/
def shamtOk (imm : Word) : Bool := decide (imm.toNat ≤ 31)

/-- The instruction's immediate is one its format can hold. -/
def Instr.wf : Instr → Bool
  | .lui _ imm | .auipc _ imm => immUOk imm
  | .jal _ imm => immJOk imm
  | .jalr _ _ imm => imm12Ok imm
  | .beq _ _ imm | .bne _ _ imm | .blt _ _ imm | .bge _ _ imm | .bltu _ _ imm | .bgeu _ _ imm => immBOk imm
  | .lb _ _ imm | .lh _ _ imm | .lw _ _ imm | .lbu _ _ imm | .lhu _ _ imm => imm12Ok imm
  | .sb _ _ imm | .sh _ _ imm | .sw _ _ imm => imm12Ok imm
  | .addi _ _ imm | .slti _ _ imm | .sltiu _ _ imm | .xori _ _ imm | .ori _ _ imm | .andi _ _ imm => imm12Ok imm
  | .slli _ _ imm | .srli _ _ imm | .srai _ _ imm => shamtOk imm
  | .add _ _ _ | .sub _ _ _ | .sll _ _ _ | .slt _ _ _ | .sltu _ _ _ => true
  | .xor _ _ _ | .srl _ _ _ | .sra _ _ _ | .or _ _ _ | .and _ _ _ => true
  | .mret => true

end Sys2Proof
end

