-- ==== Sys2Proof/Decode.lean ====
section
/-! DEFINITION. The binary codec (30_encoding.md): bit slices, immediates, the table of fixed fields, the decoder (total
on every word, rejecting `invalid` words by name), and after it the encoder. -/

namespace Sys2Proof

/-! ## Names, formats, records -/

/-- The 38 mnemonics of R2. The spec's 39th name, `invalid`, is `none` wherever a name is an `Option Mnemonic`. -/
inductive Mnemonic where
  | lui | auipc | jal | jalr
  | beq | bne | blt | bge | bltu | bgeu
  | lb | lh | lw | lbu | lhu
  | sb | sh | sw
  | addi | slti | sltiu | xori | ori | andi | slli | srli | srai
  | add | sub | sll | slt | sltu | xor | srl | sra | or | and
  | mret
  deriving DecidableEq, Repr

/-- The instruction-word layouts (R61, R62). "No format" is `none` of `Option Format`. -/
inductive Format where
  | R | I | S | B | U | J
  deriving DecidableEq, Repr

/-- One `(left, right, pos)` triple of an immediate's slice list (R63). -/
structure Slice where
  left : Nat
  right : Nat
  pos : Nat
  deriving DecidableEq, Repr

/-- The fields of a record that the encoder and the assembler work on (R71, R82). -/
structure InstrFields where
  name : Option Mnemonic
  rd : RegIdx
  rs1 : RegIdx
  rs2 : RegIdx
  imm : Word
  deriving DecidableEq, Repr

/-- The instruction record, the decoded form of one word (R67). -/
structure InstrRecord extends InstrFields where
  raw : Word
  format : Option Format
  deriving DecidableEq, Repr

/-- A row of the table of R68: the values that select a mnemonic; `none` is an unspecified position. -/
structure Row where
  opcode : BitVec 7
  funct3 : Option (BitVec 3)
  funct7 : Option (BitVec 7)
  rs2 : Option RegIdx
  rs1 : Option RegIdx
  rd : Option RegIdx
  deriving DecidableEq, Repr

/-- Why the decoder gives no instruction. Neither stops the machine: `step` runs an `invalid` word as the no-op of R140. -/
inductive DecodeReject where
  /-- The word matches no row of the table: the mnemonic `invalid` (R69, R70). -/
  | invalid (word : Word)
  /-- Fewer than four bytes were given; a fetch always has four (R59). -/
  | truncated
  deriving DecidableEq, Repr

/-! ## Bit-field primitives (R7, R8) -/

/-- `unsignedSlice(word, left, right, pos)` of R7. -/
def unsignedSlice (w : Word) (left right pos : Nat) : Word :=
  ((w.extractLsb' right (left - right + 1)).setWidth 32) <<< pos

/-- `signedSlice(word, left, right, pos)` of R7: sign-extended from bit `left` before the shift. -/
def signedSlice (w : Word) (left right pos : Nat) : Word :=
  ((w.extractLsb' right (left - right + 1)).signExtend 32) <<< pos

/-- The precondition of R8. -/
def sliceInRange (left right : Nat) : Bool := decide (right ≤ left ∧ left < 32)

/-- `unsignedSlice` as a library call: refused (`none`) outside the precondition (R8). -/
def unsignedSliceChecked (w : Word) (left right pos : Nat) : Option Word :=
  if sliceInRange left right then some (unsignedSlice w left right pos) else none

/-- `signedSlice` as a library call: refused (`none`) outside the precondition (R8). -/
def signedSliceChecked (w : Word) (left right pos : Nat) : Option Word :=
  if sliceInRange left right then some (signedSlice w left right pos) else none

/-! ## Fields of a word (R60) -/

def opcodeOf (w : Word) : BitVec 7 := w.extractLsb' 0 7
def rdOf (w : Word) : RegIdx := w.extractLsb' 7 5
def funct3Of (w : Word) : BitVec 3 := w.extractLsb' 12 3
def rs1Of (w : Word) : RegIdx := w.extractLsb' 15 5
def rs2Of (w : Word) : RegIdx := w.extractLsb' 20 5
def funct7Of (w : Word) : BitVec 7 := w.extractLsb' 25 7

/-! ## Formats and immediates -/

/-- The opcode-to-format table of R61; SYSTEM and every opcode outside the table have no format. -/
def formatOf (opcode : BitVec 7) : Option Format :=
  if opcode = 0x37 ∨ opcode = 0x17 then some .U
  else if opcode = 0x6F then some .J
  else if opcode = 0x67 ∨ opcode = 0x03 ∨ opcode = 0x13 then some .I
  else if opcode = 0x63 then some .B
  else if opcode = 0x23 then some .S
  else if opcode = 0x33 then some .R
  else none

/-- The slice list of a format, the first slice signed (R63). -/
def slices : Format → List Slice
  | .I => [⟨31, 20, 0⟩]
  | .S => [⟨31, 25, 5⟩, ⟨11, 7, 0⟩]
  | .B => [⟨31, 31, 12⟩, ⟨7, 7, 11⟩, ⟨30, 25, 5⟩, ⟨11, 8, 1⟩]
  | .U => [⟨31, 12, 12⟩]
  | .J => [⟨31, 31, 20⟩, ⟨19, 12, 12⟩, ⟨20, 20, 11⟩, ⟨30, 21, 1⟩]
  | .R => []

/-- The value of a slice list on a word: the first slice sign-extends, the later ones are ORed in (R63); 0 for no slices (R66). -/
def immOfSlices (w : Word) : List Slice → Word
  | [] => 0
  | s :: rest =>
    rest.foldl (fun imm s => imm ||| unsignedSlice w s.left s.right s.pos) (signedSlice w s.left s.right s.pos)

/-- OP_IMM with funct3 SLL or SR: the immediate is the 5-bit shift amount (R65). -/
def isShiftImm (opcode : BitVec 7) (funct3 : BitVec 3) : Bool := opcode == 0x13 && (funct3 == 1 || funct3 == 5)

/-- The immediate of a word with a name, in its format (R63 to R66). -/
def immediate (w : Word) : Option Format → Word
  | none => 0
  | some f =>
    if isShiftImm (opcodeOf w) (funct3Of w) then (rs2Of w).setWidth 32 else immOfSlices w (slices f)

/-! ## The table of fixed fields (R68) -/

/-- OP_REG: opcode 0x33 with funct3 and funct7 fixed. -/
def Row.opReg (funct3 : BitVec 3) (funct7 : BitVec 7) : Row := ⟨0x33, some funct3, some funct7, none, none, none⟩

/-- A row that fixes opcode and funct3. -/
def Row.op3 (opcode : BitVec 7) (funct3 : BitVec 3) : Row := ⟨opcode, some funct3, none, none, none, none⟩

/-- A row that fixes the opcode alone. -/
def Row.op (opcode : BitVec 7) : Row := ⟨opcode, none, none, none, none, none⟩

/-- An immediate shift: OP_IMM with funct3 and funct7 fixed. -/
def Row.shift (funct3 : BitVec 3) (funct7 : BitVec 7) : Row := ⟨0x13, some funct3, some funct7, none, none, none⟩

/-- The table of R68. -/
def row : Mnemonic → Row
  | .lui => .op 0x37
  | .auipc => .op 0x17
  | .jal => .op 0x6F
  | .jalr => .op3 0x67 0
  | .beq => .op3 0x63 0
  | .bne => .op3 0x63 1
  | .blt => .op3 0x63 4
  | .bge => .op3 0x63 5
  | .bltu => .op3 0x63 6
  | .bgeu => .op3 0x63 7
  | .lb => .op3 0x03 0
  | .lh => .op3 0x03 1
  | .lw => .op3 0x03 2
  | .lbu => .op3 0x03 4
  | .lhu => .op3 0x03 5
  | .sb => .op3 0x23 0
  | .sh => .op3 0x23 1
  | .sw => .op3 0x23 2
  | .addi => .op3 0x13 0
  | .slti => .op3 0x13 2
  | .sltiu => .op3 0x13 3
  | .xori => .op3 0x13 4
  | .ori => .op3 0x13 6
  | .andi => .op3 0x13 7
  | .slli => .shift 1 0
  | .srli => .shift 5 0
  | .srai => .shift 5 32
  | .add => .opReg 0 0
  | .sub => .opReg 0 32
  | .sll => .opReg 1 0
  | .slt => .opReg 2 0
  | .sltu => .opReg 3 0
  | .xor => .opReg 4 0
  | .srl => .opReg 5 0
  | .sra => .opReg 5 32
  | .or => .opReg 6 0
  | .and => .opReg 7 0
  | .mret => ⟨0x73, some 0, some 24, some 2, some 0, some 0⟩

/-- The mnemonics in the table's order. -/
def mnemonics : List Mnemonic :=
  [.lui, .auipc, .jal, .jalr, .beq, .bne, .blt, .bge, .bltu, .bgeu,
    .lb, .lh, .lw, .lbu, .lhu, .sb, .sh, .sw,
    .addi, .slti, .sltiu, .xori, .ori, .andi, .slli, .srli, .srai,
    .add, .sub, .sll, .slt, .sltu, .xor, .srl, .sra, .or, .and, .mret]

/-- A field matches when it is unspecified or has the specified value. -/
def fieldMatches {n : Nat} (spec : Option (BitVec n)) (v : BitVec n) : Bool :=
  match spec with
  | none => true
  | some u => u == v

/-- The word has the row's value at every specified position (R69). -/
def Row.matches (t : Row) (w : Word) : Bool :=
  t.opcode == opcodeOf w && fieldMatches t.funct3 (funct3Of w) && fieldMatches t.funct7 (funct7Of w) &&
  fieldMatches t.rs2 (rs2Of w) && fieldMatches t.rs1 (rs1Of w) && fieldMatches t.rd (rdOf w)

/-- A specified field's bits in the word `match` of R68 (0 where unspecified). -/
def fieldBits {n : Nat} (spec : Option (BitVec n)) (pos : Nat) : Word := ((spec.getD 0).setWidth 32) <<< pos

/-- A specified field's bits in the word `mask` of R68 (0 where unspecified). -/
def fieldMask {n : Nat} (spec : Option (BitVec n)) (pos : Nat) : Word :=
  match spec with
  | none => 0
  | some _ => ((BitVec.allOnes n).setWidth 32) <<< pos

/-- The column `match` of R68. -/
def Row.matchWord (t : Row) : Word :=
  t.opcode.setWidth 32 ||| fieldBits t.rd 7 ||| fieldBits t.funct3 12 ||| fieldBits t.rs1 15 ||| fieldBits t.rs2 20 |||
  fieldBits t.funct7 25

/-- The column `mask` of R68. -/
def Row.maskWord (t : Row) : Word :=
  0x7F ||| fieldMask t.rd 7 ||| fieldMask t.funct3 12 ||| fieldMask t.rs1 15 ||| fieldMask t.rs2 20 |||
  fieldMask t.funct7 25

/-! ## The decoder (R69) -/

/-- The mnemonic whose row the word matches, `none` for `invalid` (R69). -/
def mnemonicOf (w : Word) : Option Mnemonic := mnemonics.find? fun m => (row m).matches w

/-- The format of a record: none for `mret` and `invalid`, else by opcode (R69, C7). -/
def recordFormat (name : Option Mnemonic) (opcode : BitVec 7) : Option Format :=
  match name with
  | none => none
  | some .mret => none
  | some _ => formatOf opcode

/-- The immediate of a record; an `invalid` record's is a free value (R70, D13). -/
def recordImm (name : Option Mnemonic) (w : Word) : Word :=
  match name with
  | none => Config.invalidImm w
  | some m => immediate w (recordFormat (some m) (opcodeOf w))

/-- `decode(word) -> record` of R69, total on all words. -/
def decodeRecord (w : Word) : InstrRecord :=
  let name := mnemonicOf w
  { name := name, rd := rdOf w, rs1 := rs1Of w, rs2 := rs2Of w, imm := recordImm name w, raw := w,
    format := recordFormat name (opcodeOf w) }

/-- The instruction a record stands for, with the fields its format gives it; none for `invalid`. -/
def instrOfFields (f : InstrFields) : Option Instr :=
  match f.name with
  | none => none
  | some .lui => some (.lui f.rd f.imm)
  | some .auipc => some (.auipc f.rd f.imm)
  | some .jal => some (.jal f.rd f.imm)
  | some .jalr => some (.jalr f.rd f.rs1 f.imm)
  | some .beq => some (.beq f.rs1 f.rs2 f.imm)
  | some .bne => some (.bne f.rs1 f.rs2 f.imm)
  | some .blt => some (.blt f.rs1 f.rs2 f.imm)
  | some .bge => some (.bge f.rs1 f.rs2 f.imm)
  | some .bltu => some (.bltu f.rs1 f.rs2 f.imm)
  | some .bgeu => some (.bgeu f.rs1 f.rs2 f.imm)
  | some .lb => some (.lb f.rd f.rs1 f.imm)
  | some .lh => some (.lh f.rd f.rs1 f.imm)
  | some .lw => some (.lw f.rd f.rs1 f.imm)
  | some .lbu => some (.lbu f.rd f.rs1 f.imm)
  | some .lhu => some (.lhu f.rd f.rs1 f.imm)
  | some .sb => some (.sb f.rs1 f.rs2 f.imm)
  | some .sh => some (.sh f.rs1 f.rs2 f.imm)
  | some .sw => some (.sw f.rs1 f.rs2 f.imm)
  | some .addi => some (.addi f.rd f.rs1 f.imm)
  | some .slti => some (.slti f.rd f.rs1 f.imm)
  | some .sltiu => some (.sltiu f.rd f.rs1 f.imm)
  | some .xori => some (.xori f.rd f.rs1 f.imm)
  | some .ori => some (.ori f.rd f.rs1 f.imm)
  | some .andi => some (.andi f.rd f.rs1 f.imm)
  | some .slli => some (.slli f.rd f.rs1 f.imm)
  | some .srli => some (.srli f.rd f.rs1 f.imm)
  | some .srai => some (.srai f.rd f.rs1 f.imm)
  | some .add => some (.add f.rd f.rs1 f.rs2)
  | some .sub => some (.sub f.rd f.rs1 f.rs2)
  | some .sll => some (.sll f.rd f.rs1 f.rs2)
  | some .slt => some (.slt f.rd f.rs1 f.rs2)
  | some .sltu => some (.sltu f.rd f.rs1 f.rs2)
  | some .xor => some (.xor f.rd f.rs1 f.rs2)
  | some .srl => some (.srl f.rd f.rs1 f.rs2)
  | some .sra => some (.sra f.rd f.rs1 f.rs2)
  | some .or => some (.or f.rd f.rs1 f.rs2)
  | some .and => some (.and f.rd f.rs1 f.rs2)
  | some .mret => some .mret

/-- The instruction of a word, or why there is none (R69, R75). -/
def decode (w : Word) : Except DecodeReject Instr :=
  match instrOfFields (decodeRecord w).toInstrFields with
  | some i => .ok i
  | none => .error (.invalid w)

/-- The word whose bytes, lowest address first, are given: little-endian (R50, D1). -/
def wordOfBytes (b0 b1 b2 b3 : Byte) : Word := b3 ++ b2 ++ b1 ++ b0

/-- The four bytes of a word as they lie in memory, lowest address first (R50, R170). -/
def bytesOfWord (w : Word) : List Byte :=
  [w.extractLsb' 0 8, w.extractLsb' 8 8, w.extractLsb' 16 8, w.extractLsb' 24 8]

/-- Decode the instruction at the head of a list of bytes and give the rest of the list. -/
def decodeBytes : List Byte → Except DecodeReject (Instr × List Byte)
  | b0 :: b1 :: b2 :: b3 :: rest =>
    match decode (wordOfBytes b0 b1 b2 b3) with
    | .ok i => .ok (i, rest)
    | .error e => .error e
  | _ => .error .truncated

/-- The host's entry: the instruction the decoder reads from an instruction whose low `nbits` bits are those of `w` and
whose higher bits are 0, laid out in bytes as the hardware stores it. -/
def decodeTableWord (nbits w : Nat) : Option Instr :=
  match decodeBytes (bytesOfWord (BitVec.ofNat 32 (w % 2 ^ nbits))) with
  | .ok (i, _) => some i
  | .error _ => none

/-! ## The encoder (R71, R72) -/

/-- One slice of the immediate put back into its place in the word (R71). -/
def encodeSlice (imm : Word) (s : Slice) : Word := unsignedSlice imm (s.pos + s.left - s.right) s.pos s.right

/-- The immediate's bits in the word (R71). -/
def encodeImm (t : Row) (imm : Word) : Word :=
  if isShiftImm t.opcode (t.funct3.getD 0) then unsignedSlice imm 4 0 20
  else
    match formatOf t.opcode with
    | none => 0
    | some f => (slices f).foldl (fun word s => word ||| encodeSlice imm s) 0

/-- `encode(record) -> word` of R71 for a name with a row. -/
def encodeRow (t : Row) (rd rs1 rs2 : RegIdx) (imm : Word) : Word :=
  t.opcode.setWidth 32 |||
  ((t.funct3.getD 0).setWidth 32 <<< 12) |||
  ((t.funct7.getD 0).setWidth 32 <<< 25) |||
  ((t.rs2.getD rs2).setWidth 32 <<< 20) |||
  ((t.rs1.getD rs1).setWidth 32 <<< 15) |||
  ((t.rd.getD rd).setWidth 32 <<< 7) |||
  encodeImm t imm

/-- The encoder on a record's fields; the record `invalid` is refused (R72, D14). -/
def encodeFields (f : InstrFields) : Option Word :=
  match f.name with
  | none => none
  | some m => some (encodeRow (row m) f.rd f.rs1 f.rs2 f.imm)

/-- The encoder's domain on plain numbers: `invalid` and a register field above 31 are refused (R72, D14). -/
def encodeNumbers (name : Option Mnemonic) (rd rs1 rs2 : Nat) (imm : Word) : Option Word :=
  if rd ≤ 31 ∧ rs1 ≤ 31 ∧ rs2 ≤ 31 then
    encodeFields { name := name, rd := BitVec.ofNat 5 rd, rs1 := BitVec.ofNat 5 rs1, rs2 := BitVec.ofNat 5 rs2, imm := imm }
  else none

/-- The mnemonic of an instruction. -/
def Instr.name : Instr → Mnemonic
  | .lui _ _ => .lui
  | .auipc _ _ => .auipc
  | .jal _ _ => .jal
  | .jalr _ _ _ => .jalr
  | .beq _ _ _ => .beq
  | .bne _ _ _ => .bne
  | .blt _ _ _ => .blt
  | .bge _ _ _ => .bge
  | .bltu _ _ _ => .bltu
  | .bgeu _ _ _ => .bgeu
  | .lb _ _ _ => .lb
  | .lh _ _ _ => .lh
  | .lw _ _ _ => .lw
  | .lbu _ _ _ => .lbu
  | .lhu _ _ _ => .lhu
  | .sb _ _ _ => .sb
  | .sh _ _ _ => .sh
  | .sw _ _ _ => .sw
  | .addi _ _ _ => .addi
  | .slti _ _ _ => .slti
  | .sltiu _ _ _ => .sltiu
  | .xori _ _ _ => .xori
  | .ori _ _ _ => .ori
  | .andi _ _ _ => .andi
  | .slli _ _ _ => .slli
  | .srli _ _ _ => .srli
  | .srai _ _ _ => .srai
  | .add _ _ _ => .add
  | .sub _ _ _ => .sub
  | .sll _ _ _ => .sll
  | .slt _ _ _ => .slt
  | .sltu _ _ _ => .sltu
  | .xor _ _ _ => .xor
  | .srl _ _ _ => .srl
  | .sra _ _ _ => .sra
  | .or _ _ _ => .or
  | .and _ _ _ => .and
  | .mret => .mret

/-- The fields of an instruction as the assembler fills them: a field its operands do not name is 0 (R82). -/
def Instr.fields (i : Instr) : InstrFields :=
  match i with
  | .lui rd imm | .auipc rd imm | .jal rd imm => ⟨some i.name, rd, 0, 0, imm⟩
  | .jalr rd rs1 imm => ⟨some i.name, rd, rs1, 0, imm⟩
  | .beq rs1 rs2 imm | .bne rs1 rs2 imm | .blt rs1 rs2 imm => ⟨some i.name, 0, rs1, rs2, imm⟩
  | .bge rs1 rs2 imm | .bltu rs1 rs2 imm | .bgeu rs1 rs2 imm => ⟨some i.name, 0, rs1, rs2, imm⟩
  | .lb rd rs1 imm | .lh rd rs1 imm | .lw rd rs1 imm => ⟨some i.name, rd, rs1, 0, imm⟩
  | .lbu rd rs1 imm | .lhu rd rs1 imm => ⟨some i.name, rd, rs1, 0, imm⟩
  | .sb rs1 rs2 imm | .sh rs1 rs2 imm | .sw rs1 rs2 imm => ⟨some i.name, 0, rs1, rs2, imm⟩
  | .addi rd rs1 imm | .slti rd rs1 imm | .sltiu rd rs1 imm => ⟨some i.name, rd, rs1, 0, imm⟩
  | .xori rd rs1 imm | .ori rd rs1 imm | .andi rd rs1 imm => ⟨some i.name, rd, rs1, 0, imm⟩
  | .slli rd rs1 imm | .srli rd rs1 imm | .srai rd rs1 imm => ⟨some i.name, rd, rs1, 0, imm⟩
  | .add rd rs1 rs2 | .sub rd rs1 rs2 | .sll rd rs1 rs2 => ⟨some i.name, rd, rs1, rs2, 0⟩
  | .slt rd rs1 rs2 | .sltu rd rs1 rs2 | .xor rd rs1 rs2 => ⟨some i.name, rd, rs1, rs2, 0⟩
  | .srl rd rs1 rs2 | .sra rd rs1 rs2 | .or rd rs1 rs2 | .and rd rs1 rs2 => ⟨some i.name, rd, rs1, rs2, 0⟩
  | .mret => ⟨some i.name, 0, 0, 0, 0⟩

/-- The word of an instruction (R71 on the fields its operands give). -/
def encode (i : Instr) : Word :=
  encodeRow (row i.name) i.fields.rd i.fields.rs1 i.fields.rs2 i.fields.imm

end Sys2Proof
end

