-- ==== Sys2Proof/Machine/State.lean ====
section
/-! DEFINITION. The machine's state, its faults and refusals, and the state after reset (10_state.md R33). -/

namespace Sys2Proof.Machine

/-! ## Pieces of the state -/

/-- The parameter `NREGS` (R5, R14): 16 or 32 general registers. -/
inductive RegCount where
  | r16
  | r32
  deriving DecidableEq, Repr

/-- The six stages of the execution state machine (R29, R85). -/
inductive Stage where
  | fetch
  | decode
  | compute
  | compare
  | loadStoreWriteBack
  | updatePC
  deriving DecidableEq, Repr

/-- First ALU operand (R91, R99). -/
inductive Src1 where
  | none
  | pc
  | x1
  deriving DecidableEq, Repr

/-- Second ALU operand (R91, R99). -/
inductive Src2 where
  | none
  | imm
  | x2
  deriving DecidableEq, Repr

/-- ALU operation (R92, R99). -/
inductive AluOp where
  | none | b | add | sub | sll | slt | sltu | xor | srl | sra | or | and
  deriving DecidableEq, Repr

/-- What LoadStoreWriteBack does (R95, R99); `pcPlus` is the spec's `pc+`. -/
inductive WbMem where
  | none | r | pcPlus | lb | lh | lw | lbu | lhu | sb | sh | sw
  deriving DecidableEq, Repr

/-- The branch condition (R93, R94, R99). -/
inductive Branch where
  | none | al | eq | ne | lt | ge | ltu | geu
  deriving DecidableEq, Repr

/-- The datapath descriptor (R99). -/
structure Datapath where
  src1 : Src1
  src2 : Src2
  aluOp : AluOp
  wbMem : WbMem
  branch : Branch
  deriving DecidableEq, Repr

/-- The size of a bus access: 1, 2 or 4 bytes (R35, R36). -/
inductive AccessSize where
  | byte
  | half
  | word
  deriving DecidableEq, Repr

/-- Bytes by local offset (R42): offsets strictly rising, and no entry equal to what an unlisted offset reads as
(`Memory.wf`). -/
abbrev Memory := List Host.Cell

/-- A call made to a device that is no `Memory` (R38, R39, R41). -/
inductive LocalAccess where
  | read (offset : Nat) (size : AccessSize)
  | write (offset : Nat) (size : AccessSize) (value : Word)
  | reset
  deriving DecidableEq, Repr

/-- What a device is. -/
inductive DeviceKind where
  /-- The `Memory` device (R42): its bytes now, and the bytes its reset restores (R41; a parameter, D19). -/
  | memory (cells initial : Memory)
  /-- Any other device (R38 to R41), known by its contract alone: its interrupt request at the coming samples (log 6), what
  its coming `localRead`s answer (log 7), and the calls made to it, newest first (log 8). -/
  | external (irqs : List Bool) (answers : List Word) (accesses : List LocalAccess)
  deriving DecidableEq, Repr

/-- A device on the bus: an object owning one closed address range (R37). -/
structure Device where
  first : Word
  last : Word
  kind : DeviceKind
  deriving DecidableEq, Repr

/-! ## The state -/

/-- The machine (R33), with the parameters of R5 that the spec makes arguments of the model. -/
structure State where
  /-- `NREGS` (R5, R14); no step changes it. -/
  nregs : RegCount
  /-- The general registers (R14); entry 0 is never read, and with `NREGS = 16` entries 16 to 31 are not reachable (log 14). -/
  regs : Vector Word 32
  /-- The program counter, bits 1:0 always 0 (R19). -/
  pc : Word
  /-- The exception-return register, bits 1:0 always 0 (R24). -/
  mepc : Word
  /-- The interrupt latch: true from an interrupt entry until `mret` (R27). -/
  irqState : Bool
  /-- The stage the next spec `step()` call runs (R29). -/
  stage : Stage
  /-- Latch: the fetched word (R30). -/
  fetchData : Word
  /-- Latch, diagnostic only: `bus.error` right after the fetch (R30, R32). -/
  fetchError : Bool
  /-- Latch: the decoded record (R30, R67). -/
  instr : InstrRecord
  /-- Latch: the instruction's datapath descriptor (R30, R99). -/
  dp : Datapath
  /-- Latch: the value of `x[rs1]` (R30, R90). -/
  x1v : Word
  /-- Latch: the value of `x[rs2]` (R30, R90). -/
  x2v : Word
  /-- Latch: the ALU's result (R30, R92). -/
  aluResult : Word
  /-- Latch: the jump or branch decision (R30, R31). -/
  branchTaken : Bool
  /-- Latch, diagnostic only: `bus.error` right after the last load or store (R30, R32). -/
  loadStoreError : Bool
  /-- The bus's `error` bit (R47). -/
  busError : Bool
  /-- `BUS_DEVICES`, in list order, with the devices' contents (R5, R34, R43). -/
  devices : List Device
  /-- The MODEL's own: how many free values have been drawn (log 9). -/
  draws : Nat
  deriving DecidableEq, Repr

/-! ## How a step can stop -/

/-- Faults: there are none. "No behaviour of the block is modelled as fault or stuck" (93_implementation_defined.md
section 1, R98, R142), so the type is empty and no step can answer one. -/
inductive Fault
  deriving DecidableEq, Repr

/-- Refusals. -/
inductive Refusal where
  /-- Raised by `exec`'s arm of an instruction that has no meaning yet; safe. No arm raises it in this model. -/
  | notModelled (mnemonic : String)
  /-- Raised at Compute by an instruction that uses a register index not below `NREGS`, when `NREGS = 16` (R16, D4);
  safe: the spec says the model refuses it. -/
  | registerAbsent
  /-- Raised by the driver's `setX`, `setPc` and `bus.write` in the middle of an instruction (R169, D16); safe: the spec says
  the model refuses it. No step raises it. -/
  | driverMidInstruction
  deriving DecidableEq, Repr

/-- The outcome of a step. -/
abbrev Outcome := Host.Outcome State Fault Refusal

/-! ## Reset -/

/-- The record the latch `instr` holds at reset (log 1). -/
def InstrRecord.reset : InstrRecord :=
  { name := none, rd := 0, rs1 := 0, rs2 := 0, imm := 0, raw := 0, format := none }

/-- The all-`none` descriptor (R99), which the latch `dp` also holds at reset (log 1). -/
def Datapath.allNone : Datapath := ⟨.none, .none, .none, .none, .none⟩

/-- The platform at reset: one `Memory` over [0, 0xFFFF] that lists no byte (D20; log 2, log 3). -/
def resetDevices : List Device := [⟨0, 0xFFFF, .memory [] []⟩]

/-- The machine right after reset (R167, R168). The latches the spec gives "any value" hold the values of log 1. -/
def State.reset : State :=
  { nregs := .r32
    regs := Vector.replicate 32 0
    pc := 0
    mepc := 0
    irqState := false
    stage := .fetch
    fetchData := 0
    fetchError := false
    instr := InstrRecord.reset
    dp := Datapath.allNone
    x1v := 0
    x2v := 0
    aluResult := 0
    branchTaken := false
    loadStoreError := false
    busError := false
    devices := resetDevices
    draws := 0 }

end Sys2Proof.Machine
end

