-- ==== Sys2Proof/Machine/Flags.lean ====
section
/-! DEFINITION. The hardware has no condition codes and no flags (R31): what other machines keep in flags is computed by
the Compare stage from the two operands and held in the latch `branchTaken`. The comparisons of R94 stand here. -/

namespace Sys2Proof.Machine

def condEq (a b : Word) : Bool := a == b
def condNe (a b : Word) : Bool := a != b
/-- Signed (R94). -/
def condLt (a b : Word) : Bool := a.slt b
/-- Signed (R94). -/
def condGe (a b : Word) : Bool := !(a.slt b)
/-- Unsigned (R94). -/
def condLtu (a b : Word) : Bool := a.ult b
/-- Unsigned (R94). -/
def condGeu (a b : Word) : Bool := !(a.ult b)

/-- The table of R94; `none` and `al` are no comparison. -/
def Branch.holds : Branch → Word → Word → Option Bool
  | .none, _, _ => Option.none
  | .al, _, _ => Option.none
  | .eq, a, b => Option.some (condEq a b)
  | .ne, a, b => Option.some (condNe a b)
  | .lt, a, b => Option.some (condLt a b)
  | .ge, a, b => Option.some (condGe a b)
  | .ltu, a, b => Option.some (condLtu a b)
  | .geu, a, b => Option.some (condGeu a b)

/-- "a real comparison (`eq,ne,lt,ge,ltu,geu`)" (R93). -/
def Branch.isComparison : Branch → Bool
  | .none => false
  | .al => false
  | .eq => true
  | .ne => true
  | .lt => true
  | .ge => true
  | .ltu => true
  | .geu => true

end Sys2Proof.Machine
end

