-- ==== Sys2Proof/Machine/Operands.lean ====
section
/-! DEFINITION. Operands: the general registers, the operand latches of Compute, operand selection and the ALU
(10_state.md section 1, 40_execution_engine.md R90 to R92). -/

namespace Sys2Proof.Machine

/-! ## General registers -/

/-- The number of general registers (R5). -/
def RegCount.count : RegCount → Nat
  | .r16 => 16
  | .r32 => 32

/-- The index names one of the `NREGS` registers (R14, R16). -/
def State.hasReg (s : State) (r : RegIdx) : Bool := decide (r.toNat < s.nregs.count)

/-- `x[i]`: x0 reads 0 whatever is stored (R14). -/
def State.readReg (s : State) (r : RegIdx) : Word := if r = 0 then 0 else s.regs[r.toNat]

/-- `x[i] <- v`: a write to x0 is dropped (R15). -/
def State.writeReg (s : State) (r : RegIdx) (v : Word) : State :=
  if r = 0 then s else { s with regs := s.regs.set r.toNat v }

/-- An instruction whose used register fields do not all name registers of the machine is refused (R16, D4, log 12). -/
def guardRegs (used : List RegIdx) (s : State) (k : Outcome) : Outcome :=
  if used.all s.hasReg then k else .refused .registerAbsent

/-! ## The operand latches (R90) -/

/-- `x1v <- x[r]`; an index not below `NREGS` (possible for an unused operand only) yields a free value (D26, log 10). -/
def State.latchX1 (s : State) (r : RegIdx) : State :=
  if s.hasReg r then { s with x1v := s.readReg r }
  else { s with x1v := Config.unusedOperand s.draws, draws := s.draws + 1 }

/-- `x2v <- x[r]`, as `latchX1`. -/
def State.latchX2 (s : State) (r : RegIdx) : State :=
  if s.hasReg r then { s with x2v := s.readReg r }
  else { s with x2v := Config.unusedOperand s.draws, draws := s.draws + 1 }

/-- Both operand reads of Compute, in the order written (R90). -/
def State.latchOperands (s : State) (rs1 rs2 : RegIdx) : State := (s.latchX1 rs1).latchX2 rs2

/-- What Compute leaves in its latches: both operands, and the ALU's result (R90 to R92). -/
def State.latchCompute (s : State) (rs1 rs2 : RegIdx) (result : Word) : State :=
  { s.latchOperands rs1 rs2 with aluResult := result }

/-! ## Operand selection (R91) -/

/-- Operand `a`; with `src1 = none` it is unused (R91). -/
def operandA (src1 : Src1) (s : State) : Word :=
  match src1 with
  | .none => 0
  | .pc => s.pc
  | .x1 => s.x1v

/-- Operand `b`; with `src2 = none` Compute is not reached (R91). -/
def operandB (src2 : Src2) (s : State) : Word :=
  match src2 with
  | .none => 0
  | .imm => s.instr.imm
  | .x2 => s.x2v

/-! ## The ALU (R92, R11) -/

/-- A Boolean used as a value (R11). -/
def boolWord (b : Bool) : Word := if b then 1 else 0

/-- The shift amount `b[4:0]`, for all three shifts (R92, C5). -/
def shiftAmount (b : Word) : Nat := (b.extractLsb' 0 5).toNat

def aluAdd (a b : Word) : Word := a + b
def aluSub (a b : Word) : Word := a - b
def aluSll (a b : Word) : Word := a <<< shiftAmount b
def aluSlt (a b : Word) : Word := boolWord (a.slt b)
def aluSltu (a b : Word) : Word := boolWord (a.ult b)
def aluXor (a b : Word) : Word := a ^^^ b
def aluSrl (a b : Word) : Word := a >>> shiftAmount b
def aluSra (a b : Word) : Word := a.sshiftRight (shiftAmount b)
def aluOr (a b : Word) : Word := a ||| b
def aluAnd (a b : Word) : Word := a &&& b

/-- The ALU's table of R92; `none` has no result (Compute is not reached with it, R89). -/
def alu : AluOp → Word → Word → Option Word
  | .none, _, _ => none
  | .b, _, b => some b
  | .add, a, b => some (aluAdd a b)
  | .sub, a, b => some (aluSub a b)
  | .sll, a, b => some (aluSll a b)
  | .slt, a, b => some (aluSlt a b)
  | .sltu, a, b => some (aluSltu a b)
  | .xor, a, b => some (aluXor a b)
  | .srl, a, b => some (aluSrl a b)
  | .sra, a, b => some (aluSra a b)
  | .or, a, b => some (aluOr a b)
  | .and, a, b => some (aluAnd a b)

end Sys2Proof.Machine
end

