-- ==== Sys2Proof/Machine/Ops.lean ====
section
/-! DEFINITION. The shared operations: bytes of a `Memory`, the device contract, the bus (20_memory.md), the writes of
`pc`, and the one trap of the machine, interrupt entry, with the return from it (60_exceptions.md, 44_system.md R139). -/

namespace Sys2Proof.Machine

/-! ## Bytes of a Memory device -/

/-- What an offset that no entry lists reads as (log 2). -/
def unlistedByte : Byte := 0

/-- The canonical form from offset `lo` on. -/
def Memory.wfFrom (lo : Nat) : Memory → Bool
  | [] => true
  | (a, b) :: rest => decide (lo ≤ a) && b != unlistedByte && Memory.wfFrom (a + 1) rest

/-- The canonical form: offsets strictly rising, no entry equal to what an unlisted offset reads as. -/
def Memory.wf (m : Memory) : Bool := Memory.wfFrom 0 m

/-- The byte at an offset. -/
def Memory.read (m : Memory) (a : Nat) : Byte :=
  match m with
  | [] => unlistedByte
  | (k, b) :: rest => if k = a then b else Memory.read rest a

/-- Put an entry before the first entry with a greater offset. -/
def Memory.insert (a : Nat) (v : Byte) : Memory → Memory
  | [] => [(a, v)]
  | (k, b) :: rest => if a < k then (a, v) :: (k, b) :: rest else (k, b) :: Memory.insert a v rest

/-- Drop every entry at an offset. -/
def Memory.erase (m : Memory) (a : Nat) : Memory := m.filter fun c => c.1 != a

/-- Set the byte at an offset. -/
def Memory.write (m : Memory) (a : Nat) (v : Byte) : Memory :=
  if v = unlistedByte then m.erase a else Memory.insert a v (m.erase a)

/-- `n` bytes from an offset on, little-endian, zero-extended (R42 `localRead`; the sum of disjoint bytes is their OR). -/
def Memory.readBytes (m : Memory) (off : Nat) : Nat → Word
  | 0 => 0
  | n + 1 => Memory.readBytes m off n ||| ((m.read (off + n)).setWidth 32 <<< (8 * n))

/-- The low `n` bytes of a value put at an offset, little-endian (R42 `localWrite`). -/
def Memory.writeBytes (m : Memory) (off : Nat) (v : Word) : Nat → Memory
  | 0 => m
  | n + 1 => (Memory.writeBytes m off v n).write (off + n) (v.extractLsb' (8 * n) 8)

/-! ## The device contract -/

/-- The number of bytes of an access (R36). -/
def AccessSize.bytes : AccessSize → Nat
  | .byte => 1
  | .half => 2
  | .word => 4

/-- `sext` or `zext` of the low `8 * size` bits (R38). -/
def extend (size : AccessSize) (signed : Bool) (raw : Word) : Word :=
  match size with
  | .byte => if signed then (raw.setWidth 8).signExtend 32 else (raw.setWidth 8).setWidth 32
  | .half => if signed then (raw.setWidth 16).signExtend 32 else (raw.setWidth 16).setWidth 32
  | .word => raw

/-- The whole access lies in the device's range, computed on integers without wrap-around (R37). -/
def Device.accepts (d : Device) (addr : Word) (size : AccessSize) : Bool :=
  decide (d.first.toNat ≤ addr.toNat ∧ addr.toNat + size.bytes - 1 ≤ d.last.toNat)

/-- The range-relative offset of an address (R38). -/
def Device.offset (d : Device) (addr : Word) : Nat := addr.toNat - d.first.toNat

/-- `localRead` (R38, R42): the raw value, the device after it, and the number of free values drawn. A device that is no
`Memory` answers the next of its `answers`; with none left the value is drawn (log 7). -/
def Device.localRead (d : Device) (off : Nat) (size : AccessSize) (draws : Nat) : Word × Device × Nat :=
  match d.kind with
  | .memory cells _ => (cells.readBytes off size.bytes, d, draws)
  | .external irqs (v :: answers) accesses => (v, { d with kind := .external irqs answers (.read off size :: accesses) }, draws)
  | .external irqs [] accesses =>
    (Config.localRead draws, { d with kind := .external irqs [] (.read off size :: accesses) }, draws + 1)

/-- `localWrite` (R39, R42): a `Memory` keeps the low `8 * size` bits; any other device is given the full value. -/
def Device.localWrite (d : Device) (off : Nat) (size : AccessSize) (v : Word) : Device :=
  match d.kind with
  | .memory cells initial => { d with kind := .memory (cells.writeBytes off v size.bytes) initial }
  | .external irqs answers accesses => { d with kind := .external irqs answers (.write off size v :: accesses) }

/-- `Device.irq()` (R40, R42): `Memory` never requests; any other device requests as its `irqs` say, by default not (log 6). -/
def Device.irq (d : Device) : Bool :=
  match d.kind with
  | .memory _ _ => false
  | .external irqs _ _ => irqs.headD false

/-- The device when the next sample of its request is due (log 6): time passes between two samples; reading the request has
no side effect (R40, R149). -/
def Device.nextSample (d : Device) : Device :=
  match d.kind with
  | .memory _ _ => d
  | .external irqs answers accesses => { d with kind := .external irqs.tail answers accesses }

/-- `Device.reset()` (R41): a `Memory` returns to its initial bytes; any other device is told (log 13). -/
def Device.reset (d : Device) : Device :=
  match d.kind with
  | .memory _ initial => { d with kind := .memory initial initial }
  | .external irqs answers accesses => { d with kind := .external irqs answers (.reset :: accesses) }

/-! ## The bus -/

/-- The read of the first accepting device in list order (R43); `none` when none accepts. -/
def firstRead (addr : Word) (size : AccessSize) (draws : Nat) : List Device → Option (Word × List Device × Nat)
  | [] => none
  | d :: ds =>
    if d.accepts addr size then
      let r := d.localRead (d.offset addr) size draws
      some (r.1, r.2.1 :: ds, r.2.2)
    else
      match firstRead addr size draws ds with
      | none => none
      | some (v, ds', n) => some (v, d :: ds', n)

/-- `bus.read(addr, size, signed)` (R43, R47): the value, and the state after the read. -/
def State.busRead (s : State) (addr : Word) (size : AccessSize) (signed : Bool) : Word × State :=
  match firstRead addr size s.draws s.devices with
  | none => (0, { s with busError := true })
  | some (raw, ds, n) => (extend size signed raw, { s with busError := false, devices := ds, draws := n })

/-- The devices after a write: every accepting one is written, in list order (R44, D21). -/
def writeAccepting (addr : Word) (size : AccessSize) (v : Word) (ds : List Device) : List Device :=
  ds.map fun d => if d.accepts addr size then d.localWrite (d.offset addr) size v else d

/-- `bus.write(addr, size, value)` (R44, R47). -/
def State.busWrite (s : State) (addr : Word) (size : AccessSize) (v : Word) : State :=
  { s with
    busError := !(s.devices.any fun d => d.accepts addr size)
    devices := writeAccepting addr size v s.devices }

/-- `bus.error` captured right after a load or store (R32, R95). -/
def State.captureError (s : State) : State := { s with loadStoreError := s.busError }

/-- The devices with a word stored in the first that accepts a 4-byte access at an address, if there is one and it is a `Memory`:
where a fetch at the address reads (log 16). -/
def placeInFirst (addr w : Word) : List Device → Option (List Device)
  | [] => none
  | d :: ds =>
    if d.accepts addr .word then
      match d.kind with
      | .memory _ _ => some (d.localWrite (d.offset addr) .word w :: ds)
      | .external _ _ _ => none
    else
      match placeInFirst addr w ds with
      | none => none
      | some ds' => some (d :: ds')

/-- `IrqLine() = bus.irq()` (R45, R145): the OR of every device's request. -/
def State.irqLine (s : State) : Bool := s.devices.any Device.irq

/-- The devices when the next sample of the line is due (log 6). -/
def State.nextSample (s : State) : State := { s with devices := s.devices.map Device.nextSample }

/-- The byte that the `k`-th device of the bus, if it is a `Memory`, holds at an address of its range: the model's read of one
byte, with no effect on the machine. -/
def State.memByte (s : State) (k : Nat) (addr : Nat) : Option Byte :=
  match s.devices[k]? with
  | some { first := lo, last := hi, kind := .memory cells _ } =>
    if lo.toNat ≤ addr ∧ addr ≤ hi.toNat then some (cells.read (addr - lo.toNat)) else none
  | _ => none

/-! ## pc, interrupt entry and return -/

/-- The mask of every write of `pc` and `mepc` (R19, R24). -/
def alignPc (v : Word) : Word := v &&& 0xFFFFFFFC

/-- `pc <- v` (R19). -/
def State.setPc (s : State) (v : Word) : State := { s with pc := alignPc v }

/-- The fixed interrupt vector (R5, R53, R151). -/
def trapVector : Word := 4

/-- `AcceptInterrupt()` (R150). -/
def State.acceptInterrupt (s : State) : Bool := s.irqLine && !s.irqState

/-- `InterruptEntry(next)`: the taking of the machine's one exception (R151). -/
def State.interruptEntry (s : State) (next : Word) : State :=
  { s with mepc := alignPc next, pc := trapVector, irqState := true }

/-- `MretReturn()` (R139, R156). -/
def State.mretReturn (s : State) : State := { s with pc := alignPc s.mepc, irqState := false }

/-- `next` of R96: the jump or branch target, or the following instruction (mod 2^32, R23). -/
def State.nextPc (s : State) : Word := if s.branchTaken then s.aluResult else s.pc + 4

/-- `stage <- g` (R86). -/
def State.setStage (s : State) (g : Stage) : State := { s with stage := g }

/-- The UpdatePC stage (R96) of an instruction that is `mret` or not: sample the line once, then enter the handler, return
from it, or go on; the next stage is Fetch. -/
def State.updatePC (s : State) (isMret : Bool) : State :=
  let accepted := s.acceptInterrupt
  let t := s.nextSample
  let u := if accepted then t.interruptEntry s.nextPc else if isMret then t.mretReturn else t.setPc s.nextPc
  u.setStage .fetch

/-- `branchTaken <- taken` (R93, R94). -/
def State.setTaken (s : State) (taken : Bool) : State := { s with branchTaken := taken }

/-- The end of an instruction that is not `mret`, taken as a jump or not: UpdatePC after `branchTaken` is decided (R96). -/
def State.retire (s : State) (taken : Bool) : Outcome := .next ((s.setTaken taken).updatePC false)

end Sys2Proof.Machine
end

