-- ==== Sys2Proof/Machine/Control.lean ====
section
/-! DEFINITION. Meanings of the control transfer instructions (42_control_transfer.md), at instruction level. -/

namespace Sys2Proof.Machine

/-- R123: `x[rd] <- pc + 4`, jump to `pc + imm` with bits 1:0 cleared. -/
def execJal (rd : RegIdx) (imm : Word) (s : State) : Outcome :=
  guardRegs [rd] s
    (State.retire ((s.latchCompute s.instr.rs1 s.instr.rs2 (s.pc + imm)).writeReg rd (s.pc + 4)) true)

/-- R124: `x[rd] <- pc + 4`, jump to `x[rs1] + imm` (the old `x[rs1]`) with bits 1:0 cleared. -/
def execJalr (rd rs1 : RegIdx) (imm : Word) (s : State) : Outcome :=
  guardRegs [rs1, rd] s
    (State.retire ((s.latchCompute rs1 s.instr.rs2 (s.readReg rs1 + imm)).writeReg rd (s.pc + 4)) true)

/-- Conditional branches: to `pc + imm` with bits 1:0 cleared if the condition holds, else to `pc + 4` (42_control_transfer.md
section 2). -/
def branchIf (cond : Word → Word → Bool) (rs1 rs2 : RegIdx) (imm : Word) (s : State) : Outcome :=
  guardRegs [rs1, rs2] s
    (State.retire (s.latchCompute rs1 rs2 (s.pc + imm)) (cond (s.readReg rs1) (s.readReg rs2)))

/-- R125. -/
def execBeq (rs1 rs2 : RegIdx) (imm : Word) (s : State) : Outcome := branchIf condEq rs1 rs2 imm s
/-- R126. -/
def execBne (rs1 rs2 : RegIdx) (imm : Word) (s : State) : Outcome := branchIf condNe rs1 rs2 imm s
/-- R127. -/
def execBlt (rs1 rs2 : RegIdx) (imm : Word) (s : State) : Outcome := branchIf condLt rs1 rs2 imm s
/-- R128. -/
def execBge (rs1 rs2 : RegIdx) (imm : Word) (s : State) : Outcome := branchIf condGe rs1 rs2 imm s
/-- R129. -/
def execBltu (rs1 rs2 : RegIdx) (imm : Word) (s : State) : Outcome := branchIf condLtu rs1 rs2 imm s
/-- R130. -/
def execBgeu (rs1 rs2 : RegIdx) (imm : Word) (s : State) : Outcome := branchIf condGeu rs1 rs2 imm s

end Sys2Proof.Machine
end

