-- ==== Sys2Proof/Machine/Integer.lean ====
section
/-! DEFINITION. Meanings of the integer computational instructions (41_integer_computational.md), at instruction level.
Every meaning starts from the state Decode leaves: the fields of the word that the instruction does not use as operands are
those of the latch `instr` (R90 reads both register fields, whatever the format). -/

namespace Sys2Proof.Machine

/-- Upper-immediate instructions: `x[rd] <- v` (R102, R103). -/
def upperImmediate (v : Word) (rd : RegIdx) (s : State) : Outcome :=
  guardRegs [rd] s
    (State.retire ((s.latchCompute s.instr.rs1 s.instr.rs2 v).writeReg rd v) false)

/-- Register-immediate instructions: `x[rd] <- op(x[rs1], imm)` (R104 to R112). -/
def opImmediate (op : Word → Word → Word) (rd rs1 : RegIdx) (imm : Word) (s : State) : Outcome :=
  let v := op (s.readReg rs1) imm
  guardRegs [rs1, rd] s
    (State.retire ((s.latchCompute rs1 s.instr.rs2 v).writeReg rd v) false)

/-- Register-register instructions: `x[rd] <- op(x[rs1], x[rs2])` (R113 to R122). -/
def opRegister (op : Word → Word → Word) (rd rs1 rs2 : RegIdx) (s : State) : Outcome :=
  let v := op (s.readReg rs1) (s.readReg rs2)
  guardRegs [rs1, rs2, rd] s
    (State.retire ((s.latchCompute rs1 rs2 v).writeReg rd v) false)

/-- R102: `x[rd] <- imm`. -/
def execLui (rd : RegIdx) (imm : Word) (s : State) : Outcome := upperImmediate imm rd s
/-- R103: `x[rd] <- pc + imm`. -/
def execAuipc (rd : RegIdx) (imm : Word) (s : State) : Outcome := upperImmediate (s.pc + imm) rd s

/-- R104. -/
def execAddi (rd rs1 : RegIdx) (imm : Word) (s : State) : Outcome := opImmediate aluAdd rd rs1 imm s
/-- R105. -/
def execSlti (rd rs1 : RegIdx) (imm : Word) (s : State) : Outcome := opImmediate aluSlt rd rs1 imm s
/-- R106. -/
def execSltiu (rd rs1 : RegIdx) (imm : Word) (s : State) : Outcome := opImmediate aluSltu rd rs1 imm s
/-- R107. -/
def execXori (rd rs1 : RegIdx) (imm : Word) (s : State) : Outcome := opImmediate aluXor rd rs1 imm s
/-- R108. -/
def execOri (rd rs1 : RegIdx) (imm : Word) (s : State) : Outcome := opImmediate aluOr rd rs1 imm s
/-- R109. -/
def execAndi (rd rs1 : RegIdx) (imm : Word) (s : State) : Outcome := opImmediate aluAnd rd rs1 imm s
/-- R110. -/
def execSlli (rd rs1 : RegIdx) (imm : Word) (s : State) : Outcome := opImmediate aluSll rd rs1 imm s
/-- R111. -/
def execSrli (rd rs1 : RegIdx) (imm : Word) (s : State) : Outcome := opImmediate aluSrl rd rs1 imm s
/-- R112. -/
def execSrai (rd rs1 : RegIdx) (imm : Word) (s : State) : Outcome := opImmediate aluSra rd rs1 imm s

/-- R113. -/
def execAdd (rd rs1 rs2 : RegIdx) (s : State) : Outcome := opRegister aluAdd rd rs1 rs2 s
/-- R114. -/
def execSub (rd rs1 rs2 : RegIdx) (s : State) : Outcome := opRegister aluSub rd rs1 rs2 s
/-- R115. -/
def execSll (rd rs1 rs2 : RegIdx) (s : State) : Outcome := opRegister aluSll rd rs1 rs2 s
/-- R116. -/
def execSlt (rd rs1 rs2 : RegIdx) (s : State) : Outcome := opRegister aluSlt rd rs1 rs2 s
/-- R117. -/
def execSltu (rd rs1 rs2 : RegIdx) (s : State) : Outcome := opRegister aluSltu rd rs1 rs2 s
/-- R118. -/
def execXor (rd rs1 rs2 : RegIdx) (s : State) : Outcome := opRegister aluXor rd rs1 rs2 s
/-- R119. -/
def execSrl (rd rs1 rs2 : RegIdx) (s : State) : Outcome := opRegister aluSrl rd rs1 rs2 s
/-- R120. -/
def execSra (rd rs1 rs2 : RegIdx) (s : State) : Outcome := opRegister aluSra rd rs1 rs2 s
/-- R121. -/
def execOr (rd rs1 rs2 : RegIdx) (s : State) : Outcome := opRegister aluOr rd rs1 rs2 s
/-- R122. -/
def execAnd (rd rs1 rs2 : RegIdx) (s : State) : Outcome := opRegister aluAnd rd rs1 rs2 s

end Sys2Proof.Machine
end

