-- ==== Sys2Proof/Machine/LoadStore.lean ====
section
/-! DEFINITION. Meanings of the load and store instructions (43_load_store.md), at instruction level. -/

namespace Sys2Proof.Machine

/-- `EA = x[rs1] + imm` mod 2^32 (43_load_store.md). -/
def effectiveAddress (s : State) (rs1 : RegIdx) (imm : Word) : Word := s.readReg rs1 + imm

/-- The one bus read of a load at EA, with the operands latched (R131 to R135, R52). -/
def loadRead (size : AccessSize) (signed : Bool) (rs1 : RegIdx) (imm : Word) (s : State) : Word × State :=
  let ea := effectiveAddress s rs1 imm
  (s.latchCompute rs1 s.instr.rs2 ea).busRead ea size signed

/-- Loads: the read, also for `rd = x0`; the captured error; the value to `x[rd]` (R131 to R135). -/
def loadFrom (size : AccessSize) (signed : Bool) (rd rs1 : RegIdx) (imm : Word) (s : State) : Outcome :=
  let r := loadRead size signed rs1 imm s
  guardRegs [rs1, rd] s (State.retire (r.2.captureError.writeReg rd r.1) false)

/-- The one bus write of a store at EA, of `x[rs2]`, with the operands latched (R136 to R138, R52). -/
def storeWrite (size : AccessSize) (rs1 rs2 : RegIdx) (imm : Word) (s : State) : State :=
  let ea := effectiveAddress s rs1 imm
  (s.latchCompute rs1 rs2 ea).busWrite ea size (s.readReg rs2)

/-- Stores: the write; the captured error; no register is written (R136 to R138). -/
def storeTo (size : AccessSize) (rs1 rs2 : RegIdx) (imm : Word) (s : State) : Outcome :=
  guardRegs [rs1, rs2] s (State.retire (storeWrite size rs1 rs2 imm s).captureError false)

/-- R131. -/
def execLb (rd rs1 : RegIdx) (imm : Word) (s : State) : Outcome := loadFrom .byte true rd rs1 imm s
/-- R132. -/
def execLh (rd rs1 : RegIdx) (imm : Word) (s : State) : Outcome := loadFrom .half true rd rs1 imm s
/-- R133. -/
def execLw (rd rs1 : RegIdx) (imm : Word) (s : State) : Outcome := loadFrom .word true rd rs1 imm s
/-- R134. -/
def execLbu (rd rs1 : RegIdx) (imm : Word) (s : State) : Outcome := loadFrom .byte false rd rs1 imm s
/-- R135. -/
def execLhu (rd rs1 : RegIdx) (imm : Word) (s : State) : Outcome := loadFrom .half false rd rs1 imm s

/-- R136. -/
def execSb (rs1 rs2 : RegIdx) (imm : Word) (s : State) : Outcome := storeTo .byte rs1 rs2 imm s
/-- R137. -/
def execSh (rs1 rs2 : RegIdx) (imm : Word) (s : State) : Outcome := storeTo .half rs1 rs2 imm s
/-- R138. -/
def execSw (rs1 rs2 : RegIdx) (imm : Word) (s : State) : Outcome := storeTo .word rs1 rs2 imm s

end Sys2Proof.Machine
end

