-- ==== Sys2Proof/Machine/System.lean ====
section
/-! DEFINITION. Meanings of `mret` and of the words that are no instruction (44_system.md), at instruction level. -/

namespace Sys2Proof.Machine

/-- R139: `pc <- mepc`, `irqState <- false`, unless an interrupt is accepted (R153), which saves `pc + 4`. -/
def execMret (s : State) : Outcome := .next ((s.setTaken false).updatePC true)

/-- R140: an `invalid` word is an executable no-op; only the pc advances. It is no row of the table and has no arm in `exec`:
`step` runs it when the decoder rejects the word. -/
def execInvalid (s : State) : Outcome := s.retire false

end Sys2Proof.Machine
end

