-- ==== Sys2Proof/Machine/Datapath.lean ====
section
/-! DEFINITION. The datapath descriptor of each mnemonic (40_execution_engine.md R99): a pure function of the name. -/

namespace Sys2Proof.Machine

/-- A load: address `x1 + imm`, the access named by `wb`. -/
def Datapath.memory (wb : WbMem) : Datapath := ⟨.x1, .imm, .add, wb, .none⟩

/-- A conditional branch: target `pc + imm`, the comparison named by `br`. -/
def Datapath.branchOn (br : Branch) : Datapath := ⟨.pc, .imm, .add, .none, br⟩

/-- A register-immediate operation. -/
def Datapath.opImm (op : AluOp) : Datapath := ⟨.x1, .imm, op, .r, .none⟩

/-- A register-register operation. -/
def Datapath.opReg (op : AluOp) : Datapath := ⟨.x1, .x2, op, .r, .none⟩

/-- The table of R99 for the 38 mnemonics. -/
def descriptorOf : Mnemonic → Datapath
  | .lui => ⟨.none, .imm, .b, .r, .none⟩
  | .auipc => ⟨.pc, .imm, .add, .r, .none⟩
  | .jal => ⟨.pc, .imm, .add, .pcPlus, .al⟩
  | .jalr => ⟨.x1, .imm, .add, .pcPlus, .al⟩
  | .beq => .branchOn .eq
  | .bne => .branchOn .ne
  | .blt => .branchOn .lt
  | .bge => .branchOn .ge
  | .bltu => .branchOn .ltu
  | .bgeu => .branchOn .geu
  | .lb => .memory .lb
  | .lh => .memory .lh
  | .lw => .memory .lw
  | .lbu => .memory .lbu
  | .lhu => .memory .lhu
  | .sb => .memory .sb
  | .sh => .memory .sh
  | .sw => .memory .sw
  | .addi => .opImm .add
  | .slti => .opImm .slt
  | .sltiu => .opImm .sltu
  | .xori => .opImm .xor
  | .ori => .opImm .or
  | .andi => .opImm .and
  | .slli => .opImm .sll
  | .srli => .opImm .srl
  | .srai => .opImm .sra
  | .add => .opReg .add
  | .sub => .opReg .sub
  | .sll => .opReg .sll
  | .slt => .opReg .slt
  | .sltu => .opReg .sltu
  | .xor => .opReg .xor
  | .srl => .opReg .srl
  | .sra => .opReg .sra
  | .or => .opReg .or
  | .and => .opReg .and
  | .mret => .allNone

/-- `DESCRIPTOR[name]` (R89, R99): `invalid` has the all-`none` descriptor. -/
def descriptor : Option Mnemonic → Datapath
  | none => .allNone
  | some m => descriptorOf m

end Sys2Proof.Machine
end

