-- ==== Sys2Proof/Machine/Stages.lean ====
section
/-! DEFINITION. The execution engine stage by stage (40_execution_engine.md sections 1 and 2): `stageStep` is the spec's
`step()`. The model's own `step` (Machine/Step.lean) runs a whole instruction (log 5). -/

namespace Sys2Proof.Machine

/-- Fetch (R88): `branchTaken` is cleared (decision D6), the word is read, `bus.error` is captured. -/
def fetchStage (s : State) : State :=
  let r := (s.setTaken false).busRead s.pc .word false
  { r.2 with fetchData := r.1, fetchError := r.2.busError, stage := .decode }

/-- Decode (R89). -/
def decodeStage (s : State) : State :=
  let rec' := decodeRecord s.fetchData
  let dp := descriptor rec'.name
  { s with instr := rec', dp := dp, stage := if dp.aluOp = .none then .updatePC else .compute }

/-- The access is a load or a store (R93). -/
def WbMem.isMemory : WbMem → Bool
  | .none | .r | .pcPlus => false
  | .lb | .lh | .lw | .lbu | .lhu | .sb | .sh | .sw => true

/-- The access is a store (R16). -/
def WbMem.isStore : WbMem → Bool
  | .none | .r | .pcPlus | .lb | .lh | .lw | .lbu | .lhu => false
  | .sb | .sh | .sw => true

/-- `rd` is written (R16). -/
def WbMem.writesRd : WbMem → Bool
  | .none | .sb | .sh | .sw => false
  | .r | .pcPlus | .lb | .lh | .lw | .lbu | .lhu => true

/-- The instruction uses `rs1`: as operand `a` (R16), or in a comparison (R94; log 12). -/
def Datapath.usesRs1 (d : Datapath) : Bool := d.src1 == .x1 || d.branch.isComparison

/-- The instruction uses `rs2`: as operand `b`, as store data (R16), or in a comparison (R94; log 12). -/
def Datapath.usesRs2 (d : Datapath) : Bool := d.src2 == .x2 || d.wbMem.isStore || d.branch.isComparison

/-- The register fields the instruction in the latches uses (R16). -/
def State.usedRegs (s : State) : List RegIdx :=
  (if s.dp.usesRs1 then [s.instr.rs1] else []) ++ (if s.dp.usesRs2 then [s.instr.rs2] else []) ++
    (if s.dp.wbMem.writesRd then [s.instr.rd] else [])

/-- The ALU part of Compute (R91, R92). -/
def aluStage (s : State) : State :=
  { s with aluResult := (alu s.dp.aluOp (operandA s.dp.src1 s) (operandB s.dp.src2 s)).getD s.aluResult }

/-- The jump flag and the next stage (R93, decision D7). -/
def computeNext (s : State) : State :=
  if s.dp.branch.isComparison then s.setStage .compare
  else
    (s.setTaken (s.branchTaken || s.dp.branch == .al)).setStage
      (if s.dp.wbMem.isMemory then .loadStoreWriteBack
      else if (s.dp.wbMem == .r || s.dp.wbMem == .pcPlus) && s.instr.rd != 0 then .loadStoreWriteBack
      else .updatePC)

/-- Compute (R90 to R93), refused when a used register field names no register (R16). -/
def computeStage (s : State) : Outcome :=
  guardRegs s.usedRegs s (.next (computeNext (aluStage (s.latchOperands s.instr.rs1 s.instr.rs2))))

/-- Compare (R94). -/
def compareStage (s : State) : State :=
  (s.setTaken ((s.dp.branch.holds s.x1v s.x2v).getD s.branchTaken)).setStage .updatePC

/-- A load of LoadStoreWriteBack (R95). -/
def loadStage (s : State) (size : AccessSize) (signed : Bool) : State :=
  let r := s.busRead s.aluResult size signed
  r.2.captureError.writeReg s.instr.rd r.1

/-- A store of LoadStoreWriteBack (R95). -/
def storeStage (s : State) (size : AccessSize) : State :=
  (s.busWrite s.aluResult size s.x2v).captureError

/-- The dispatch on `wbMem` (R95). -/
def writeBack (s : State) : State :=
  match s.dp.wbMem with
  | .none => s
  | .r => s.writeReg s.instr.rd s.aluResult
  | .pcPlus => s.writeReg s.instr.rd (s.pc + 4)
  | .lb => loadStage s .byte true
  | .lh => loadStage s .half true
  | .lw => loadStage s .word true
  | .lbu => loadStage s .byte false
  | .lhu => loadStage s .half false
  | .sb => storeStage s .byte
  | .sh => storeStage s .half
  | .sw => storeStage s .word

/-- LoadStoreWriteBack (R95). -/
def loadStoreStage (s : State) : State := (writeBack s).setStage .updatePC

/-- UpdatePC (R96). -/
def updatePcStage (s : State) : State := s.updatePC (s.instr.name == some .mret)

/-- The spec's `step()`: exactly one stage (R86, R87). -/
def stageStep (s : State) : Outcome :=
  match s.stage with
  | .fetch => .next (fetchStage s)
  | .decode => .next (decodeStage s)
  | .compute => computeStage s
  | .compare => .next (compareStage s)
  | .loadStoreWriteBack => .next (loadStoreStage s)
  | .updatePC => .next (updatePcStage s)

/-- Run stages until an instruction boundary (`stage = Fetch`, R97) is reached, at most the given number of stages. -/
def runToBoundary : Nat → State → Outcome
  | 0, s => .next s
  | n + 1, s =>
    match stageStep s with
    | .next t => if t.stage = .fetch then .next t else runToBoundary n t
    | .fault f => .fault f
    | .refused r => .refused r

/-- The stages run from a state to the next instruction boundary, in order, at most the given number; a refused stage ends
the list. Its length is the number of `step()` calls of R100. -/
def stagesToBoundary : Nat → State → List Stage
  | 0, _ => []
  | n + 1, s =>
    match stageStep s with
    | .next t => s.stage :: (if t.stage = .fetch then [] else stagesToBoundary n t)
    | .fault _ => [s.stage]
    | .refused _ => [s.stage]

end Sys2Proof.Machine
end

