-- ==== Sys2Proof/Machine/Step.lean ====
section
/-! DEFINITION. The machine's step: one whole instruction, from a boundary to the next (40_execution_engine.md R101, log 5).
The spec's `step()`, one stage, is `stageStep` of Machine/Stages.lean; that the two agree is stated as an obligation. -/

namespace Sys2Proof.Machine

/-- The instruction-level view of R101: Fetch and Decode, then the meaning of the decoded instruction, or the no-op of R140. -/
def instructionStep (s : State) : Host.Outcome State Fault Refusal :=
  let d := decodeStage (fetchStage s)
  match decode d.fetchData with
  | .ok i => exec i d
  | .error _ => execInvalid d

/-- One step: at an instruction boundary, the instruction at `pc`; in the middle of an instruction, the rest of it (log 5). -/
def step (s : State) : Host.Outcome State Fault Refusal :=
  if s.stage = .fetch then instructionStep s else runToBoundary 5 s

/-- Put a word where the next fetch finds it: into the device that the fetch at `pc` reads if that is a `Memory`, else into a
`Memory` of four bytes placed at `pc` in front of the others; the next stage is Fetch (log 16). -/
def placeWord (w : Word) (s : State) : State :=
  let pc := alignPc s.pc
  let inPlace := placeInFirst pc w s.devices
  { s with pc := pc, stage := .fetch, devices := inPlace.getD (⟨pc, pc + 3, .memory (Memory.writeBytes [] 0 w 4) []⟩ :: s.devices) }

/-- The host's entry: the state with the instruction whose low `nbits` bits are those of `w` (the higher bits 0) stored where
`step` fetches its next instruction. -/
def State.withFetchWord (s : State) (nbits w : Nat) : State := placeWord (BitVec.ofNat 32 (w % 2 ^ nbits)) s

end Sys2Proof.Machine
end

