-- ==== Sys2Proof/Machine/Assembly.lean ====
section
/-! DEFINITION. The assembly codec at the system boundary (30_encoding.md section 6, R78 to R84): software, used by no stage of
the engine. Text is a list of characters. Where R82 and R83 leave a detail open, log 15 says what is done. -/

namespace Sys2Proof.Machine

abbrev Text := List Char

/-- The operand tokens of R78: `d`, `1`, `2`, `i`, `p` and `a`. -/
inductive OperandToken where
  | rd
  | rs1
  | rs2
  | imm
  | pcRelative
  | indirect
  deriving DecidableEq, Repr

/-- The mnemonic as it is written (R2). -/
def mnemonicText : Mnemonic → Text
  | .lui => ['l', 'u', 'i']
  | .auipc => ['a', 'u', 'i', 'p', 'c']
  | .jal => ['j', 'a', 'l']
  | .jalr => ['j', 'a', 'l', 'r']
  | .beq => ['b', 'e', 'q']
  | .bne => ['b', 'n', 'e']
  | .blt => ['b', 'l', 't']
  | .bge => ['b', 'g', 'e']
  | .bltu => ['b', 'l', 't', 'u']
  | .bgeu => ['b', 'g', 'e', 'u']
  | .lb => ['l', 'b']
  | .lh => ['l', 'h']
  | .lw => ['l', 'w']
  | .lbu => ['l', 'b', 'u']
  | .lhu => ['l', 'h', 'u']
  | .sb => ['s', 'b']
  | .sh => ['s', 'h']
  | .sw => ['s', 'w']
  | .addi => ['a', 'd', 'd', 'i']
  | .slti => ['s', 'l', 't', 'i']
  | .sltiu => ['s', 'l', 't', 'i', 'u']
  | .xori => ['x', 'o', 'r', 'i']
  | .ori => ['o', 'r', 'i']
  | .andi => ['a', 'n', 'd', 'i']
  | .slli => ['s', 'l', 'l', 'i']
  | .srli => ['s', 'r', 'l', 'i']
  | .srai => ['s', 'r', 'a', 'i']
  | .add => ['a', 'd', 'd']
  | .sub => ['s', 'u', 'b']
  | .sll => ['s', 'l', 'l']
  | .slt => ['s', 'l', 't']
  | .sltu => ['s', 'l', 't', 'u']
  | .xor => ['x', 'o', 'r']
  | .srl => ['s', 'r', 'l']
  | .sra => ['s', 'r', 'a']
  | .or => ['o', 'r']
  | .and => ['a', 'n', 'd']
  | .mret => ['m', 'r', 'e', 't']

/-- The operand-syntax string of each mnemonic (R79, decision D17). -/
def operandTokens : Mnemonic → List OperandToken
  | .lui => [.rd, .imm]
  | .auipc => [.rd, .imm]
  | .jal => [.rd, .pcRelative]
  | .jalr => [.rd, .indirect]
  | .beq => [.rs1, .rs2, .pcRelative]
  | .bne => [.rs1, .rs2, .pcRelative]
  | .blt => [.rs1, .rs2, .pcRelative]
  | .bge => [.rs1, .rs2, .pcRelative]
  | .bltu => [.rs1, .rs2, .pcRelative]
  | .bgeu => [.rs1, .rs2, .pcRelative]
  | .lb => [.rd, .indirect]
  | .lh => [.rd, .indirect]
  | .lw => [.rd, .indirect]
  | .lbu => [.rd, .indirect]
  | .lhu => [.rd, .indirect]
  | .sb => [.rs2, .indirect]
  | .sh => [.rs2, .indirect]
  | .sw => [.rs2, .indirect]
  | .addi => [.rd, .rs1, .imm]
  | .slti => [.rd, .rs1, .imm]
  | .sltiu => [.rd, .rs1, .imm]
  | .xori => [.rd, .rs1, .imm]
  | .ori => [.rd, .rs1, .imm]
  | .andi => [.rd, .rs1, .imm]
  | .slli => [.rd, .rs1, .imm]
  | .srli => [.rd, .rs1, .imm]
  | .srai => [.rd, .rs1, .imm]
  | .add => [.rd, .rs1, .rs2]
  | .sub => [.rd, .rs1, .rs2]
  | .sll => [.rd, .rs1, .rs2]
  | .slt => [.rd, .rs1, .rs2]
  | .sltu => [.rd, .rs1, .rs2]
  | .xor => [.rd, .rs1, .rs2]
  | .srl => [.rd, .rs1, .rs2]
  | .sra => [.rd, .rs1, .rs2]
  | .or => [.rd, .rs1, .rs2]
  | .and => [.rd, .rs1, .rs2]
  | .mret => []

/-! ## Disassembly -/

/-- A number in signed decimal (R80, decision D28). -/
def signedDecimal (v : Word) : Text :=
  if v.toInt < 0 then '-' :: Nat.toDigits 10 v.toInt.natAbs else Nat.toDigits 10 v.toInt.natAbs

/-- A register token `x<N>` (R78). -/
def registerText (r : RegIdx) : Text := 'x' :: Nat.toDigits 10 r.toNat

/-- One printed operand (R78); a `p` token prints the offset (decision D28). -/
def operandText (f : InstrFields) : OperandToken → Text
  | .rd => registerText f.rd
  | .rs1 => registerText f.rs1
  | .rs2 => registerText f.rs2
  | .imm => signedDecimal f.imm
  | .pcRelative => signedDecimal f.imm
  | .indirect => signedDecimal f.imm ++ ['('] ++ registerText f.rs1 ++ [')']

/-- Operands separated by comma and space (R80). -/
def joinOperands : List Text → Text
  | [] => []
  | [t] => t
  | t :: ts => t ++ [',', ' '] ++ joinOperands ts

/-- `disassemble(record)` (R80); `invalid` prints the sentinel. -/
def disassemble (f : InstrFields) : Text :=
  match f.name with
  | none => ['-']
  | some m =>
    match operandTokens m with
    | [] => mnemonicText m
    | ts => mnemonicText m ++ [' '] ++ joinOperands (ts.map (operandText f))

/-- `disassemblePseudo(record)`: `nop`, then `li`, then `mv`, all of them `addi` (R81, decision D18). -/
def disassemblePseudo (f : InstrFields) : Option Text :=
  if f.name = some .addi then
    if f.rd = 0 ∧ f.rs1 = 0 ∧ f.imm = 0 then some ['n', 'o', 'p']
    else if f.rs1 = 0 then some (['l', 'i', ' '] ++ registerText f.rd ++ [',', ' '] ++ signedDecimal f.imm)
    else if f.imm = 0 then some (['m', 'v', ' '] ++ registerText f.rd ++ [',', ' '] ++ registerText f.rs1)
    else none
  else none

/-- `disassembleMeta(record, address)`: the target of `jal` and of the branches (R84). -/
def disassembleMeta (f : InstrFields) (address : Word) : Option Word :=
  match f.name with
  | none => none
  | some m => if (operandTokens m).getLast? = some .pcRelative then some (address + f.imm) else none

/-! ## Assembly -/

/-- White space: the code points with Unicode's property White_Space (R82 says "whitespace" alone; log 15). The first range holds
tab, line feed, vertical tab, form feed and carriage return. -/
def isWhiteSpace (c : Char) : Bool :=
  let n := c.toNat
  decide (n = 32 ∨ 9 ≤ n ∧ n ≤ 13 ∨ n = 0x85 ∨ n = 0xA0 ∨ n = 0x1680 ∨ 0x2000 ≤ n ∧ n ≤ 0x200A ∨ n = 0x2028 ∨ n = 0x2029 ∨
    n = 0x202F ∨ n = 0x205F ∨ n = 0x3000)

/-- Commas, parentheses and white space separate tokens (R82). -/
def isSeparator (c : Char) : Bool := isWhiteSpace c || c == ',' || c == '(' || c == ')'

/-- The tokens of a line; `cur` holds the token being read, reversed. -/
def tokensFrom (cur : Text) : Text → List Text
  | [] => if cur.isEmpty then [] else [cur.reverse]
  | c :: cs =>
    if isSeparator c then (if cur.isEmpty then tokensFrom [] cs else cur.reverse :: tokensFrom [] cs)
    else tokensFrom (c :: cur) cs

/-- A decimal digit. -/
def decDigit (c : Char) : Option Nat := if 48 ≤ c.toNat ∧ c.toNat ≤ 57 then some (c.toNat - 48) else none

/-- A hexadecimal digit, in either case. -/
def hexDigit (c : Char) : Option Nat :=
  if 97 ≤ c.toNat ∧ c.toNat ≤ 102 then some (c.toNat - 87)
  else if 65 ≤ c.toNat ∧ c.toNat ≤ 70 then some (c.toNat - 55)
  else decDigit c

/-- The value of a list of digits after those already read. -/
def digitsFrom (base : Nat) (digit : Char → Option Nat) (acc : Nat) : Text → Option Nat
  | [] => some acc
  | c :: cs =>
    match digit c with
    | none => none
    | some d => digitsFrom base digit (acc * base + d) cs

/-- An unsigned number: decimal, or hexadecimal after `0x` (R83). -/
def parseNat : Text → Option Nat
  | [] => none
  | '0' :: 'x' :: c :: cs => digitsFrom 16 hexDigit 0 (c :: cs)
  | c :: cs => digitsFrom 10 decDigit 0 (c :: cs)

/-- An integer, with a leading `-` accepted (R83, decision D27); unparseable is 0 (R82). -/
def parseImm : Text → Word
  | '-' :: cs => - BitVec.ofNat 32 ((parseNat cs).getD 0)
  | cs => BitVec.ofNat 32 ((parseNat cs).getD 0)

/-- A register token, its index clamped to `[0, NREGS - 1]`; unparseable is 0 (R82). -/
def parseReg (nregs : RegCount) : Text → RegIdx
  | 'x' :: c :: cs => BitVec.ofNat 5 (min ((digitsFrom 10 decDigit 0 (c :: cs)).getD 0) (nregs.count - 1))
  | _ => 0

/-- Fill the fields that the operand tokens name, in order; a missing operand leaves 0 (R82). -/
def fillOperands (nregs : RegCount) : List OperandToken → List Text → InstrFields → InstrFields
  | [], _, f => f
  | .rd :: ts, ops, f => fillOperands nregs ts ops.tail { f with rd := parseReg nregs (ops.headD []) }
  | .rs1 :: ts, ops, f => fillOperands nregs ts ops.tail { f with rs1 := parseReg nregs (ops.headD []) }
  | .rs2 :: ts, ops, f => fillOperands nregs ts ops.tail { f with rs2 := parseReg nregs (ops.headD []) }
  | .imm :: ts, ops, f => fillOperands nregs ts ops.tail { f with imm := parseImm (ops.headD []) }
  | .pcRelative :: ts, ops, f => fillOperands nregs ts ops.tail { f with imm := parseImm (ops.headD []) }
  | .indirect :: ts, ops, f =>
    fillOperands nregs ts (ops.drop 2)
      { f with imm := parseImm (ops.headD []), rs1 := parseReg nregs (ops.tail.headD []) }

/-- The names of pseudo-instructions, rejected on the input side (R82). -/
def pseudoNames : List Text := [['n', 'o', 'p'], ['l', 'i'], ['m', 'v']]

/-- The mnemonic a token names: lower case only (decision D27), no pseudo-instruction (R82). -/
def mnemonicNamed (t : Text) : Option Mnemonic :=
  if pseudoNames.contains t then none else mnemonics.find? fun m => mnemonicText m == t

/-- The record of a line that is rejected (R82). -/
def InstrFields.rejected : InstrFields := { name := none, rd := 0, rs1 := 0, rs2 := 0, imm := 0 }

/-- `assemble(text)`: never fails (R82). -/
def assemble (nregs : RegCount) (line : Text) : InstrFields :=
  match tokensFrom [] line with
  | [] => InstrFields.rejected
  | t :: ops =>
    match mnemonicNamed t with
    | none => InstrFields.rejected
    | some m => fillOperands nregs (operandTokens m) ops { InstrFields.rejected with name := some m }

end Sys2Proof.Machine
end

