-- ==== Sys2Proof/Machine/Driver.lean ====
section
/-! DEFINITION. The driver's interface (70_reset_and_hazards.md): what the outside does to the block. -/

namespace Sys2Proof.Machine

/-- `reset()` at any stage (R167). It touches neither the bus nor the devices (R168); the latches the spec gives "any value"
take the values of log 1. -/
def State.resetBlock (s : State) : State :=
  { s with
    regs := Vector.replicate 32 0
    pc := 0
    mepc := 0
    irqState := false
    stage := .fetch
    fetchData := 0
    fetchError := false
    instr := InstrRecord.reset
    dp := Datapath.allNone
    x1v := 0
    x2v := 0
    aluResult := 0
    branchTaken := false
    loadStoreError := false }

/-- `bus.reset()` (R46, R168): every device is reset, `bus.error` keeps its value (R47). -/
def State.busReset (s : State) : State := { s with devices := s.devices.map Device.reset }

/-- A full system reset, `reset(); bus.reset()` (R168). -/
def State.systemReset (s : State) : State := s.resetBlock.busReset

/-- The driver's actions that change the state (R169). -/
inductive DriverAction where
  | step
  | reset
  | busReset
  | setX (i : RegIdx) (v : Word)
  | setPc (v : Word)
  | busWrite (addr : Word) (size : AccessSize) (v : Word)
  deriving DecidableEq, Repr

/-- Admitted only at an instruction boundary (R169, D16). -/
def atBoundary (s t : State) : Outcome := if s.stage = .fetch then .next t else .refused .driverMidInstruction

/-- What a driver action does (R169). `setX` of an index not below `NREGS` is refused as an instruction's use of it is (R16, log 12). -/
def driver (a : DriverAction) (s : State) : Outcome :=
  match a with
  | .step => stageStep s
  | .reset => .next s.resetBlock
  | .busReset => .next s.busReset
  | .setX i v => guardRegs [i] s (atBoundary s (s.writeReg i v))
  | .setPc v => atBoundary s (s.setPc v)
  | .busWrite addr size v => atBoundary s (s.busWrite addr size v)

/-- Program loading: the image's bytes in order, one `bus.write(addr, 1, byte)` each (R170); an address is taken mod 2^32. -/
def loadProgram (s : State) (image : List Host.Cell) : State :=
  image.foldl (fun t c => t.busWrite (BitVec.ofNat 32 c.1) .byte (c.2.setWidth 32)) s

/-- The bytes of an instruction word at an address (R170). -/
def wordCells (a : Nat) (w : Word) : List Host.Cell :=
  [(a, w.extractLsb' 0 8), (a + 1, w.extractLsb' 8 8), (a + 2, w.extractLsb' 16 8), (a + 3, w.extractLsb' 24 8)]

/-- The image of a listing of words with their addresses (R170). -/
def imageOf (listing : List (Nat × Word)) : List Host.Cell := listing.flatMap fun c => wordCells c.1 c.2

end Sys2Proof.Machine
end

