-- ==== Sys2Proof/Safety.lean ====
section
/-! DEFINITION. What claims are stated in: the invariant of the machine's states, runs and their end (R171), and the bus faults a
claim may rule out (93_implementation_defined.md section 1). -/

namespace Sys2Proof.Machine

/-! ## The invariant -/

/-- Bits 1:0 of a pc value are 0 (R19, R24). -/
def aligned (v : Word) : Bool := v.extractLsb' 0 2 == 0

/-- A `Memory` device's bytes, now and after its reset, are in canonical form; other devices hold no bytes. -/
def Device.wf (d : Device) : Bool :=
  match d.kind with
  | .memory cells initial => Memory.wf cells && Memory.wf initial
  | .external _ _ _ => true

/-- `pc` and `mepc` are aligned (R19, R24), every memory is canonical. -/
def State.wf (s : State) : Bool := aligned s.pc && aligned s.mepc && s.devices.all Device.wf

/-- The fixed part of the configuration: `NREGS` and each device's range (R5, R37). No step changes it. -/
def State.shape (s : State) : RegCount × List (Word × Word) := (s.nregs, s.devices.map fun d => (d.first, d.last))

/-! ## What claims about an instruction say -/

/-- The register fields an instruction uses: its source operands and its destination (R16, log 12). -/
def usedRegsOf : Instr → List RegIdx
  | .lui rd _ | .auipc rd _ | .jal rd _ => [rd]
  | .jalr rd rs1 _ => [rs1, rd]
  | .beq rs1 rs2 _ | .bne rs1 rs2 _ | .blt rs1 rs2 _ | .bge rs1 rs2 _ | .bltu rs1 rs2 _ | .bgeu rs1 rs2 _ => [rs1, rs2]
  | .lb rd rs1 _ | .lh rd rs1 _ | .lw rd rs1 _ | .lbu rd rs1 _ | .lhu rd rs1 _ => [rs1, rd]
  | .sb rs1 rs2 _ | .sh rs1 rs2 _ | .sw rs1 rs2 _ => [rs1, rs2]
  | .addi rd rs1 _ | .slti rd rs1 _ | .sltiu rd rs1 _ | .xori rd rs1 _ | .ori rd rs1 _ | .andi rd rs1 _ => [rs1, rd]
  | .slli rd rs1 _ | .srli rd rs1 _ | .srai rd rs1 _ => [rs1, rd]
  | .add rd rs1 rs2 | .sub rd rs1 rs2 | .sll rd rs1 rs2 | .slt rd rs1 rs2 | .sltu rd rs1 rs2 => [rs1, rs2, rd]
  | .xor rd rs1 rs2 | .srl rd rs1 rs2 | .sra rd rs1 rs2 | .or rd rs1 rs2 | .and rd rs1 rs2 => [rs1, rs2, rd]
  | .mret => []

/-- The one register an instruction may write (R17); branches, stores and `mret` write none. -/
def destOf : Instr → Option RegIdx
  | .lui rd _ | .auipc rd _ | .jal rd _ | .jalr rd _ _ => some rd
  | .beq _ _ _ | .bne _ _ _ | .blt _ _ _ | .bge _ _ _ | .bltu _ _ _ | .bgeu _ _ _ => none
  | .lb rd _ _ | .lh rd _ _ | .lw rd _ _ | .lbu rd _ _ | .lhu rd _ _ => some rd
  | .sb _ _ _ | .sh _ _ _ | .sw _ _ _ => none
  | .addi rd _ _ | .slti rd _ _ | .sltiu rd _ _ | .xori rd _ _ | .ori rd _ _ | .andi rd _ _ => some rd
  | .slli rd _ _ | .srli rd _ _ | .srai rd _ _ => some rd
  | .add rd _ _ | .sub rd _ _ | .sll rd _ _ | .slt rd _ _ | .sltu rd _ _ => some rd
  | .xor rd _ _ | .srl rd _ _ | .sra rd _ _ | .or rd _ _ | .and rd _ _ => some rd
  | .mret => none

/-- The size of a store and the registers and immediate that give its address (R136 to R138); none for any other instruction. -/
def storeOf : Instr → Option (AccessSize × RegIdx × RegIdx × Word)
  | .sb rs1 rs2 imm => some (.byte, rs1, rs2, imm)
  | .sh rs1 rs2 imm => some (.half, rs1, rs2, imm)
  | .sw rs1 rs2 imm => some (.word, rs1, rs2, imm)
  | .lui _ _ | .auipc _ _ | .jal _ _ | .jalr _ _ _ => none
  | .beq _ _ _ | .bne _ _ _ | .blt _ _ _ | .bge _ _ _ | .bltu _ _ _ | .bgeu _ _ _ => none
  | .lb _ _ _ | .lh _ _ _ | .lw _ _ _ | .lbu _ _ _ | .lhu _ _ _ => none
  | .addi _ _ _ | .slti _ _ _ | .sltiu _ _ _ | .xori _ _ _ | .ori _ _ _ | .andi _ _ _ => none
  | .slli _ _ _ | .srli _ _ _ | .srai _ _ _ => none
  | .add _ _ _ | .sub _ _ _ | .sll _ _ _ | .slt _ _ _ | .sltu _ _ _ => none
  | .xor _ _ _ | .srl _ _ _ | .sra _ _ _ | .or _ _ _ | .and _ _ _ => none
  | .mret => none

/-- The size of a load, whether it sign-extends, its destination, and what gives its address (R131 to R135). -/
def loadOf : Instr → Option (AccessSize × Bool × RegIdx × RegIdx × Word)
  | .lb rd rs1 imm => some (.byte, true, rd, rs1, imm)
  | .lh rd rs1 imm => some (.half, true, rd, rs1, imm)
  | .lw rd rs1 imm => some (.word, true, rd, rs1, imm)
  | .lbu rd rs1 imm => some (.byte, false, rd, rs1, imm)
  | .lhu rd rs1 imm => some (.half, false, rd, rs1, imm)
  | .lui _ _ | .auipc _ _ | .jal _ _ | .jalr _ _ _ => none
  | .beq _ _ _ | .bne _ _ _ | .blt _ _ _ | .bge _ _ _ | .bltu _ _ _ | .bgeu _ _ _ => none
  | .sb _ _ _ | .sh _ _ _ | .sw _ _ _ => none
  | .addi _ _ _ | .slti _ _ _ | .sltiu _ _ _ | .xori _ _ _ | .ori _ _ _ | .andi _ _ _ => none
  | .slli _ _ _ | .srli _ _ _ | .srai _ _ _ => none
  | .add _ _ _ | .sub _ _ _ | .sll _ _ _ | .slt _ _ _ | .sltu _ _ _ => none
  | .xor _ _ _ | .srl _ _ _ | .sra _ _ _ | .or _ _ _ | .and _ _ _ => none
  | .mret => none

/-- The stages an instruction visits, `none` for an `invalid` word (the table of R100). -/
def stagesVisited : Option Instr → List Stage
  | none => [.fetch, .decode, .updatePC]
  | some .mret => [.fetch, .decode, .updatePC]
  | some i =>
    if (loadOf i).isSome || (storeOf i).isSome then [.fetch, .decode, .compute, .loadStoreWriteBack, .updatePC]
    else
      match destOf i with
      | none => [.fetch, .decode, .compute, .compare, .updatePC]
      | some rd =>
        if rd = 0 then [.fetch, .decode, .compute, .updatePC]
        else [.fetch, .decode, .compute, .loadStoreWriteBack, .updatePC]

/-- The device a read of this size at this address goes to: the first that accepts it (R43). -/
def State.acceptor (s : State) (addr : Word) (size : AccessSize) : Option Device :=
  s.devices.find? fun d => d.accepts addr size

/-- The end of an instruction that would go on at `next`: the handler is entered if the line is asserted and no handler runs
(R150, R151), else the machine goes on at `next` with its low two bits cleared (R96); `s` is the state before, `t` after. -/
def Advances (s t : State) (next : Word) : Prop :=
  if s.irqLine && !s.irqState then t.mepc = alignPc next ∧ t.pc = 4 ∧ t.irqState = true
  else t.pc = alignPc next ∧ t.mepc = s.mepc ∧ t.irqState = s.irqState

/-- Every register but the given one is unchanged (R17). -/
def OtherRegsKept (s t : State) (rd : RegIdx) : Prop := ∀ r : RegIdx, r ≠ rd → t.readReg r = s.readReg r

/-- Every register is unchanged. -/
def RegsKept (s t : State) : Prop := ∀ r : RegIdx, t.readReg r = s.readReg r

/-- Every byte of every `Memory` device reads as before. -/
def MemoryKept (s t : State) : Prop := ∀ k a : Nat, t.memByte k a = s.memByte k a

/-- The latches of Fetch and Decode and the number of registers are unchanged; the next stage is Fetch. -/
def FetchLatchesKept (s t : State) : Prop :=
  t.fetchData = s.fetchData ∧ t.fetchError = s.fetchError ∧ t.instr = s.instr ∧ t.dp = s.dp ∧ t.nregs = s.nregs ∧
  t.stage = .fetch

/-- What an instruction that makes no bus access leaves alone, and where it ends: every byte of memory, the record of every
device's accesses, the bus's error bit, the latches of Fetch and Decode, `loadStoreError` (R32), the configuration; the next
stage is Fetch. The devices go on to their next interrupt sample, which reads nothing and writes nothing (log 6). -/
def QuietFrame (s t : State) : Prop :=
  MemoryKept s t ∧ t.devices = s.devices.map Device.nextSample ∧ t.busError = s.busError ∧
  t.loadStoreError = s.loadStoreError ∧ FetchLatchesKept s t

/-- The instruction completes, writes the value to `rd` (nothing if `rd` is x0, R15), goes on at `next`, and leaves everything
else alone but the latches that Compute writes. -/
def CompletesWriting (i : Instr) (s : State) (rd : RegIdx) (v next : Word) : Prop :=
  ∃ t, exec i s = .next t ∧ t.readReg rd = (if rd = 0 then 0 else v) ∧ OtherRegsKept s t rd ∧ Advances s t next ∧
    QuietFrame s t

/-- The instruction completes, writes no register, goes on at `next`, and leaves everything else alone but the latches. -/
def CompletesQuietly (i : Instr) (s : State) (next : Word) : Prop :=
  ∃ t, exec i s = .next t ∧ RegsKept s t ∧ Advances s t next ∧ QuietFrame s t

/-- The load completes, writes the value to `rd` (nothing if `rd` is x0), records the given error, goes on at `pc + 4`, and
leaves every other register, every byte of memory, every device that is no `Memory` and the latches of Fetch and Decode alone. -/
def LoadCompletes (i : Instr) (s : State) (rd : RegIdx) (v : Word) (error : Bool) : Prop :=
  ∃ t, exec i s = .next t ∧ t.readReg rd = (if rd = 0 then 0 else v) ∧ OtherRegsKept s t rd ∧ Advances s t (s.pc + 4) ∧
    MemoryKept s t ∧ t.devices = s.devices.map Device.nextSample ∧ t.busError = error ∧ t.loadStoreError = error ∧
    FetchLatchesKept s t

/-- The state with no interrupt requested at any coming sample. -/
def State.quiet (s : State) : State :=
  { s with
    devices := s.devices.map fun d =>
      match d.kind with
      | .memory _ _ => d
      | .external _ answers accesses => { d with kind := .external [] answers accesses } }

/-- A Boolean as a result value (R11). -/
def flagWord (p : Prop) [Decidable p] : Word := if p then 1 else 0

/-! ## Runs -/

/-- A state from which a step is not refused. -/
def State.steppable (s : State) : Bool :=
  match step s with
  | .next _ => true
  | .fault _ => false
  | .refused _ => false

/-- How a run ended (R171). -/
inductive RunEnd where
  /-- (a) at an instruction boundary with `pc = END_PC`. -/
  | atEnd (s : State)
  /-- (b) the fuel of `step()` calls is exhausted: cut short, not ended; the state may be one in the middle of an instruction
  (log 18). -/
  | cutShort (s : State)
  /-- A refusal (R16) stopped it. -/
  | stopped (r : Refusal)
  deriving DecidableEq, Repr

/-- A run to the designated address `END_PC` with a bound on the spec's `step()` calls (R171, D10). It says nothing of what
the block does after the end. DESIGN CHOICE (log 18): R171 has a run end at a boundary and counts the fuel in `step()` calls;
fuel that runs out in the middle of an instruction cuts the run short there, in the state of that stage. -/
def runUntil (endPc : Word) : Nat → State → RunEnd
  | 0, s => if s.stage = .fetch ∧ s.pc = endPc then .atEnd s else .cutShort s
  | n + 1, s =>
    if s.stage = .fetch ∧ s.pc = endPc then .atEnd s
    else
      match stageStep s with
      | .next t => runUntil endPc n t
      | .fault f => nomatch f
      | .refused r => .stopped r

/-- The state is one that a number of steps from another reaches. -/
inductive Reaches : State → State → Prop where
  | refl (s : State) : Reaches s s
  | tail {s t u : State} : Reaches s t → step t = .next u → Reaches s u

/-- No bus fault is recorded: an observation a claim may make; the block itself never reads it (R32, 93 section 1). -/
def State.noBusFault (s : State) : Bool := !s.fetchError && !s.loadStoreError

end Sys2Proof.Machine
end

