-- ==== Sys2Proof/Certificates/Slice0/Obligations.lean ====
section
/-! DEFINITION. The statements for the provers. Each formalises rules of spec/ (see OBLIGATIONS.json); their vocabulary
(`CompletesWriting`, `Advances`, `QuietFrame`, `LoadCompletes` and the rest) is defined in Sys2Proof/Safety.lean. -/

open Sys2Proof Sys2Proof.Machine

/-! ## Results and frames of the integer instructions (41_integer_computational.md) -/

/-- R102, R103: `lui` gives the immediate, `auipc` its own address plus the immediate. -/
def Obligations.UpperImmediateResults : Prop :=
  ∀ (rd : RegIdx) (imm : Word) (s : State), s.hasReg rd = true →
    CompletesWriting (.lui rd imm) s rd imm (s.pc + 4) ∧
    CompletesWriting (.auipc rd imm) s rd (s.pc + imm) (s.pc + 4)

/-- R104, R107, R108, R109: `addi`, `xori`, `ori`, `andi`. -/
def Obligations.ImmediateArithmeticLogicResults : Prop :=
  ∀ (rd rs1 : RegIdx) (imm : Word) (s : State), s.hasReg rd = true → s.hasReg rs1 = true →
    CompletesWriting (.addi rd rs1 imm) s rd (s.readReg rs1 + imm) (s.pc + 4) ∧
    CompletesWriting (.xori rd rs1 imm) s rd (s.readReg rs1 ^^^ imm) (s.pc + 4) ∧
    CompletesWriting (.ori rd rs1 imm) s rd (s.readReg rs1 ||| imm) (s.pc + 4) ∧
    CompletesWriting (.andi rd rs1 imm) s rd (s.readReg rs1 &&& imm) (s.pc + 4)

/-- R105, R106: `slti` compares the signed readings, `sltiu` the unsigned ones; the result is 0 or 1. -/
def Obligations.ImmediateComparisonResults : Prop :=
  ∀ (rd rs1 : RegIdx) (imm : Word) (s : State), s.hasReg rd = true → s.hasReg rs1 = true →
    CompletesWriting (.slti rd rs1 imm) s rd (flagWord ((s.readReg rs1).toInt < imm.toInt)) (s.pc + 4) ∧
    CompletesWriting (.sltiu rd rs1 imm) s rd (flagWord ((s.readReg rs1).toNat < imm.toNat)) (s.pc + 4)

/-- R110, R111, R112: `slli` multiplies by a power of two mod 2^32, `srli` divides the unsigned reading, `srai` the signed
reading, rounding towards minus infinity; the amount is the immediate's low 5 bits. -/
def Obligations.ImmediateShiftResults : Prop :=
  ∀ (rd rs1 : RegIdx) (imm : Word) (s : State), s.hasReg rd = true → s.hasReg rs1 = true →
    CompletesWriting (.slli rd rs1 imm) s rd (BitVec.ofNat 32 ((s.readReg rs1).toNat * 2 ^ (imm.toNat % 32))) (s.pc + 4) ∧
    CompletesWriting (.srli rd rs1 imm) s rd (BitVec.ofNat 32 ((s.readReg rs1).toNat / 2 ^ (imm.toNat % 32))) (s.pc + 4) ∧
    CompletesWriting (.srai rd rs1 imm) s rd (BitVec.ofInt 32 ((s.readReg rs1).toInt / 2 ^ (imm.toNat % 32))) (s.pc + 4)

/-- R113, R114: `add` and `sub` mod 2^32. -/
def Obligations.RegisterArithmeticResults : Prop :=
  ∀ (rd rs1 rs2 : RegIdx) (s : State), s.hasReg rd = true → s.hasReg rs1 = true → s.hasReg rs2 = true →
    CompletesWriting (.add rd rs1 rs2) s rd (s.readReg rs1 + s.readReg rs2) (s.pc + 4) ∧
    CompletesWriting (.sub rd rs1 rs2) s rd (s.readReg rs1 - s.readReg rs2) (s.pc + 4)

/-- R118, R121, R122: `xor`, `or`, `and`. -/
def Obligations.RegisterLogicResults : Prop :=
  ∀ (rd rs1 rs2 : RegIdx) (s : State), s.hasReg rd = true → s.hasReg rs1 = true → s.hasReg rs2 = true →
    CompletesWriting (.xor rd rs1 rs2) s rd (s.readReg rs1 ^^^ s.readReg rs2) (s.pc + 4) ∧
    CompletesWriting (.or rd rs1 rs2) s rd (s.readReg rs1 ||| s.readReg rs2) (s.pc + 4) ∧
    CompletesWriting (.and rd rs1 rs2) s rd (s.readReg rs1 &&& s.readReg rs2) (s.pc + 4)

/-- R116, R117: `slt` compares the signed readings, `sltu` the unsigned ones. -/
def Obligations.RegisterComparisonResults : Prop :=
  ∀ (rd rs1 rs2 : RegIdx) (s : State), s.hasReg rd = true → s.hasReg rs1 = true → s.hasReg rs2 = true →
    CompletesWriting (.slt rd rs1 rs2) s rd (flagWord ((s.readReg rs1).toInt < (s.readReg rs2).toInt)) (s.pc + 4) ∧
    CompletesWriting (.sltu rd rs1 rs2) s rd (flagWord ((s.readReg rs1).toNat < (s.readReg rs2).toNat)) (s.pc + 4)

/-- R115, R119, R120: `sll`, `srl`, `sra` by the low 5 bits of the second operand. -/
def Obligations.RegisterShiftResults : Prop :=
  ∀ (rd rs1 rs2 : RegIdx) (s : State), s.hasReg rd = true → s.hasReg rs1 = true → s.hasReg rs2 = true →
    CompletesWriting (.sll rd rs1 rs2) s rd
      (BitVec.ofNat 32 ((s.readReg rs1).toNat * 2 ^ ((s.readReg rs2).toNat % 32))) (s.pc + 4) ∧
    CompletesWriting (.srl rd rs1 rs2) s rd
      (BitVec.ofNat 32 ((s.readReg rs1).toNat / 2 ^ ((s.readReg rs2).toNat % 32))) (s.pc + 4) ∧
    CompletesWriting (.sra rd rs1 rs2) s rd
      (BitVec.ofInt 32 ((s.readReg rs1).toInt / 2 ^ ((s.readReg rs2).toNat % 32))) (s.pc + 4)

/-! ## Control transfer (42_control_transfer.md) -/

/-- R123: `jal` links `pc + 4` and goes on at `pc + imm` with its low two bits cleared (`Advances`). -/
def Obligations.JalLinksAndJumps : Prop :=
  ∀ (rd : RegIdx) (imm : Word) (s : State), s.hasReg rd = true →
    CompletesWriting (.jal rd imm) s rd (s.pc + 4) (s.pc + imm)

/-- R124: `jalr` links `pc + 4` and goes on at the OLD `x[rs1]` plus the immediate with its low two bits cleared, also when
`rd = rs1`. -/
def Obligations.JalrLinksAndJumps : Prop :=
  ∀ (rd rs1 : RegIdx) (imm : Word) (s : State), s.hasReg rd = true → s.hasReg rs1 = true →
    CompletesWriting (.jalr rd rs1 imm) s rd (s.pc + 4) (s.readReg rs1 + imm)

/-- R125, R126: `beq`, `bne`. -/
def Obligations.EqualityBranches : Prop :=
  ∀ (rs1 rs2 : RegIdx) (imm : Word) (s : State), s.hasReg rs1 = true → s.hasReg rs2 = true →
    CompletesQuietly (.beq rs1 rs2 imm) s (if s.readReg rs1 = s.readReg rs2 then s.pc + imm else s.pc + 4) ∧
    CompletesQuietly (.bne rs1 rs2 imm) s (if s.readReg rs1 = s.readReg rs2 then s.pc + 4 else s.pc + imm)

/-- R127, R128: `blt`, `bge` on the signed readings. -/
def Obligations.SignedBranches : Prop :=
  ∀ (rs1 rs2 : RegIdx) (imm : Word) (s : State), s.hasReg rs1 = true → s.hasReg rs2 = true →
    CompletesQuietly (.blt rs1 rs2 imm) s
      (if (s.readReg rs1).toInt < (s.readReg rs2).toInt then s.pc + imm else s.pc + 4) ∧
    CompletesQuietly (.bge rs1 rs2 imm) s
      (if (s.readReg rs2).toInt ≤ (s.readReg rs1).toInt then s.pc + imm else s.pc + 4)

/-- R129, R130: `bltu`, `bgeu` on the unsigned readings. -/
def Obligations.UnsignedBranches : Prop :=
  ∀ (rs1 rs2 : RegIdx) (imm : Word) (s : State), s.hasReg rs1 = true → s.hasReg rs2 = true →
    CompletesQuietly (.bltu rs1 rs2 imm) s
      (if (s.readReg rs1).toNat < (s.readReg rs2).toNat then s.pc + imm else s.pc + 4) ∧
    CompletesQuietly (.bgeu rs1 rs2 imm) s
      (if (s.readReg rs2).toNat ≤ (s.readReg rs1).toNat then s.pc + imm else s.pc + 4)

/-! ## Loads and stores (43_load_store.md) -/

/-- R131, R134 on a `Memory` device: `lb` sign-extends the byte at EA, `lbu` zero-extends it. -/
def Obligations.ByteLoadsFromMemory : Prop :=
  ∀ (rd rs1 : RegIdx) (imm : Word) (s : State) (d : Device) (cells initial : Memory),
    s.hasReg rd = true → s.hasReg rs1 = true →
    s.acceptor (effectiveAddress s rs1 imm) .byte = some d → d.kind = .memory cells initial →
    let off := d.offset (effectiveAddress s rs1 imm)
    LoadCompletes (.lb rd rs1 imm) s rd ((cells.read off).signExtend 32) false ∧
    LoadCompletes (.lbu rd rs1 imm) s rd ((cells.read off).setWidth 32) false

/-- R132, R135 on a `Memory` device: the byte at EA is the low one (decision D1); any alignment (decision D2). -/
def Obligations.HalfLoadsFromMemory : Prop :=
  ∀ (rd rs1 : RegIdx) (imm : Word) (s : State) (d : Device) (cells initial : Memory),
    s.hasReg rd = true → s.hasReg rs1 = true →
    s.acceptor (effectiveAddress s rs1 imm) .half = some d → d.kind = .memory cells initial →
    let off := d.offset (effectiveAddress s rs1 imm)
    LoadCompletes (.lh rd rs1 imm) s rd ((cells.read (off + 1) ++ cells.read off).signExtend 32) false ∧
    LoadCompletes (.lhu rd rs1 imm) s rd ((cells.read (off + 1) ++ cells.read off).setWidth 32) false

/-- R133 on a `Memory` device. -/
def Obligations.WordLoadFromMemory : Prop :=
  ∀ (rd rs1 : RegIdx) (imm : Word) (s : State) (d : Device) (cells initial : Memory),
    s.hasReg rd = true → s.hasReg rs1 = true →
    s.acceptor (effectiveAddress s rs1 imm) .word = some d → d.kind = .memory cells initial →
    let off := d.offset (effectiveAddress s rs1 imm)
    LoadCompletes (.lw rd rs1 imm) s rd
      (cells.read (off + 3) ++ cells.read (off + 2) ++ cells.read (off + 1) ++ cells.read off) false

/-- A load that no device accepts writes 0, records the error and goes on (43_load_store.md, bus faults; R98). -/
def Obligations.LoadBusFaultReadsZero : Prop :=
  ∀ (i : Instr) (size : AccessSize) (signed : Bool) (rd rs1 : RegIdx) (imm : Word) (s : State),
    loadOf i = some (size, signed, rd, rs1, imm) → s.hasReg rd = true → s.hasReg rs1 = true →
    s.acceptor (effectiveAddress s rs1 imm) size = none →
    LoadCompletes i s rd 0 true

/-- A load from a device that is no `Memory`, also one to x0, makes exactly one `localRead` of its size at its offset, on the
first accepting device and on no other, and writes what it answers, extended (R52, R38). The answer is the next the device
gives; with none given it is some value the model leaves free (log 7, the model's form of an unknown device). -/
def Obligations.LoadFromDeviceReadsOnce : Prop :=
  ∀ (i : Instr) (size : AccessSize) (signed : Bool) (rd rs1 : RegIdx) (imm : Word) (s : State) (d : Device)
    (irqs : List Bool) (answers : List Word) (accesses : List LocalAccess),
    loadOf i = some (size, signed, rd, rs1, imm) → s.hasReg rd = true → s.hasReg rs1 = true →
    s.acceptor (effectiveAddress s rs1 imm) size = some d → d.kind = .external irqs answers accesses →
    ∃ (k : Nat) (raw : Word) (t : State),
      s.devices[k]? = some d ∧ (∀ v rest, answers = v :: rest → raw = v) ∧
      exec i s = .next t ∧ t.readReg rd = (if rd = 0 then 0 else extend size signed raw) ∧ OtherRegsKept s t rd ∧
      t.devices[k]? =
        some ⟨d.first, d.last, .external irqs.tail answers.tail
          (.read (d.offset (effectiveAddress s rs1 imm)) size :: accesses)⟩ ∧
      (∀ j, j ≠ k → t.devices[j]? = (s.devices[j]?).map Device.nextSample) ∧
      t.busError = false ∧ t.loadStoreError = false ∧ Advances s t (s.pc + 4) ∧ FetchLatchesKept s t

/-- R136, R137, R138 and R44: a store puts the low bytes of `x[rs2]`, the low one first, at EA in EVERY `Memory` device that
accepts the access, changes no other byte of any device (none at all when no device accepts it), changes no register, and
records whether no device accepted. -/
def Obligations.StoresWriteTheirBytesOnly : Prop :=
  ∀ (i : Instr) (size : AccessSize) (rs1 rs2 : RegIdx) (imm : Word) (s : State),
    storeOf i = some (size, rs1, rs2, imm) → s.hasReg rs1 = true → s.hasReg rs2 = true →
    let ea := effectiveAddress s rs1 imm
    ∃ t, exec i s = .next t ∧ RegsKept s t ∧ Advances s t (s.pc + 4) ∧ FetchLatchesKept s t ∧
      t.busError = !(s.devices.any fun d => d.accepts ea size) ∧ t.loadStoreError = t.busError ∧
      (∀ (k : Nat) (d : Device) (cells initial : Memory), s.devices[k]? = some d → d.accepts ea size = true →
        d.kind = .memory cells initial → ∀ j, j < size.bytes →
        t.memByte k (ea.toNat + j) = some ((s.readReg rs2).extractLsb' (8 * j) 8)) ∧
      (∀ k a : Nat,
        (a < ea.toNat ∨ ea.toNat + size.bytes ≤ a ∨ ∀ d, s.devices[k]? = some d → d.accepts ea size = false) →
        t.memByte k a = s.memByte k a)

/-- R39: a store to a device that is no `Memory` makes exactly one `localWrite` on each accepting one, with the full 32-bit
`x[rs2]`, and none on any other device. -/
def Obligations.StoreGivesDeviceFullValueOnce : Prop :=
  ∀ (i : Instr) (size : AccessSize) (rs1 rs2 : RegIdx) (imm : Word) (s : State),
    storeOf i = some (size, rs1, rs2, imm) → s.hasReg rs1 = true → s.hasReg rs2 = true →
    let ea := effectiveAddress s rs1 imm
    ∃ t, exec i s = .next t ∧
      ∀ (k : Nat) (d : Device) (irqs : List Bool) (answers : List Word) (accesses : List LocalAccess),
        s.devices[k]? = some d → d.kind = .external irqs answers accesses →
        t.devices[k]? = some ⟨d.first, d.last, .external irqs.tail answers
          (if d.accepts ea size then .write (d.offset ea) size (s.readReg rs2) :: accesses else accesses)⟩

/-- R42, R50: a read of the size and at the address just written returns the low bytes of the value, extended, when the first
accepting device is a `Memory`. -/
def Obligations.ReadAfterWriteReturnsValue : Prop :=
  ∀ (s : State) (addr v : Word) (size : AccessSize) (signed : Bool) (d : Device) (cells initial : Memory),
    s.acceptor addr size = some d → d.kind = .memory cells initial →
    ((s.busWrite addr size v).busRead addr size signed).1 = extend size signed v

/-- R56, R174: a word stored over the next instruction is the word the very next fetch reads. -/
def Obligations.StoreIsSeenByNextFetch : Prop :=
  ∀ (rs1 rs2 : RegIdx) (imm : Word) (s t : State) (d : Device) (cells initial : Memory),
    s.hasReg rs1 = true → s.hasReg rs2 = true → aligned s.pc = true → s.acceptInterrupt = false →
    effectiveAddress s rs1 imm = s.pc + 4 →
    s.acceptor (s.pc + 4) .word = some d → d.kind = .memory cells initial →
    exec (.sw rs1 rs2 imm) s = .next t →
    t.pc = s.pc + 4 ∧ (fetchStage t).fetchData = s.readReg rs2 ∧ (fetchStage t).fetchError = false

/-! ## mret, invalid words, interrupts (44_system.md, 60_exceptions.md) -/

/-- R139, R156, R159: when no interrupt is accepted `mret` goes on at `mepc` and clears the latch; it changes nothing else. -/
def Obligations.MretReturns : Prop :=
  ∀ s : State, s.acceptInterrupt = false →
    ∃ t, exec .mret s = .next t ∧ t.pc = alignPc s.mepc ∧ (aligned s.mepc = true → t.pc = s.mepc) ∧
      t.irqState = false ∧ t.mepc = s.mepc ∧ RegsKept s t ∧ QuietFrame s t

/-- R153: when an interrupt is accepted at an `mret`, it is taken instead and the `mret` has no other effect. -/
def Obligations.InterruptBeatsMret : Prop :=
  ∀ s : State, s.acceptInterrupt = true →
    ∃ t, exec .mret s = .next t ∧ t.pc = 4 ∧ t.mepc = alignPc (s.pc + 4) ∧ t.irqState = true ∧ RegsKept s t ∧
      QuietFrame s t

/-- R140: a word that matches no row is a no-op, from whatever device it was fetched: the pc advances (or an interrupt is taken); no
register and no byte of memory changes, and no device is accessed but by the fetch. -/
def Obligations.InvalidWordIsNoOp : Prop :=
  ∀ s : State, s.stage = .fetch → mnemonicOf (s.busRead s.pc .word false).1 = none →
    ∃ t, step s = .next t ∧ RegsKept s t ∧ Advances s t (s.pc + 4) ∧ MemoryKept s t ∧
      t.devices = (s.busRead s.pc .word false).2.devices.map Device.nextSample ∧ t.loadStoreError = s.loadStoreError ∧
      t.stage = .fetch

/-- R88, R98, R140: a fetch from an unmapped address reads 0 and records the error; the machine runs a no-op. -/
def Obligations.UnmappedFetchIsNoOp : Prop :=
  ∀ s : State, s.stage = .fetch → s.acceptor s.pc .word = none →
    ∃ t, step s = .next t ∧ t.fetchData = 0 ∧ t.fetchError = true ∧ t.instr.name = none ∧ RegsKept s t ∧
      Advances s t (s.pc + 4) ∧ MemoryKept s t ∧ t.stage = .fetch

/-- R45: the line is the OR of every device's request; with no device requesting, or none at all, it is false. -/
def Obligations.LineIsOrOfRequests : Prop :=
  ∀ s : State, (s.irqLine = true ↔ ∃ d ∈ s.devices, d.irq = true) ∧ (s.devices = [] → s.irqLine = false)

/-- R146, R150, R151: at whatever instruction boundary the line is asserted and no handler runs, the instruction at `pc` is
completed and the handler at 4 is entered, whatever that instruction is. -/
def Obligations.AssertedLineEntersHandler : Prop :=
  ∀ s t : State, s.acceptInterrupt = true → step s = .next t →
    t.pc = 4 ∧ t.irqState = true ∧ aligned t.mepc = true

/-- R24: no step writes `mepc` but one that enters the handler. -/
def Obligations.MepcIsWrittenOnlyByEntry : Prop :=
  ∀ s t : State, step s = .next t → t.mepc ≠ s.mepc →
    s.irqLine = true ∧ s.irqState = false ∧ t.pc = 4 ∧ t.irqState = true

/-- R27, R157: in a handler no interrupt is taken: `mepc` stays, and the latch stays set unless the instruction is `mret`, which
goes on at `mepc`. -/
def Obligations.HandlerIsNotInterrupted : Prop :=
  ∀ s t : State, s.stage = .fetch → s.irqState = true → step s = .next t →
    t.mepc = s.mepc ∧
    (decode (s.busRead s.pc .word false).1 ≠ .ok .mret → t.irqState = true) ∧
    (decode (s.busRead s.pc .word false).1 = .ok .mret → t.irqState = false ∧ t.pc = alignPc s.mepc)

/-- R152: an interrupt is precise. The step that takes it does to the registers, the bytes of memory and the error latches what
the same step does with no interrupt requested, and saves in `mepc` the address at which that one goes on (for `mret`, which
then has no effect, the address after it, R153). -/
def Obligations.InterruptsArePrecise : Prop :=
  ∀ s t : State, s.stage = .fetch → s.acceptInterrupt = true → step s = .next t →
    ∃ u, step s.quiet = .next u ∧ t.regs = u.regs ∧ (∀ k a : Nat, t.memByte k a = u.memByte k a) ∧
      t.fetchError = u.fetchError ∧ t.loadStoreError = u.loadStoreError ∧ t.busError = u.busError ∧ t.pc = 4 ∧
      (decode (s.busRead s.pc .word false).1 ≠ .ok .mret → t.mepc = u.pc) ∧
      (decode (s.busRead s.pc .word false).1 = .ok .mret → t.mepc = alignPc (s.pc + 4))

/-! ## Rules over all instructions -/

/-- R98, R142: an instruction whose used register fields name registers of the machine always gives a next state. -/
def Obligations.EveryInstructionCompletes : Prop :=
  ∀ (i : Instr) (s : State), (∀ r ∈ usedRegsOf i, s.hasReg r = true) → ∃ t, exec i s = .next t

/-- R16: an instruction that uses a register index not below `NREGS` is refused (for the two operands of a branch this is the
model's reading, log 12). -/
def Obligations.AbsentRegisterIsRefused : Prop :=
  ∀ (i : Instr) (s : State), (∃ r ∈ usedRegsOf i, s.hasReg r = false) → exec i s = .refused .registerAbsent

/-- R17: no instruction writes a register but its destination. -/
def Obligations.OnlyDestinationRegisterChanges : Prop :=
  ∀ (i : Instr) (s t : State) (r : RegIdx), exec i s = .next t → destOf i ≠ some r → t.readReg r = s.readReg r

/-- R36: no instruction but a store changes a byte of memory. -/
def Obligations.OnlyStoresChangeMemory : Prop :=
  ∀ (i : Instr) (s t : State), storeOf i = none → exec i s = .next t → MemoryKept s t

/-- R98: with 32 registers every state, whatever memory holds, has a next state. -/
def Obligations.MachineIsAlwaysSteppable : Prop :=
  ∀ s : State, s.nregs = .r32 → ∃ t, step s = .next t ∧ t.stage = .fetch

/-- R19, R24: every step keeps `pc` and `mepc` 4-byte aligned, and every memory in its canonical form. -/
def Obligations.StepKeepsWellFormedState : Prop :=
  ∀ s t : State, s.wf = true → step s = .next t → t.wf = true

/-- The state after reset is well-formed. -/
def Obligations.ResetIsWellFormed : Prop := State.reset.wf = true

/-- R5, R37: no step changes `NREGS` or the range of a device, or adds, drops or reorders one. -/
def Obligations.StepKeepsConfiguration : Prop :=
  ∀ s t : State, step s = .next t → t.shape = s.shape

/-! ## The stage machine (40_execution_engine.md) -/

/-- R101: the instruction-level step is the composition of the stages: it gives, in every state at an instruction boundary, the
state (every latch included) or the refusal that running the stages one by one gives. -/
def Obligations.StepIsCompositionOfStages : Prop :=
  ∀ s : State, s.stage = .fetch → step s = runToBoundary 5 s

/-- R100: which stages an instruction visits, and so how many spec `step()` calls it takes (the counts for rd = x0 rest on the
spec's decision D7). -/
def Obligations.InstructionVisitsItsStages : Prop :=
  ∀ (s : State), s.stage = .fetch →
    (∀ i, decode (s.busRead s.pc .word false).1 = .ok i → (∀ r ∈ usedRegsOf i, s.hasReg r = true) →
      stagesToBoundary 6 s = stagesVisited (some i)) ∧
    (mnemonicOf (s.busRead s.pc .word false).1 = none → stagesToBoundary 6 s = stagesVisited none)

/-- R87: the arrows of the state machine. -/
def Obligations.StageTransitions : Prop :=
  ∀ s t : State, stageStep s = .next t →
    (s.stage = .fetch → t.stage = .decode) ∧
    (s.stage = .decode → t.stage = if t.dp.aluOp = .none then .updatePC else .compute) ∧
    (s.stage = .compute → t.stage =
      if s.dp.branch ≠ .none ∧ s.dp.branch ≠ .al then .compare
      else if s.dp.wbMem = .none then .updatePC
      else if (s.dp.wbMem = .r ∨ s.dp.wbMem = .pcPlus) ∧ s.instr.rd = 0 then .updatePC
      else .loadStoreWriteBack) ∧
    (s.stage = .compare → t.stage = .updatePC) ∧
    (s.stage = .loadStoreWriteBack → t.stage = .updatePC) ∧
    (s.stage = .updatePC → t.stage = .fetch)

/-- R96: UpdatePC. The next address is the ALU's result if a jump or branch is taken, else `pc + 4`; an accepted interrupt (R150)
saves it in `mepc`, masked, and enters the handler at 4; else `mret` goes on at `mepc` and clears the latch; else the machine
goes on at the next address, masked (R19, R24, R139, R151). Registers, memory, the bus and the latches stay. That the devices go
on to the next sample of their request lists is the model's own (log 6). -/
def Obligations.UpdatePcStage : Prop :=
  ∀ s : State, s.stage = .updatePC →
    ∃ t, stageStep s = .next t ∧ t.stage = .fetch ∧
      (let next := if s.branchTaken then s.aluResult else s.pc + 4
       if s.irqLine = true ∧ s.irqState = false then
         t.mepc = next &&& 0xFFFFFFFC ∧ t.pc = 4 ∧ t.irqState = true
       else if s.instr.name = some .mret then
         t.pc = s.mepc &&& 0xFFFFFFFC ∧ t.irqState = false ∧ t.mepc = s.mepc
       else t.pc = next &&& 0xFFFFFFFC ∧ t.irqState = s.irqState ∧ t.mepc = s.mepc) ∧
      t.regs = s.regs ∧ MemoryKept s t ∧ t.devices = s.devices.map Device.nextSample ∧ t.busError = s.busError ∧
      t.fetchData = s.fetchData ∧ t.fetchError = s.fetchError ∧ t.instr = s.instr ∧ t.dp = s.dp ∧ t.x1v = s.x1v ∧
      t.x2v = s.x2v ∧ t.aluResult = s.aluResult ∧ t.branchTaken = s.branchTaken ∧
      t.loadStoreError = s.loadStoreError ∧ t.nregs = s.nregs

/-- R17, R21: only UpdatePC writes `pc`, `mepc` and the interrupt latch, only LoadStoreWriteBack writes a register, and only
Fetch and LoadStoreWriteBack access the bus (R36). -/
def Obligations.EachStageWritesItsOwnState : Prop :=
  ∀ s t : State, stageStep s = .next t →
    (s.stage ≠ .updatePC → t.pc = s.pc ∧ t.mepc = s.mepc ∧ t.irqState = s.irqState) ∧
    (s.stage ≠ .loadStoreWriteBack → t.regs = s.regs ∧ t.loadStoreError = s.loadStoreError) ∧
    (s.stage ≠ .fetch → t.fetchData = s.fetchData ∧ t.fetchError = s.fetchError) ∧
    (s.stage ≠ .fetch → s.stage ≠ .loadStoreWriteBack → t.busError = s.busError) ∧
    (s.stage ≠ .fetch → s.stage ≠ .loadStoreWriteBack → s.stage ≠ .updatePC → t.devices = s.devices)

/-- When the word fetched at `pc` decodes to an instruction, the step is `exec` of it at the state Fetch and Decode leave; where the
first device that accepts the fetch is a `Memory`, that word is its four bytes at `pc` and the fetch changes no device. -/
def Obligations.StepRunsDecodedInstruction : Prop :=
  ∀ (s : State) (w : Word) (t : State) (i : Instr), s.stage = .fetch →
    s.busRead s.pc .word false = (w, t) → decode w = .ok i →
    step s = exec i
      { t with
        branchTaken := false
        fetchData := w
        fetchError := t.busError
        instr := decodeRecord w
        dp := descriptorOf i.name
        stage := if i = .mret then .updatePC else .compute } ∧
    ∀ (d : Device) (cells initial : Memory), s.acceptor s.pc .word = some d → d.kind = .memory cells initial →
      w = cells.readBytes (d.offset s.pc) 4 ∧ t = { s with busError := false }

/-! ## Encoding (30_encoding.md) -/

/-- R73: decoding the word of a well-formed instruction gives the instruction back, whatever its operands. -/
def Obligations.DecodeOfEncode : Prop := ∀ i : Instr, i.wf = true → decode (encode i) = .ok i

/-- R73: a word that decodes to an instruction is the word of that instruction, which is well-formed. -/
def Obligations.EncodeOfDecode : Prop := ∀ (w : Word) (i : Instr), decode w = .ok i → encode i = w ∧ i.wf = true

/-- R69: the rows are pairwise disjoint: no word matches two. -/
def Obligations.RowsAreDisjoint : Prop :=
  ∀ (w : Word) (m m' : Mnemonic), (row m).matches w = true → (row m').matches w = true → m = m'

/-- R68: matching a row is the test of the word against the row's mask and match columns. -/
def Obligations.MatchingIsMaskTest : Prop :=
  ∀ (w : Word) (m : Mnemonic), (row m).matches w = true ↔ w &&& (row m).maskWord = (row m).matchWord

/-- R74: the opcode map: which words decode to an instruction. -/
def Obligations.OpcodeMap : Prop :=
  ∀ w : Word,
    let op := (w.extractLsb' 0 7).toNat
    let f3 := (w.extractLsb' 12 3).toNat
    let f7 := (w.extractLsb' 25 7).toNat
    mnemonicOf w ≠ none ↔
      op = 0x37 ∨ op = 0x17 ∨ op = 0x6F ∨ (op = 0x67 ∧ f3 = 0) ∨
      (op = 0x63 ∧ (f3 = 0 ∨ f3 = 1 ∨ 4 ≤ f3)) ∨
      (op = 0x03 ∧ (f3 ≤ 2 ∨ f3 = 4 ∨ f3 = 5)) ∨
      (op = 0x23 ∧ f3 ≤ 2) ∨
      (op = 0x13 ∧ ((f3 ≠ 1 ∧ f3 ≠ 5) ∨ f7 = 0 ∨ (f3 = 5 ∧ f7 = 32))) ∨
      (op = 0x33 ∧ (f7 = 0 ∨ (f7 = 32 ∧ (f3 = 0 ∨ f3 = 5)))) ∨
      w = 0x30200073

/-- R64, R65: the immediates of R63 spelled out. -/
def Obligations.ImmediatesSpelledOut : Prop :=
  ∀ w : Word,
    immOfSlices w (slices .I) = (w.extractLsb' 20 12).signExtend 32 ∧
    immOfSlices w (slices .S) = (w.extractLsb' 25 7 ++ w.extractLsb' 7 5).signExtend 32 ∧
    immOfSlices w (slices .B) =
      (w.extractLsb' 31 1 ++ w.extractLsb' 7 1 ++ w.extractLsb' 25 6 ++ w.extractLsb' 8 4 ++ 0#1).signExtend 32 ∧
    immOfSlices w (slices .U) = w.extractLsb' 12 20 ++ 0#12 ∧
    immOfSlices w (slices .J) =
      (w.extractLsb' 31 1 ++ w.extractLsb' 12 8 ++ w.extractLsb' 20 1 ++ w.extractLsb' 21 10 ++ 0#1).signExtend 32 ∧
    (opcodeOf w = 0x13 → funct3Of w = 1 ∨ funct3Of w = 5 →
      immediate w (some .I) = (w.extractLsb' 20 5).setWidth 32)

/-- A few words written out from the encodings (95_test_vectors.md V1, V3, V4 and section 2.1), one of each format. -/
def Obligations.WordsDecodeAsWritten : Prop :=
  decode 0x00078713 = .ok (.addi 14 15 0) ∧ decode 0xFE219EE3 = .ok (.bne 3 2 (-4)) ∧
  decode 0x30200073 = .ok .mret ∧ decode 0x7E312FA3 = .ok (.sw 2 3 2047) ∧
  decode 0x123452B7 = .ok (.lui 5 0x12345000) ∧ decode 0x800000EF = .ok (.jal 1 (-1048576)) ∧
  decode 0x41DF0FB3 = .ok (.sub 31 30 29) ∧ decode 0x41F15093 = .ok (.srai 1 2 31) ∧
  decode 0x00000073 = .error (.invalid 0x00000073)

/-- R82, R80: assembling the text of an instruction gives its record back (with 32 registers). -/
def Obligations.AssembleOfDisassemble : Prop :=
  ∀ i : Instr, assemble .r32 (disassemble i.fields) = i.fields

/-! ## State, bus, driver -/

/-- R167: the values the spec gives for reset (`mepc` and `irqState` by its decision D5, `bus.error` by D12). -/
def Obligations.ResetValues : Prop :=
  (∀ r : RegIdx, State.reset.readReg r = 0) ∧ State.reset.pc = 0 ∧ State.reset.mepc = 0 ∧
  State.reset.irqState = false ∧ State.reset.stage = .fetch ∧ State.reset.branchTaken = false ∧
  State.reset.busError = false ∧ State.reset.nregs = .r32

/-- R167, R168: `reset()` at any stage gives those values and leaves the bus, its error bit and the devices alone. -/
def Obligations.ResetLeavesBusAlone : Prop :=
  ∀ s : State, ∃ t, driver .reset s = .next t ∧ (∀ r : RegIdx, t.readReg r = 0) ∧ t.pc = 0 ∧ t.mepc = 0 ∧
    t.irqState = false ∧ t.stage = .fetch ∧ t.branchTaken = false ∧ t.busError = s.busError ∧ t.devices = s.devices ∧
    t.nregs = s.nregs

/-- R14, R15: x0 reads 0 and a write to it changes nothing; any other register reads what was written to it last, and a write
changes no other. For an index not below `NREGS` (R16 gives it no meaning) that there is storage to read back is the model's
choice (log 14). -/
def Obligations.RegisterFileReadsAndWrites : Prop :=
  ∀ (s : State) (i : RegIdx) (v : Word),
    s.readReg 0 = 0 ∧ s.writeReg 0 v = s ∧ (i ≠ 0 → (s.writeReg i v).readReg i = v) ∧
    OtherRegsKept s (s.writeReg i v) i

/-- R37: an access is accepted exactly when every one of its bytes lies in the device's range, on integers: an access that would
wrap past 0xFFFFFFFF is accepted by none. -/
def Obligations.AcceptsIffEveryByteInRange : Prop :=
  ∀ (d : Device) (addr : Word) (size : AccessSize),
    (d.accepts addr size = true ↔
      ∀ j, j < size.bytes → d.first.toNat ≤ addr.toNat + j ∧ addr.toNat + j ≤ d.last.toNat) ∧
    (2 ^ 32 < addr.toNat + size.bytes → d.accepts addr size = false)

/-- R43: a read with no accepting device returns 0 and sets the error; else it clears the error and returns what the first
accepting device in list order reads, extended (R38), and that device alone is read, once (R52). The counter `draws` given to the
device and taken back from it is the model's own (log 7, log 9). -/
def Obligations.BusReadSelectsFirstAcceptor : Prop :=
  ∀ (s : State) (addr : Word) (size : AccessSize) (signed : Bool),
    ((∀ d ∈ s.devices, d.accepts addr size = false) → s.busRead addr size signed = (0, { s with busError := true })) ∧
    ∀ (k : Nat) (d : Device), s.devices[k]? = some d → d.accepts addr size = true →
      (∀ (j : Nat) (d' : Device), j < k → s.devices[j]? = some d' → d'.accepts addr size = false) →
      let r := d.localRead (d.offset addr) size s.draws
      s.busRead addr size signed =
        (extend size signed r.1, { s with busError := false, devices := s.devices.set k r.2.1, draws := r.2.2 })

/-- R44: a write goes to every accepting device and to no other, and sets the error exactly when none accepts. -/
def Obligations.BusWriteReachesEveryAcceptor : Prop :=
  ∀ (s : State) (addr v : Word) (size : AccessSize),
    ((s.busWrite addr size v).busError = true ↔ ∀ d ∈ s.devices, d.accepts addr size = false) ∧
    (∀ k : Nat, (s.busWrite addr size v).devices[k]? =
      (s.devices[k]?).map fun d => if d.accepts addr size then d.localWrite (d.offset addr) size v else d)

/-- R169: `setX`, `setPc` and a driver's bus write are plain updates at an instruction boundary and refused elsewhere (decision
D16). -/
def Obligations.DriverActsAtBoundariesOnly : Prop :=
  ∀ (s : State) (i : RegIdx) (addr v : Word) (size : AccessSize), s.hasReg i = true →
    (s.stage = .fetch →
      driver (.setX i v) s = .next (s.writeReg i v) ∧ driver (.setPc v) s = .next (s.setPc v) ∧
      aligned (s.setPc v).pc = true ∧ driver (.busWrite addr size v) s = .next (s.busWrite addr size v)) ∧
    (s.stage ≠ .fetch →
      driver (.setX i v) s = .refused .driverMidInstruction ∧ driver (.setPc v) s = .refused .driverMidInstruction ∧
      driver (.busWrite addr size v) s = .refused .driverMidInstruction)
end

