-- ==== Sys2Proof/Laws/Alu.lean ====
section
/-! SUPPORT. What each operation of the ALU and each comparison says in numbers (R92, R94). -/

namespace Sys2Proof.Machine

theorem shiftAmount_eq (b : Word) : shiftAmount b = b.toNat % 32 := by
  simp [shiftAmount]

theorem aluSlt_eq (a b : Word) : aluSlt a b = flagWord (a.toInt < b.toInt) := by
  simp [aluSlt, boolWord, flagWord, BitVec.slt]

theorem aluSltu_eq (a b : Word) : aluSltu a b = flagWord (a.toNat < b.toNat) := by
  simp [aluSltu, boolWord, flagWord, BitVec.ult]

theorem aluSll_eq (a b : Word) : aluSll a b = BitVec.ofNat 32 (a.toNat * 2 ^ (b.toNat % 32)) := by
  apply BitVec.eq_of_toNat_eq
  simp [aluSll, shiftAmount_eq, Nat.shiftLeft_eq]

theorem aluSrl_eq (a b : Word) : aluSrl a b = BitVec.ofNat 32 (a.toNat / 2 ^ (b.toNat % 32)) := by
  apply BitVec.eq_of_toNat_eq
  simp only [aluSrl, shiftAmount_eq, BitVec.toNat_ushiftRight, Nat.shiftRight_eq_div_pow, BitVec.toNat_ofNat]
  refine (Nat.mod_eq_of_lt ?_).symm
  exact Nat.lt_of_le_of_lt (Nat.div_le_self _ _) a.isLt

theorem aluSra_eq (a b : Word) : aluSra a b = BitVec.ofInt 32 (a.toInt / 2 ^ (b.toNat % 32)) := by
  apply BitVec.eq_of_toInt_eq
  rw [aluSra, shiftAmount_eq, BitVec.toInt_sshiftRight, BitVec.toInt_ofInt, Int.shiftRight_eq_div_pow]
  have := (a.sshiftRight (b.toNat % 32)).toInt_bmod_cancel
  rw [BitVec.toInt_sshiftRight, Int.shiftRight_eq_div_pow] at this
  simpa using this.symm

theorem condEq_eq (a b : Word) : condEq a b = decide (a = b) := by
  by_cases h : a = b <;> simp [condEq, h]

theorem condNe_eq (a b : Word) : condNe a b = !decide (a = b) := by
  by_cases h : a = b <;> simp [condNe, h]

theorem condLt_eq (a b : Word) : condLt a b = decide (a.toInt < b.toInt) := by
  simp [condLt, BitVec.slt]

theorem condGe_eq (a b : Word) : condGe a b = decide (b.toInt ≤ a.toInt) := by
  by_cases h : a.toInt < b.toInt <;> simp [condGe, BitVec.slt, h]
  omega

theorem condLtu_eq (a b : Word) : condLtu a b = decide (a.toNat < b.toNat) := by
  simp [condLtu, BitVec.ult]

theorem condGeu_eq (a b : Word) : condGeu a b = decide (b.toNat ≤ a.toNat) := by
  by_cases h : a.toNat < b.toNat <;> simp [condGeu, BitVec.ult, h]
  omega

end Sys2Proof.Machine
end

