-- ==== Sys2Proof/Laws/State.lean ====
section
/-! SUPPORT. What each update of the state leaves in each field: one lemma per field and update, so that no later proof unfolds
a record update. -/

namespace Sys2Proof.Machine

variable (s : State)

/-! ## A register write -/

@[simp] theorem writeReg_nregs (r : RegIdx) (v : Word) : (s.writeReg r v).nregs = s.nregs := by unfold State.writeReg; split <;> rfl
@[simp] theorem writeReg_pc (r : RegIdx) (v : Word) : (s.writeReg r v).pc = s.pc := by unfold State.writeReg; split <;> rfl
@[simp] theorem writeReg_mepc (r : RegIdx) (v : Word) : (s.writeReg r v).mepc = s.mepc := by unfold State.writeReg; split <;> rfl
@[simp] theorem writeReg_irqState (r : RegIdx) (v : Word) : (s.writeReg r v).irqState = s.irqState := by unfold State.writeReg; split <;> rfl
@[simp] theorem writeReg_stage (r : RegIdx) (v : Word) : (s.writeReg r v).stage = s.stage := by unfold State.writeReg; split <;> rfl
@[simp] theorem writeReg_fetchData (r : RegIdx) (v : Word) : (s.writeReg r v).fetchData = s.fetchData := by unfold State.writeReg; split <;> rfl
@[simp] theorem writeReg_fetchError (r : RegIdx) (v : Word) : (s.writeReg r v).fetchError = s.fetchError := by unfold State.writeReg; split <;> rfl
@[simp] theorem writeReg_instr (r : RegIdx) (v : Word) : (s.writeReg r v).instr = s.instr := by unfold State.writeReg; split <;> rfl
@[simp] theorem writeReg_dp (r : RegIdx) (v : Word) : (s.writeReg r v).dp = s.dp := by unfold State.writeReg; split <;> rfl
@[simp] theorem writeReg_x1v (r : RegIdx) (v : Word) : (s.writeReg r v).x1v = s.x1v := by unfold State.writeReg; split <;> rfl
@[simp] theorem writeReg_x2v (r : RegIdx) (v : Word) : (s.writeReg r v).x2v = s.x2v := by unfold State.writeReg; split <;> rfl
@[simp] theorem writeReg_aluResult (r : RegIdx) (v : Word) : (s.writeReg r v).aluResult = s.aluResult := by unfold State.writeReg; split <;> rfl
@[simp] theorem writeReg_branchTaken (r : RegIdx) (v : Word) : (s.writeReg r v).branchTaken = s.branchTaken := by unfold State.writeReg; split <;> rfl
@[simp] theorem writeReg_loadStoreError (r : RegIdx) (v : Word) : (s.writeReg r v).loadStoreError = s.loadStoreError := by unfold State.writeReg; split <;> rfl
@[simp] theorem writeReg_busError (r : RegIdx) (v : Word) : (s.writeReg r v).busError = s.busError := by unfold State.writeReg; split <;> rfl
@[simp] theorem writeReg_devices (r : RegIdx) (v : Word) : (s.writeReg r v).devices = s.devices := by unfold State.writeReg; split <;> rfl
@[simp] theorem writeReg_draws (r : RegIdx) (v : Word) : (s.writeReg r v).draws = s.draws := by unfold State.writeReg; split <;> rfl

/-! ## The operand latches -/

@[simp] theorem latchX1_nregs (r : RegIdx) : (s.latchX1 r).nregs = s.nregs := by unfold State.latchX1; split <;> rfl
@[simp] theorem latchX1_regs (r : RegIdx) : (s.latchX1 r).regs = s.regs := by unfold State.latchX1; split <;> rfl
@[simp] theorem latchX1_pc (r : RegIdx) : (s.latchX1 r).pc = s.pc := by unfold State.latchX1; split <;> rfl
@[simp] theorem latchX1_mepc (r : RegIdx) : (s.latchX1 r).mepc = s.mepc := by unfold State.latchX1; split <;> rfl
@[simp] theorem latchX1_irqState (r : RegIdx) : (s.latchX1 r).irqState = s.irqState := by unfold State.latchX1; split <;> rfl
@[simp] theorem latchX1_stage (r : RegIdx) : (s.latchX1 r).stage = s.stage := by unfold State.latchX1; split <;> rfl
@[simp] theorem latchX1_fetchData (r : RegIdx) : (s.latchX1 r).fetchData = s.fetchData := by unfold State.latchX1; split <;> rfl
@[simp] theorem latchX1_fetchError (r : RegIdx) : (s.latchX1 r).fetchError = s.fetchError := by unfold State.latchX1; split <;> rfl
@[simp] theorem latchX1_instr (r : RegIdx) : (s.latchX1 r).instr = s.instr := by unfold State.latchX1; split <;> rfl
@[simp] theorem latchX1_dp (r : RegIdx) : (s.latchX1 r).dp = s.dp := by unfold State.latchX1; split <;> rfl
@[simp] theorem latchX1_x2v (r : RegIdx) : (s.latchX1 r).x2v = s.x2v := by unfold State.latchX1; split <;> rfl
@[simp] theorem latchX1_aluResult (r : RegIdx) : (s.latchX1 r).aluResult = s.aluResult := by unfold State.latchX1; split <;> rfl
@[simp] theorem latchX1_branchTaken (r : RegIdx) : (s.latchX1 r).branchTaken = s.branchTaken := by unfold State.latchX1; split <;> rfl
@[simp] theorem latchX1_loadStoreError (r : RegIdx) : (s.latchX1 r).loadStoreError = s.loadStoreError := by unfold State.latchX1; split <;> rfl
@[simp] theorem latchX1_busError (r : RegIdx) : (s.latchX1 r).busError = s.busError := by unfold State.latchX1; split <;> rfl
@[simp] theorem latchX1_devices (r : RegIdx) : (s.latchX1 r).devices = s.devices := by unfold State.latchX1; split <;> rfl

@[simp] theorem latchX2_nregs (r : RegIdx) : (s.latchX2 r).nregs = s.nregs := by unfold State.latchX2; split <;> rfl
@[simp] theorem latchX2_regs (r : RegIdx) : (s.latchX2 r).regs = s.regs := by unfold State.latchX2; split <;> rfl
@[simp] theorem latchX2_pc (r : RegIdx) : (s.latchX2 r).pc = s.pc := by unfold State.latchX2; split <;> rfl
@[simp] theorem latchX2_mepc (r : RegIdx) : (s.latchX2 r).mepc = s.mepc := by unfold State.latchX2; split <;> rfl
@[simp] theorem latchX2_irqState (r : RegIdx) : (s.latchX2 r).irqState = s.irqState := by unfold State.latchX2; split <;> rfl
@[simp] theorem latchX2_stage (r : RegIdx) : (s.latchX2 r).stage = s.stage := by unfold State.latchX2; split <;> rfl
@[simp] theorem latchX2_fetchData (r : RegIdx) : (s.latchX2 r).fetchData = s.fetchData := by unfold State.latchX2; split <;> rfl
@[simp] theorem latchX2_fetchError (r : RegIdx) : (s.latchX2 r).fetchError = s.fetchError := by unfold State.latchX2; split <;> rfl
@[simp] theorem latchX2_instr (r : RegIdx) : (s.latchX2 r).instr = s.instr := by unfold State.latchX2; split <;> rfl
@[simp] theorem latchX2_dp (r : RegIdx) : (s.latchX2 r).dp = s.dp := by unfold State.latchX2; split <;> rfl
@[simp] theorem latchX2_x1v (r : RegIdx) : (s.latchX2 r).x1v = s.x1v := by unfold State.latchX2; split <;> rfl
@[simp] theorem latchX2_aluResult (r : RegIdx) : (s.latchX2 r).aluResult = s.aluResult := by unfold State.latchX2; split <;> rfl
@[simp] theorem latchX2_branchTaken (r : RegIdx) : (s.latchX2 r).branchTaken = s.branchTaken := by unfold State.latchX2; split <;> rfl
@[simp] theorem latchX2_loadStoreError (r : RegIdx) : (s.latchX2 r).loadStoreError = s.loadStoreError := by unfold State.latchX2; split <;> rfl
@[simp] theorem latchX2_busError (r : RegIdx) : (s.latchX2 r).busError = s.busError := by unfold State.latchX2; split <;> rfl
@[simp] theorem latchX2_devices (r : RegIdx) : (s.latchX2 r).devices = s.devices := by unfold State.latchX2; split <;> rfl

@[simp] theorem latchOperands_nregs (a b : RegIdx) : (s.latchOperands a b).nregs = s.nregs := by simp [State.latchOperands]
@[simp] theorem latchOperands_regs (a b : RegIdx) : (s.latchOperands a b).regs = s.regs := by simp [State.latchOperands]
@[simp] theorem latchOperands_pc (a b : RegIdx) : (s.latchOperands a b).pc = s.pc := by simp [State.latchOperands]
@[simp] theorem latchOperands_mepc (a b : RegIdx) : (s.latchOperands a b).mepc = s.mepc := by simp [State.latchOperands]
@[simp] theorem latchOperands_irqState (a b : RegIdx) : (s.latchOperands a b).irqState = s.irqState := by simp [State.latchOperands]
@[simp] theorem latchOperands_stage (a b : RegIdx) : (s.latchOperands a b).stage = s.stage := by simp [State.latchOperands]
@[simp] theorem latchOperands_fetchData (a b : RegIdx) : (s.latchOperands a b).fetchData = s.fetchData := by simp [State.latchOperands]
@[simp] theorem latchOperands_fetchError (a b : RegIdx) : (s.latchOperands a b).fetchError = s.fetchError := by simp [State.latchOperands]
@[simp] theorem latchOperands_instr (a b : RegIdx) : (s.latchOperands a b).instr = s.instr := by simp [State.latchOperands]
@[simp] theorem latchOperands_dp (a b : RegIdx) : (s.latchOperands a b).dp = s.dp := by simp [State.latchOperands]
@[simp] theorem latchOperands_aluResult (a b : RegIdx) : (s.latchOperands a b).aluResult = s.aluResult := by simp [State.latchOperands]
@[simp] theorem latchOperands_branchTaken (a b : RegIdx) : (s.latchOperands a b).branchTaken = s.branchTaken := by simp [State.latchOperands]
@[simp] theorem latchOperands_loadStoreError (a b : RegIdx) : (s.latchOperands a b).loadStoreError = s.loadStoreError := by simp [State.latchOperands]
@[simp] theorem latchOperands_busError (a b : RegIdx) : (s.latchOperands a b).busError = s.busError := by simp [State.latchOperands]
@[simp] theorem latchOperands_devices (a b : RegIdx) : (s.latchOperands a b).devices = s.devices := by simp [State.latchOperands]

@[simp] theorem latchCompute_nregs (a b : RegIdx) (v : Word) : (s.latchCompute a b v).nregs = s.nregs := by simp [State.latchCompute]
@[simp] theorem latchCompute_regs (a b : RegIdx) (v : Word) : (s.latchCompute a b v).regs = s.regs := by simp [State.latchCompute]
@[simp] theorem latchCompute_pc (a b : RegIdx) (v : Word) : (s.latchCompute a b v).pc = s.pc := by simp [State.latchCompute]
@[simp] theorem latchCompute_mepc (a b : RegIdx) (v : Word) : (s.latchCompute a b v).mepc = s.mepc := by simp [State.latchCompute]
@[simp] theorem latchCompute_irqState (a b : RegIdx) (v : Word) : (s.latchCompute a b v).irqState = s.irqState := by simp [State.latchCompute]
@[simp] theorem latchCompute_stage (a b : RegIdx) (v : Word) : (s.latchCompute a b v).stage = s.stage := by simp [State.latchCompute]
@[simp] theorem latchCompute_fetchData (a b : RegIdx) (v : Word) : (s.latchCompute a b v).fetchData = s.fetchData := by simp [State.latchCompute]
@[simp] theorem latchCompute_fetchError (a b : RegIdx) (v : Word) : (s.latchCompute a b v).fetchError = s.fetchError := by simp [State.latchCompute]
@[simp] theorem latchCompute_instr (a b : RegIdx) (v : Word) : (s.latchCompute a b v).instr = s.instr := by simp [State.latchCompute]
@[simp] theorem latchCompute_dp (a b : RegIdx) (v : Word) : (s.latchCompute a b v).dp = s.dp := by simp [State.latchCompute]
@[simp] theorem latchCompute_aluResult (a b : RegIdx) (v : Word) : (s.latchCompute a b v).aluResult = v := rfl
@[simp] theorem latchCompute_branchTaken (a b : RegIdx) (v : Word) : (s.latchCompute a b v).branchTaken = s.branchTaken := by simp [State.latchCompute]
@[simp] theorem latchCompute_loadStoreError (a b : RegIdx) (v : Word) : (s.latchCompute a b v).loadStoreError = s.loadStoreError := by simp [State.latchCompute]
@[simp] theorem latchCompute_busError (a b : RegIdx) (v : Word) : (s.latchCompute a b v).busError = s.busError := by simp [State.latchCompute]
@[simp] theorem latchCompute_devices (a b : RegIdx) (v : Word) : (s.latchCompute a b v).devices = s.devices := by simp [State.latchCompute]

/-! ## The captured error, the jump flag, the stage -/

@[simp] theorem captureError_nregs : s.captureError.nregs = s.nregs := rfl
@[simp] theorem captureError_regs : s.captureError.regs = s.regs := rfl
@[simp] theorem captureError_pc : s.captureError.pc = s.pc := rfl
@[simp] theorem captureError_mepc : s.captureError.mepc = s.mepc := rfl
@[simp] theorem captureError_irqState : s.captureError.irqState = s.irqState := rfl
@[simp] theorem captureError_stage : s.captureError.stage = s.stage := rfl
@[simp] theorem captureError_fetchData : s.captureError.fetchData = s.fetchData := rfl
@[simp] theorem captureError_fetchError : s.captureError.fetchError = s.fetchError := rfl
@[simp] theorem captureError_instr : s.captureError.instr = s.instr := rfl
@[simp] theorem captureError_dp : s.captureError.dp = s.dp := rfl
@[simp] theorem captureError_x1v : s.captureError.x1v = s.x1v := rfl
@[simp] theorem captureError_x2v : s.captureError.x2v = s.x2v := rfl
@[simp] theorem captureError_aluResult : s.captureError.aluResult = s.aluResult := rfl
@[simp] theorem captureError_branchTaken : s.captureError.branchTaken = s.branchTaken := rfl
@[simp] theorem captureError_loadStoreError : s.captureError.loadStoreError = s.busError := rfl
@[simp] theorem captureError_busError : s.captureError.busError = s.busError := rfl
@[simp] theorem captureError_devices : s.captureError.devices = s.devices := rfl
@[simp] theorem captureError_draws : s.captureError.draws = s.draws := rfl

@[simp] theorem setTaken_nregs (b : Bool) : (s.setTaken b).nregs = s.nregs := rfl
@[simp] theorem setTaken_regs (b : Bool) : (s.setTaken b).regs = s.regs := rfl
@[simp] theorem setTaken_pc (b : Bool) : (s.setTaken b).pc = s.pc := rfl
@[simp] theorem setTaken_mepc (b : Bool) : (s.setTaken b).mepc = s.mepc := rfl
@[simp] theorem setTaken_irqState (b : Bool) : (s.setTaken b).irqState = s.irqState := rfl
@[simp] theorem setTaken_stage (b : Bool) : (s.setTaken b).stage = s.stage := rfl
@[simp] theorem setTaken_fetchData (b : Bool) : (s.setTaken b).fetchData = s.fetchData := rfl
@[simp] theorem setTaken_fetchError (b : Bool) : (s.setTaken b).fetchError = s.fetchError := rfl
@[simp] theorem setTaken_instr (b : Bool) : (s.setTaken b).instr = s.instr := rfl
@[simp] theorem setTaken_dp (b : Bool) : (s.setTaken b).dp = s.dp := rfl
@[simp] theorem setTaken_x1v (b : Bool) : (s.setTaken b).x1v = s.x1v := rfl
@[simp] theorem setTaken_x2v (b : Bool) : (s.setTaken b).x2v = s.x2v := rfl
@[simp] theorem setTaken_aluResult (b : Bool) : (s.setTaken b).aluResult = s.aluResult := rfl
@[simp] theorem setTaken_branchTaken (b : Bool) : (s.setTaken b).branchTaken = b := rfl
@[simp] theorem setTaken_loadStoreError (b : Bool) : (s.setTaken b).loadStoreError = s.loadStoreError := rfl
@[simp] theorem setTaken_busError (b : Bool) : (s.setTaken b).busError = s.busError := rfl
@[simp] theorem setTaken_devices (b : Bool) : (s.setTaken b).devices = s.devices := rfl
@[simp] theorem setTaken_draws (b : Bool) : (s.setTaken b).draws = s.draws := rfl

@[simp] theorem setStage_nregs (g : Stage) : (s.setStage g).nregs = s.nregs := rfl
@[simp] theorem setStage_regs (g : Stage) : (s.setStage g).regs = s.regs := rfl
@[simp] theorem setStage_pc (g : Stage) : (s.setStage g).pc = s.pc := rfl
@[simp] theorem setStage_mepc (g : Stage) : (s.setStage g).mepc = s.mepc := rfl
@[simp] theorem setStage_irqState (g : Stage) : (s.setStage g).irqState = s.irqState := rfl
@[simp] theorem setStage_stage (g : Stage) : (s.setStage g).stage = g := rfl
@[simp] theorem setStage_fetchData (g : Stage) : (s.setStage g).fetchData = s.fetchData := rfl
@[simp] theorem setStage_fetchError (g : Stage) : (s.setStage g).fetchError = s.fetchError := rfl
@[simp] theorem setStage_instr (g : Stage) : (s.setStage g).instr = s.instr := rfl
@[simp] theorem setStage_dp (g : Stage) : (s.setStage g).dp = s.dp := rfl
@[simp] theorem setStage_x1v (g : Stage) : (s.setStage g).x1v = s.x1v := rfl
@[simp] theorem setStage_x2v (g : Stage) : (s.setStage g).x2v = s.x2v := rfl
@[simp] theorem setStage_aluResult (g : Stage) : (s.setStage g).aluResult = s.aluResult := rfl
@[simp] theorem setStage_branchTaken (g : Stage) : (s.setStage g).branchTaken = s.branchTaken := rfl
@[simp] theorem setStage_loadStoreError (g : Stage) : (s.setStage g).loadStoreError = s.loadStoreError := rfl
@[simp] theorem setStage_busError (g : Stage) : (s.setStage g).busError = s.busError := rfl
@[simp] theorem setStage_devices (g : Stage) : (s.setStage g).devices = s.devices := rfl
@[simp] theorem setStage_draws (g : Stage) : (s.setStage g).draws = s.draws := rfl

/-! ## Writes of pc, interrupt entry and return -/

@[simp] theorem setPc_nregs (v : Word) : (s.setPc v).nregs = s.nregs := rfl
@[simp] theorem setPc_regs (v : Word) : (s.setPc v).regs = s.regs := rfl
@[simp] theorem setPc_pc (v : Word) : (s.setPc v).pc = alignPc v := rfl
@[simp] theorem setPc_mepc (v : Word) : (s.setPc v).mepc = s.mepc := rfl
@[simp] theorem setPc_irqState (v : Word) : (s.setPc v).irqState = s.irqState := rfl
@[simp] theorem setPc_stage (v : Word) : (s.setPc v).stage = s.stage := rfl
@[simp] theorem setPc_fetchData (v : Word) : (s.setPc v).fetchData = s.fetchData := rfl
@[simp] theorem setPc_fetchError (v : Word) : (s.setPc v).fetchError = s.fetchError := rfl
@[simp] theorem setPc_instr (v : Word) : (s.setPc v).instr = s.instr := rfl
@[simp] theorem setPc_dp (v : Word) : (s.setPc v).dp = s.dp := rfl
@[simp] theorem setPc_x1v (v : Word) : (s.setPc v).x1v = s.x1v := rfl
@[simp] theorem setPc_x2v (v : Word) : (s.setPc v).x2v = s.x2v := rfl
@[simp] theorem setPc_aluResult (v : Word) : (s.setPc v).aluResult = s.aluResult := rfl
@[simp] theorem setPc_branchTaken (v : Word) : (s.setPc v).branchTaken = s.branchTaken := rfl
@[simp] theorem setPc_loadStoreError (v : Word) : (s.setPc v).loadStoreError = s.loadStoreError := rfl
@[simp] theorem setPc_busError (v : Word) : (s.setPc v).busError = s.busError := rfl
@[simp] theorem setPc_devices (v : Word) : (s.setPc v).devices = s.devices := rfl
@[simp] theorem setPc_draws (v : Word) : (s.setPc v).draws = s.draws := rfl

@[simp] theorem interruptEntry_nregs (v : Word) : (s.interruptEntry v).nregs = s.nregs := rfl
@[simp] theorem interruptEntry_regs (v : Word) : (s.interruptEntry v).regs = s.regs := rfl
@[simp] theorem interruptEntry_pc (v : Word) : (s.interruptEntry v).pc = trapVector := rfl
@[simp] theorem interruptEntry_mepc (v : Word) : (s.interruptEntry v).mepc = alignPc v := rfl
@[simp] theorem interruptEntry_irqState (v : Word) : (s.interruptEntry v).irqState = true := rfl
@[simp] theorem interruptEntry_stage (v : Word) : (s.interruptEntry v).stage = s.stage := rfl
@[simp] theorem interruptEntry_fetchData (v : Word) : (s.interruptEntry v).fetchData = s.fetchData := rfl
@[simp] theorem interruptEntry_fetchError (v : Word) : (s.interruptEntry v).fetchError = s.fetchError := rfl
@[simp] theorem interruptEntry_instr (v : Word) : (s.interruptEntry v).instr = s.instr := rfl
@[simp] theorem interruptEntry_dp (v : Word) : (s.interruptEntry v).dp = s.dp := rfl
@[simp] theorem interruptEntry_x1v (v : Word) : (s.interruptEntry v).x1v = s.x1v := rfl
@[simp] theorem interruptEntry_x2v (v : Word) : (s.interruptEntry v).x2v = s.x2v := rfl
@[simp] theorem interruptEntry_aluResult (v : Word) : (s.interruptEntry v).aluResult = s.aluResult := rfl
@[simp] theorem interruptEntry_branchTaken (v : Word) : (s.interruptEntry v).branchTaken = s.branchTaken := rfl
@[simp] theorem interruptEntry_loadStoreError (v : Word) : (s.interruptEntry v).loadStoreError = s.loadStoreError := rfl
@[simp] theorem interruptEntry_busError (v : Word) : (s.interruptEntry v).busError = s.busError := rfl
@[simp] theorem interruptEntry_devices (v : Word) : (s.interruptEntry v).devices = s.devices := rfl
@[simp] theorem interruptEntry_draws (v : Word) : (s.interruptEntry v).draws = s.draws := rfl

@[simp] theorem mretReturn_nregs : s.mretReturn.nregs = s.nregs := rfl
@[simp] theorem mretReturn_regs : s.mretReturn.regs = s.regs := rfl
@[simp] theorem mretReturn_pc : s.mretReturn.pc = alignPc s.mepc := rfl
@[simp] theorem mretReturn_mepc : s.mretReturn.mepc = s.mepc := rfl
@[simp] theorem mretReturn_irqState : s.mretReturn.irqState = false := rfl
@[simp] theorem mretReturn_stage : s.mretReturn.stage = s.stage := rfl
@[simp] theorem mretReturn_fetchData : s.mretReturn.fetchData = s.fetchData := rfl
@[simp] theorem mretReturn_fetchError : s.mretReturn.fetchError = s.fetchError := rfl
@[simp] theorem mretReturn_instr : s.mretReturn.instr = s.instr := rfl
@[simp] theorem mretReturn_dp : s.mretReturn.dp = s.dp := rfl
@[simp] theorem mretReturn_x1v : s.mretReturn.x1v = s.x1v := rfl
@[simp] theorem mretReturn_x2v : s.mretReturn.x2v = s.x2v := rfl
@[simp] theorem mretReturn_aluResult : s.mretReturn.aluResult = s.aluResult := rfl
@[simp] theorem mretReturn_branchTaken : s.mretReturn.branchTaken = s.branchTaken := rfl
@[simp] theorem mretReturn_loadStoreError : s.mretReturn.loadStoreError = s.loadStoreError := rfl
@[simp] theorem mretReturn_busError : s.mretReturn.busError = s.busError := rfl
@[simp] theorem mretReturn_devices : s.mretReturn.devices = s.devices := rfl
@[simp] theorem mretReturn_draws : s.mretReturn.draws = s.draws := rfl

/-! ## The next sample of the interrupt line -/

@[simp] theorem nextSample_nregs : s.nextSample.nregs = s.nregs := rfl
@[simp] theorem nextSample_regs : s.nextSample.regs = s.regs := rfl
@[simp] theorem nextSample_pc : s.nextSample.pc = s.pc := rfl
@[simp] theorem nextSample_mepc : s.nextSample.mepc = s.mepc := rfl
@[simp] theorem nextSample_irqState : s.nextSample.irqState = s.irqState := rfl
@[simp] theorem nextSample_stage : s.nextSample.stage = s.stage := rfl
@[simp] theorem nextSample_fetchData : s.nextSample.fetchData = s.fetchData := rfl
@[simp] theorem nextSample_fetchError : s.nextSample.fetchError = s.fetchError := rfl
@[simp] theorem nextSample_instr : s.nextSample.instr = s.instr := rfl
@[simp] theorem nextSample_dp : s.nextSample.dp = s.dp := rfl
@[simp] theorem nextSample_x1v : s.nextSample.x1v = s.x1v := rfl
@[simp] theorem nextSample_x2v : s.nextSample.x2v = s.x2v := rfl
@[simp] theorem nextSample_aluResult : s.nextSample.aluResult = s.aluResult := rfl
@[simp] theorem nextSample_branchTaken : s.nextSample.branchTaken = s.branchTaken := rfl
@[simp] theorem nextSample_loadStoreError : s.nextSample.loadStoreError = s.loadStoreError := rfl
@[simp] theorem nextSample_busError : s.nextSample.busError = s.busError := rfl
@[simp] theorem nextSample_devices : s.nextSample.devices = s.devices.map Device.nextSample := rfl
@[simp] theorem nextSample_draws : s.nextSample.draws = s.draws := rfl

/-! ## The bus -/

@[simp] theorem busWrite_nregs (addr : Word) (size : AccessSize) (v : Word) : (s.busWrite addr size v).nregs = s.nregs := rfl
@[simp] theorem busWrite_regs (addr : Word) (size : AccessSize) (v : Word) : (s.busWrite addr size v).regs = s.regs := rfl
@[simp] theorem busWrite_pc (addr : Word) (size : AccessSize) (v : Word) : (s.busWrite addr size v).pc = s.pc := rfl
@[simp] theorem busWrite_mepc (addr : Word) (size : AccessSize) (v : Word) : (s.busWrite addr size v).mepc = s.mepc := rfl
@[simp] theorem busWrite_irqState (addr : Word) (size : AccessSize) (v : Word) : (s.busWrite addr size v).irqState = s.irqState := rfl
@[simp] theorem busWrite_stage (addr : Word) (size : AccessSize) (v : Word) : (s.busWrite addr size v).stage = s.stage := rfl
@[simp] theorem busWrite_fetchData (addr : Word) (size : AccessSize) (v : Word) : (s.busWrite addr size v).fetchData = s.fetchData := rfl
@[simp] theorem busWrite_fetchError (addr : Word) (size : AccessSize) (v : Word) : (s.busWrite addr size v).fetchError = s.fetchError := rfl
@[simp] theorem busWrite_instr (addr : Word) (size : AccessSize) (v : Word) : (s.busWrite addr size v).instr = s.instr := rfl
@[simp] theorem busWrite_dp (addr : Word) (size : AccessSize) (v : Word) : (s.busWrite addr size v).dp = s.dp := rfl
@[simp] theorem busWrite_x1v (addr : Word) (size : AccessSize) (v : Word) : (s.busWrite addr size v).x1v = s.x1v := rfl
@[simp] theorem busWrite_x2v (addr : Word) (size : AccessSize) (v : Word) : (s.busWrite addr size v).x2v = s.x2v := rfl
@[simp] theorem busWrite_aluResult (addr : Word) (size : AccessSize) (v : Word) : (s.busWrite addr size v).aluResult = s.aluResult := rfl
@[simp] theorem busWrite_branchTaken (addr : Word) (size : AccessSize) (v : Word) : (s.busWrite addr size v).branchTaken = s.branchTaken := rfl
@[simp] theorem busWrite_loadStoreError (addr : Word) (size : AccessSize) (v : Word) : (s.busWrite addr size v).loadStoreError = s.loadStoreError := rfl
@[simp] theorem busWrite_busError (addr : Word) (size : AccessSize) (v : Word) : (s.busWrite addr size v).busError = !(s.devices.any fun d => d.accepts addr size) := rfl
@[simp] theorem busWrite_devices (addr : Word) (size : AccessSize) (v : Word) : (s.busWrite addr size v).devices = writeAccepting addr size v s.devices := rfl
@[simp] theorem busWrite_draws (addr : Word) (size : AccessSize) (v : Word) : (s.busWrite addr size v).draws = s.draws := rfl

@[simp] theorem busRead_nregs (addr : Word) (size : AccessSize) (sg : Bool) : (s.busRead addr size sg).2.nregs = s.nregs := by unfold State.busRead; split <;> rfl
@[simp] theorem busRead_regs (addr : Word) (size : AccessSize) (sg : Bool) : (s.busRead addr size sg).2.regs = s.regs := by unfold State.busRead; split <;> rfl
@[simp] theorem busRead_pc (addr : Word) (size : AccessSize) (sg : Bool) : (s.busRead addr size sg).2.pc = s.pc := by unfold State.busRead; split <;> rfl
@[simp] theorem busRead_mepc (addr : Word) (size : AccessSize) (sg : Bool) : (s.busRead addr size sg).2.mepc = s.mepc := by unfold State.busRead; split <;> rfl
@[simp] theorem busRead_irqState (addr : Word) (size : AccessSize) (sg : Bool) : (s.busRead addr size sg).2.irqState = s.irqState := by unfold State.busRead; split <;> rfl
@[simp] theorem busRead_stage (addr : Word) (size : AccessSize) (sg : Bool) : (s.busRead addr size sg).2.stage = s.stage := by unfold State.busRead; split <;> rfl
@[simp] theorem busRead_fetchData (addr : Word) (size : AccessSize) (sg : Bool) : (s.busRead addr size sg).2.fetchData = s.fetchData := by unfold State.busRead; split <;> rfl
@[simp] theorem busRead_fetchError (addr : Word) (size : AccessSize) (sg : Bool) : (s.busRead addr size sg).2.fetchError = s.fetchError := by unfold State.busRead; split <;> rfl
@[simp] theorem busRead_instr (addr : Word) (size : AccessSize) (sg : Bool) : (s.busRead addr size sg).2.instr = s.instr := by unfold State.busRead; split <;> rfl
@[simp] theorem busRead_dp (addr : Word) (size : AccessSize) (sg : Bool) : (s.busRead addr size sg).2.dp = s.dp := by unfold State.busRead; split <;> rfl
@[simp] theorem busRead_x1v (addr : Word) (size : AccessSize) (sg : Bool) : (s.busRead addr size sg).2.x1v = s.x1v := by unfold State.busRead; split <;> rfl
@[simp] theorem busRead_x2v (addr : Word) (size : AccessSize) (sg : Bool) : (s.busRead addr size sg).2.x2v = s.x2v := by unfold State.busRead; split <;> rfl
@[simp] theorem busRead_aluResult (addr : Word) (size : AccessSize) (sg : Bool) : (s.busRead addr size sg).2.aluResult = s.aluResult := by unfold State.busRead; split <;> rfl
@[simp] theorem busRead_branchTaken (addr : Word) (size : AccessSize) (sg : Bool) : (s.busRead addr size sg).2.branchTaken = s.branchTaken := by unfold State.busRead; split <;> rfl
@[simp] theorem busRead_loadStoreError (addr : Word) (size : AccessSize) (sg : Bool) : (s.busRead addr size sg).2.loadStoreError = s.loadStoreError := by unfold State.busRead; split <;> rfl

/-! ## UpdatePC -/

@[simp] theorem updatePC_nregs (m : Bool) : (s.updatePC m).nregs = s.nregs := by unfold State.updatePC; dsimp only; split <;> [skip; split] <;> rfl
@[simp] theorem updatePC_regs (m : Bool) : (s.updatePC m).regs = s.regs := by unfold State.updatePC; dsimp only; split <;> [skip; split] <;> rfl
@[simp] theorem updatePC_stage (m : Bool) : (s.updatePC m).stage = .fetch := rfl
@[simp] theorem updatePC_fetchData (m : Bool) : (s.updatePC m).fetchData = s.fetchData := by unfold State.updatePC; dsimp only; split <;> [skip; split] <;> rfl
@[simp] theorem updatePC_fetchError (m : Bool) : (s.updatePC m).fetchError = s.fetchError := by unfold State.updatePC; dsimp only; split <;> [skip; split] <;> rfl
@[simp] theorem updatePC_instr (m : Bool) : (s.updatePC m).instr = s.instr := by unfold State.updatePC; dsimp only; split <;> [skip; split] <;> rfl
@[simp] theorem updatePC_dp (m : Bool) : (s.updatePC m).dp = s.dp := by unfold State.updatePC; dsimp only; split <;> [skip; split] <;> rfl
@[simp] theorem updatePC_x1v (m : Bool) : (s.updatePC m).x1v = s.x1v := by unfold State.updatePC; dsimp only; split <;> [skip; split] <;> rfl
@[simp] theorem updatePC_x2v (m : Bool) : (s.updatePC m).x2v = s.x2v := by unfold State.updatePC; dsimp only; split <;> [skip; split] <;> rfl
@[simp] theorem updatePC_aluResult (m : Bool) : (s.updatePC m).aluResult = s.aluResult := by unfold State.updatePC; dsimp only; split <;> [skip; split] <;> rfl
@[simp] theorem updatePC_branchTaken (m : Bool) : (s.updatePC m).branchTaken = s.branchTaken := by unfold State.updatePC; dsimp only; split <;> [skip; split] <;> rfl
@[simp] theorem updatePC_loadStoreError (m : Bool) : (s.updatePC m).loadStoreError = s.loadStoreError := by unfold State.updatePC; dsimp only; split <;> [skip; split] <;> rfl
@[simp] theorem updatePC_busError (m : Bool) : (s.updatePC m).busError = s.busError := by unfold State.updatePC; dsimp only; split <;> [skip; split] <;> rfl
@[simp] theorem updatePC_draws (m : Bool) : (s.updatePC m).draws = s.draws := by unfold State.updatePC; dsimp only; split <;> [skip; split] <;> rfl

@[simp] theorem updatePC_devices (m : Bool) : (s.updatePC m).devices = s.devices.map Device.nextSample := by
  unfold State.updatePC; dsimp only; split <;> [skip; split] <;> rfl

/-- UpdatePC does not depend on the stage. -/
@[simp] theorem updatePC_setStage (g : Stage) (m : Bool) : (s.setStage g).updatePC m = s.updatePC m := by
  have h : (s.setStage g).acceptInterrupt = s.acceptInterrupt := rfl
  unfold State.updatePC
  simp only [h]
  split <;> [skip; split] <;> rfl

/-- What UpdatePC does to `pc`, `mepc` and the interrupt latch when an interrupt is accepted (R151). -/
theorem updatePC_of_accept (m : Bool) (h : s.acceptInterrupt = true) :
    (s.updatePC m).pc = trapVector ∧ (s.updatePC m).mepc = alignPc s.nextPc ∧ (s.updatePC m).irqState = true := by
  simp [State.updatePC, h]

/-- ... when none is, for an instruction that is not `mret` (R96). -/
theorem updatePC_of_continue (h : s.acceptInterrupt = false) :
    (s.updatePC false).pc = alignPc s.nextPc ∧ (s.updatePC false).mepc = s.mepc ∧
      (s.updatePC false).irqState = s.irqState := by
  simp [State.updatePC, h]

/-- ... when none is, for `mret` (R139). -/
theorem updatePC_of_return (h : s.acceptInterrupt = false) :
    (s.updatePC true).pc = alignPc s.mepc ∧ (s.updatePC true).mepc = s.mepc ∧ (s.updatePC true).irqState = false := by
  simp [State.updatePC, h]

/-- A step's end is a next state: the state UpdatePC leaves. -/
theorem retire_eq (taken : Bool) : s.retire taken = .next ((s.setTaken taken).updatePC false) := rfl

end Sys2Proof.Machine
end

