-- ==== Sys2Proof/Laws/Memory.lean ====
section
/-! SUPPORT. Laws of the bytes of a `Memory`: read after write, and the canonical form (20_memory.md R42). -/

namespace Sys2Proof.Machine

/-! ## The canonical form is kept -/

theorem Memory.wfFrom_mono {lo lo' : Nat} (h : lo' ≤ lo) : ∀ {m : Memory}, Memory.wfFrom lo m = true → Memory.wfFrom lo' m = true
  | [], _ => rfl
  | (a, b) :: rest, hm => by
    simp only [Memory.wfFrom, Bool.and_eq_true, decide_eq_true_eq] at hm ⊢
    exact ⟨⟨Nat.le_trans h hm.1.1, hm.1.2⟩, hm.2⟩

theorem Memory.wfFrom_erase (a : Nat) : ∀ {lo : Nat} {m : Memory}, Memory.wfFrom lo m = true → Memory.wfFrom lo (m.erase a) = true
  | _, [], _ => rfl
  | lo, (k, b) :: rest, hm => by
    simp only [Memory.wfFrom, Bool.and_eq_true, decide_eq_true_eq] at hm
    have ih := Memory.wfFrom_erase a hm.2
    unfold Memory.erase at ih ⊢
    rw [List.filter_cons]
    split
    · simp [Memory.wfFrom, hm.1.1, hm.1.2, ih]
    · exact Memory.wfFrom_mono (by omega) ih

theorem Memory.wfFrom_insert {a : Nat} {v : Byte} (hv : v ≠ unlistedByte) :
    ∀ {lo : Nat} {m : Memory}, lo ≤ a → (∀ c ∈ m, c.1 ≠ a) → Memory.wfFrom lo m = true →
      Memory.wfFrom lo (Memory.insert a v m) = true
  | lo, [], hlo, _, _ => by simp [Memory.insert, Memory.wfFrom, hlo, hv]
  | lo, (k, b) :: rest, hlo, hne, hm => by
    simp only [Memory.wfFrom, Bool.and_eq_true, decide_eq_true_eq] at hm
    have hk : k ≠ a := hne (k, b) (by simp)
    unfold Memory.insert
    split
    · rename_i hlt
      simp [Memory.wfFrom, hlo, hv, hm.1.2, hm.2]
      omega
    · have ih := Memory.wfFrom_insert hv (lo := k + 1) (m := rest) (by omega) (fun c hc => hne c (by simp [hc])) hm.2
      simp [Memory.wfFrom, hm.1.1, hm.1.2, ih]

theorem Memory.erase_ne {m : Memory} {a : Nat} : ∀ c ∈ m.erase a, c.1 ≠ a := by
  intro c hc
  simpa using (List.mem_filter.mp hc).2

/-- A write keeps the canonical form. -/
theorem Memory.wf_write {m : Memory} (h : m.wf = true) (a : Nat) (v : Byte) : (m.write a v).wf = true := by
  unfold Memory.wf Memory.write at *
  split
  · exact Memory.wfFrom_erase a h
  · rename_i hv
    exact Memory.wfFrom_insert hv (Nat.zero_le a) Memory.erase_ne (Memory.wfFrom_erase a h)

/-- A write of several bytes keeps the canonical form. -/
theorem Memory.wf_writeBytes {m : Memory} (h : m.wf = true) (off : Nat) (v : Word) :
    ∀ n : Nat, (m.writeBytes off v n).wf = true
  | 0 => h
  | n + 1 => Memory.wf_write (Memory.wf_writeBytes h off v n) _ _

/-! ## Read after write -/

theorem Memory.read_erase_self (a : Nat) : ∀ m : Memory, (m.erase a).read a = unlistedByte
  | [] => rfl
  | (k, b) :: rest => by
    have ih := Memory.read_erase_self a rest
    unfold Memory.erase at ih ⊢
    rw [List.filter_cons]
    split
    · rename_i h
      simp only [bne_iff_ne, ne_eq] at h
      simp [Memory.read, h, ih]
    · exact ih

theorem Memory.read_erase_ne {a a' : Nat} (h : a' ≠ a) : ∀ m : Memory, (m.erase a).read a' = m.read a'
  | [] => rfl
  | (k, b) :: rest => by
    have ih := Memory.read_erase_ne h rest
    unfold Memory.erase at ih ⊢
    rw [List.filter_cons]
    split
    · simp [Memory.read, ih]
    · rename_i hk
      simp only [bne_iff_ne, ne_eq, not_not] at hk
      subst hk
      simp [Memory.read, ih, Ne.symm h]

theorem Memory.read_insert_self (a : Nat) (v : Byte) :
    ∀ m : Memory, (∀ c ∈ m, c.1 ≠ a) → (Memory.insert a v m).read a = v
  | [], _ => by simp [Memory.insert, Memory.read]
  | (k, b) :: rest, h => by
    unfold Memory.insert
    split
    · simp [Memory.read]
    · have hk : k ≠ a := h (k, b) (by simp)
      simp [Memory.read, hk, Memory.read_insert_self a v rest (fun c hc => h c (by simp [hc]))]

theorem Memory.read_insert_ne {a a' : Nat} (v : Byte) (h : a' ≠ a) :
    ∀ m : Memory, (Memory.insert a v m).read a' = m.read a'
  | [] => by simp [Memory.insert, Memory.read, Ne.symm h]
  | (k, b) :: rest => by
    unfold Memory.insert
    split
    · simp [Memory.read, Ne.symm h]
    · simp [Memory.read, Memory.read_insert_ne v h rest]

/-- A read after a write at the same offset gives the byte written. -/
@[simp] theorem Memory.read_write_self (m : Memory) (a : Nat) (v : Byte) : (m.write a v).read a = v := by
  unfold Memory.write
  split
  · rename_i h
    rw [h, Memory.read_erase_self]
  · exact Memory.read_insert_self a v _ Memory.erase_ne

/-- A write leaves every other offset alone. -/
theorem Memory.read_write_ne (m : Memory) {a a' : Nat} (v : Byte) (h : a' ≠ a) : (m.write a v).read a' = m.read a' := by
  unfold Memory.write
  split
  · exact Memory.read_erase_ne h m
  · rw [Memory.read_insert_ne v h, Memory.read_erase_ne h]

/-- The bytes a write of several bytes leaves (R42). -/
theorem Memory.read_writeBytes_in (m : Memory) (off : Nat) (v : Word) :
    ∀ {n j : Nat}, j < n → (m.writeBytes off v n).read (off + j) = v.extractLsb' (8 * j) 8
  | n + 1, j, h => by
    unfold Memory.writeBytes
    by_cases hj : j = n
    · subst hj; simp
    · rw [Memory.read_write_ne _ _ (by omega)]
      exact Memory.read_writeBytes_in m off v (by omega)

/-- A write of several bytes leaves every other offset alone. -/
theorem Memory.read_writeBytes_out (m : Memory) (off : Nat) (v : Word) {a : Nat} :
    ∀ {n : Nat}, a < off ∨ off + n ≤ a → (m.writeBytes off v n).read a = m.read a
  | 0, _ => rfl
  | n + 1, h => by
    unfold Memory.writeBytes
    rw [Memory.read_write_ne _ _ (by omega)]
    exact Memory.read_writeBytes_out m off v (by omega)

/-- A read of several bytes depends on those bytes alone. -/
theorem Memory.readBytes_congr {m m' : Memory} {off : Nat} :
    ∀ {n : Nat}, (∀ j, j < n → m.read (off + j) = m'.read (off + j)) → m.readBytes off n = m'.readBytes off n
  | 0, _ => rfl
  | n + 1, h => by
    unfold Memory.readBytes
    rw [Memory.readBytes_congr fun j hj => h j (by omega), h n (by omega)]

/-- The bit `i` of a little-endian read of `n` bytes is the bit `i % 8` of the byte `i / 8`. -/
theorem Memory.getLsbD_readBytes (m : Memory) (off : Nat) (i : Nat) (hi : i < 32) :
    ∀ n : Nat, (m.readBytes off n).getLsbD i = (decide (i < 8 * n) && (m.read (off + i / 8)).getLsbD (i % 8))
  | 0 => by simp [Memory.readBytes]
  | n + 1 => by
    unfold Memory.readBytes
    rw [BitVec.getLsbD_or, Memory.getLsbD_readBytes m off i hi n, BitVec.getLsbD_shiftLeft, BitVec.getLsbD_setWidth]
    by_cases h1 : i < 8 * n
    · simp [h1, show i < 8 * (n + 1) by omega]
    · by_cases h2 : i < 8 * (n + 1)
      · have hq : i / 8 = n := by omega
        have hr : i - 8 * n = i % 8 := by omega
        simp [h1, h2, hi, hq, hr, show i % 8 < 32 by omega]
      · have : 8 ≤ i - 8 * n := by omega
        simp [h1, h2, hi, BitVec.getLsbD_of_ge _ _ this]

/-- A byte read is the byte, zero-extended (R131). -/
theorem Memory.readBytes_one (m : Memory) (off : Nat) : m.readBytes off 1 = (m.read off).setWidth 32 := by
  simp [Memory.readBytes]

/-- A halfword read, the byte at the lower offset in the low bits (R132). -/
theorem Memory.readBytes_two (m : Memory) (off : Nat) :
    m.readBytes off 2 = (m.read (off + 1) ++ m.read off).setWidth 32 := by
  apply BitVec.eq_of_getLsbD_eq
  intro i hi
  rw [Memory.getLsbD_readBytes m off i hi, BitVec.getLsbD_setWidth, BitVec.getLsbD_append]
  by_cases h : i < 8
  · simp [h, hi, Nat.div_eq_of_lt h, Nat.mod_eq_of_lt h, show i < 16 by omega]
  · by_cases h2 : i < 16
    · simp [h, hi, h2, show i / 8 = 1 by omega, show i % 8 = i - 8 by omega]
    · simp [h, h2, hi, BitVec.getLsbD_of_ge (m.read (off + 1)) (i - 8) (by omega)]

/-- A word read, the byte at the lowest offset in the low bits (R133). -/
theorem Memory.readBytes_four (m : Memory) (off : Nat) :
    m.readBytes off 4 = m.read (off + 3) ++ m.read (off + 2) ++ m.read (off + 1) ++ m.read off := by
  apply BitVec.eq_of_getLsbD_eq
  intro i hi
  rw [Memory.getLsbD_readBytes m off i hi]
  simp only [BitVec.getLsbD_append]
  by_cases h : i < 8
  · simp [h, Nat.div_eq_of_lt h, Nat.mod_eq_of_lt h, show i < 32 by omega]
  · by_cases h2 : i < 16
    · simp [h, show i - 8 < 8 by omega, show i / 8 = 1 by omega, show i % 8 = i - 8 by omega, show i < 32 by omega]
    · by_cases h3 : i < 24
      · simp [h, show ¬ (i - 8 < 8) by omega, show i - 8 - 8 < 8 by omega, show i / 8 = 2 by omega,
          show i % 8 = i - 8 - 8 by omega, show i < 32 by omega]
      · simp [h, show ¬ (i - 8 < 8) by omega, show ¬ (i - 8 - 8 < 8) by omega, show i / 8 = 3 by omega,
          show i % 8 = i - 8 - 8 - 8 by omega, show i < 32 by omega]

end Sys2Proof.Machine
end

