-- ==== Sys2Proof/Laws/Registers.lean ====
section
/-! SUPPORT. Laws of the register file and of the guards on register indices (10_state.md section 1). -/

namespace Sys2Proof.Machine

@[simp] theorem readReg_zero (s : State) : s.readReg 0#5 = 0#32 := by simp [State.readReg]

@[simp] theorem writeReg_zero (s : State) (v : Word) : s.writeReg 0#5 v = s := by simp [State.writeReg]

theorem readReg_congr {s t : State} (h : t.regs = s.regs) (r : RegIdx) : t.readReg r = s.readReg r := by
  simp [State.readReg, h]

theorem readReg_writeReg_self (s : State) (r : RegIdx) (v : Word) :
    (s.writeReg r v).readReg r = if r = 0 then 0 else v := by
  unfold State.readReg State.writeReg
  by_cases h : r = 0
  · rw [if_pos h, if_pos h]
  · rw [if_neg h, if_neg h, if_neg h]
    exact Vector.getElem_set_self r.isLt

theorem readReg_writeReg_ne (s : State) {r r' : RegIdx} (v : Word) (h : r' ≠ r) :
    (s.writeReg r v).readReg r' = s.readReg r' := by
  unfold State.readReg State.writeReg
  by_cases hr : r = 0
  · simp [hr]
  · have hne : r.toNat ≠ r'.toNat := fun e => h (BitVec.eq_of_toNat_eq e).symm
    by_cases hr' : r' = 0
    · simp [hr']
    · rw [if_neg hr, if_neg hr', if_neg hr']
      exact Vector.getElem_set_ne (i := r.toNat) (j := r'.toNat) r.isLt r'.isLt hne

theorem hasReg_congr {s t : State} (h : t.nregs = s.nregs) (r : RegIdx) : t.hasReg r = s.hasReg r := by
  simp [State.hasReg, h]

/-- With 32 registers every index names one. -/
theorem hasReg_of_r32 {s : State} (h : s.nregs = .r32) (r : RegIdx) : s.hasReg r = true := by
  simp only [State.hasReg, h, RegCount.count, decide_eq_true_eq]
  exact r.isLt

/-- The guard lets the instruction go on exactly when every used index names a register. -/
theorem guardRegs_of_all {used : List RegIdx} {s : State} {k : Outcome} (h : ∀ r ∈ used, s.hasReg r = true) :
    guardRegs used s k = k := by
  simp only [guardRegs, List.all_eq_true]
  exact if_pos h

theorem guardRegs_of_absent {used : List RegIdx} {s : State} {k : Outcome} (h : ∃ r ∈ used, s.hasReg r = false) :
    guardRegs used s k = .refused .registerAbsent := by
  obtain ⟨r, hr, hf⟩ := h
  simp only [guardRegs, List.all_eq_true]
  exact if_neg fun hall => by simp [hall r hr] at hf

/-- A guarded outcome that is a next state is the guarded instruction's, with every used register present. -/
theorem guardRegs_next {used : List RegIdx} {s t : State} {k : Outcome} (h : guardRegs used s k = .next t) :
    (∀ r ∈ used, s.hasReg r = true) ∧ k = .next t := by
  unfold guardRegs at h
  split at h
  · rename_i hall
    exact ⟨by simpa using hall, h⟩
  · cases h

theorem latchX1_of_hasReg {s : State} {r : RegIdx} (h : s.hasReg r = true) :
    s.latchX1 r = { s with x1v := s.readReg r } := by simp [State.latchX1, h]

theorem latchX2_of_hasReg {s : State} {r : RegIdx} (h : s.hasReg r = true) :
    s.latchX2 r = { s with x2v := s.readReg r } := by simp [State.latchX2, h]

/-- A used first operand is latched with the register's value (R90). -/
theorem latchOperands_x1v {s : State} {a : RegIdx} (h : s.hasReg a = true) (b : RegIdx) :
    (s.latchOperands a b).x1v = s.readReg a := by
  unfold State.latchOperands State.latchX2
  split <;> simp [latchX1_of_hasReg h]

/-- A used second operand is latched with the register's value (R90). -/
theorem latchOperands_x2v {s : State} {b : RegIdx} (a : RegIdx) (h : s.hasReg b = true) :
    (s.latchOperands a b).x2v = s.readReg b := by
  have h' : (s.latchX1 a).hasReg b = true := by rw [hasReg_congr (latchX1_nregs s a)]; exact h
  rw [State.latchOperands, latchX2_of_hasReg h']
  exact readReg_congr (latchX1_regs s a) b

end Sys2Proof.Machine
end

