-- ==== Sys2Proof/Laws/Bus.lean ====
section
/-! SUPPORT. Laws of the devices and the bus (20_memory.md): which device a read goes to, and what reads, writes and samples leave
in every device. -/

namespace Sys2Proof.Machine

/-! ## What one device keeps -/

/-- What a `Memory` device shows: its range and its bytes now; of any other device, its range. -/
def Device.view (d : Device) : Word × Word × Option Memory :=
  (d.first, d.last,
    match d.kind with
    | .memory cells _ => some cells
    | .external _ _ _ => none)

@[simp] theorem Device.view_localRead (d : Device) (off : Nat) (size : AccessSize) (n : Nat) :
    (d.localRead off size n).2.1.view = d.view := by
  unfold Device.localRead; split <;> simp [Device.view, *]

@[simp] theorem Device.view_nextSample (d : Device) : d.nextSample.view = d.view := by
  unfold Device.nextSample; split <;> simp [Device.view, *]

@[simp] theorem Device.irq_localRead (d : Device) (off : Nat) (size : AccessSize) (n : Nat) :
    (d.localRead off size n).2.1.irq = d.irq := by
  unfold Device.localRead; split <;> simp [Device.irq, *]

@[simp] theorem Device.irq_localWrite (d : Device) (off : Nat) (size : AccessSize) (v : Word) :
    (d.localWrite off size v).irq = d.irq := by
  unfold Device.localWrite; split <;> simp [Device.irq, *]

/-- A device's range, which nothing changes (R37). -/
def Device.range (d : Device) : Word × Word := (d.first, d.last)

@[simp] theorem Device.range_localRead (d : Device) (off : Nat) (size : AccessSize) (n : Nat) :
    (d.localRead off size n).2.1.range = d.range := by
  unfold Device.localRead; split <;> rfl

@[simp] theorem Device.range_localWrite (d : Device) (off : Nat) (size : AccessSize) (v : Word) :
    (d.localWrite off size v).range = d.range := by
  unfold Device.localWrite; split <;> rfl

@[simp] theorem Device.range_nextSample (d : Device) : d.nextSample.range = d.range := by
  unfold Device.nextSample; split <;> rfl

@[simp] theorem Device.wf_localRead (d : Device) (off : Nat) (size : AccessSize) (n : Nat) :
    (d.localRead off size n).2.1.wf = d.wf := by
  unfold Device.localRead; split <;> simp [Device.wf, *]

theorem Device.wf_localWrite {d : Device} (h : d.wf = true) (off : Nat) (size : AccessSize) (v : Word) :
    (d.localWrite off size v).wf = true := by
  unfold Device.localWrite
  unfold Device.wf at h
  split <;> rename_i hk <;> simp only [hk] at h
  · simp only [Bool.and_eq_true] at h
    simp [Device.wf, Memory.wf_writeBytes h.1, h.2]
  · rfl

@[simp] theorem Device.wf_nextSample (d : Device) : d.nextSample.wf = d.wf := by
  unfold Device.nextSample; split <;> simp [Device.wf, *]

theorem Device.accepts_congr {d d' : Device} (h : d'.range = d.range) (addr : Word) (size : AccessSize) :
    d'.accepts addr size = d.accepts addr size := by
  simp only [Device.range, Prod.mk.injEq] at h
  simp [Device.accepts, h.1, h.2]

/-! ## Reads go to the first accepting device (R43) -/

theorem firstRead_of_none (addr : Word) (size : AccessSize) (n : Nat) :
    ∀ {ds : List Device}, ds.find? (fun d => d.accepts addr size) = none → firstRead addr size n ds = none
  | [], _ => rfl
  | d :: ds, h => by
    rw [List.find?_cons] at h
    split at h
    · cases h
    · rename_i hd
      simp [firstRead, hd, firstRead_of_none addr size n h]

/-- The device that answers a read stands at a position `k`, no earlier one accepts, and it alone changes. -/
theorem firstRead_of_some (addr : Word) (size : AccessSize) (n : Nat) :
    ∀ {ds : List Device} {d : Device}, ds.find? (fun d => d.accepts addr size) = some d →
      ∃ k, ds[k]? = some d ∧ firstRead addr size n ds =
        some ((d.localRead (d.offset addr) size n).1, ds.set k (d.localRead (d.offset addr) size n).2.1,
          (d.localRead (d.offset addr) size n).2.2)
  | d0 :: ds, d, h => by
    rw [List.find?_cons] at h
    split at h
    · rename_i hd
      cases h
      exact ⟨0, rfl, by simp [firstRead, hd]⟩
    · rename_i hd
      obtain ⟨k, hk, he⟩ := firstRead_of_some addr size n h
      exact ⟨k + 1, by simpa using hk, by simp [firstRead, hd, he]⟩

/-- Whatever a local read keeps in a device, a bus read keeps in the list of devices. -/
theorem firstRead_map {β : Type} (f : Device → β)
    (hf : ∀ (d : Device) (off : Nat) (size : AccessSize) (n : Nat), f (d.localRead off size n).2.1 = f d)
    (addr : Word) (size : AccessSize) (n : Nat) :
    ∀ {ds : List Device} {r : Word × List Device × Nat}, firstRead addr size n ds = some r → r.2.1.map f = ds.map f
  | d :: ds, r, h => by
    unfold firstRead at h
    split at h
    · cases h
      simp [hf]
    · split at h
      · cases h
      · rename_i v ds' m he
        cases h
        simpa using firstRead_map f hf addr size n he

theorem busRead_map {β : Type} (f : Device → β)
    (hf : ∀ (d : Device) (off : Nat) (size : AccessSize) (n : Nat), f (d.localRead off size n).2.1 = f d)
    (s : State) (addr : Word) (size : AccessSize) (sg : Bool) :
    (s.busRead addr size sg).2.devices.map f = s.devices.map f := by
  unfold State.busRead
  split
  · rfl
  · rename_i he
    exact firstRead_map f hf addr size s.draws he

/-- A bus read that no device accepts (R43). -/
theorem busRead_of_none {s : State} {addr : Word} {size : AccessSize} (sg : Bool) (h : s.acceptor addr size = none) :
    s.busRead addr size sg = (0, { s with busError := true }) := by
  unfold State.busRead
  rw [firstRead_of_none addr size s.draws h]

/-- A bus read that some device accepts: the first one answers and it alone changes (R43, R52). -/
theorem busRead_of_some {s : State} {addr : Word} {size : AccessSize} (sg : Bool) {d : Device}
    (h : s.acceptor addr size = some d) :
    ∃ k, s.devices[k]? = some d ∧ s.busRead addr size sg =
      (extend size sg (d.localRead (d.offset addr) size s.draws).1,
        { s with
          busError := false
          devices := s.devices.set k (d.localRead (d.offset addr) size s.draws).2.1
          draws := (d.localRead (d.offset addr) size s.draws).2.2 }) := by
  obtain ⟨k, hk, he⟩ := firstRead_of_some addr size s.draws h
  refine ⟨k, hk, ?_⟩
  unfold State.busRead
  rw [he]

/-- A bus read of a `Memory` device gives its bytes and leaves the devices alone (R42). -/
theorem busRead_of_memory {s : State} {addr : Word} {size : AccessSize} (sg : Bool) {d : Device} {cells initial : Memory}
    (h : s.acceptor addr size = some d) (hk : d.kind = .memory cells initial) :
    s.busRead addr size sg =
      (extend size sg (cells.readBytes (d.offset addr) size.bytes), { s with busError := false }) := by
  obtain ⟨k, hd, he⟩ := busRead_of_some sg h
  have hl : d.localRead (d.offset addr) size s.draws = (cells.readBytes (d.offset addr) size.bytes, d, s.draws) := by
    simp [Device.localRead, hk]
  rw [he, hl]
  have hset : s.devices.set k d = s.devices := by
    apply List.ext_getElem?
    intro j
    rw [List.getElem?_set]
    split
    · rename_i hj; subst hj
      split
      · exact hd.symm
      · rename_i hlen; rw [List.getElem?_eq_none (by omega)] at hd; cases hd
    · rfl
  simp [hset]

/-! ## The line -/

theorem irqLine_eq_map (s : State) : s.irqLine = (s.devices.map Device.irq).any id := by
  simp [State.irqLine, List.any_map]

theorem irqLine_congr {s t : State} (h : t.devices.map Device.irq = s.devices.map Device.irq) :
    t.irqLine = s.irqLine := by
  rw [irqLine_eq_map, irqLine_eq_map, h]

@[simp] theorem irqLine_busRead (s : State) (addr : Word) (size : AccessSize) (sg : Bool) :
    (s.busRead addr size sg).2.irqLine = s.irqLine :=
  irqLine_congr (busRead_map Device.irq Device.irq_localRead s addr size sg)

@[simp] theorem irqLine_busWrite (s : State) (addr : Word) (size : AccessSize) (v : Word) :
    (s.busWrite addr size v).irqLine = s.irqLine := by
  apply irqLine_congr
  simp only [busWrite_devices, writeAccepting, List.map_map]
  apply List.map_congr_left
  intro d _
  simp only [Function.comp]
  split <;> simp

/-- Acceptance depends on the line and the latch alone (R150). -/
theorem acceptInterrupt_congr {s t : State} (h : t.irqLine = s.irqLine) (hi : t.irqState = s.irqState) :
    t.acceptInterrupt = s.acceptInterrupt := by
  simp [State.acceptInterrupt, h, hi]

/-! ## Bytes of memory -/

theorem memByte_eq_view (s : State) (k a : Nat) :
    s.memByte k a =
      match (s.devices.map Device.view)[k]? with
      | some (lo, hi, some cells) => if lo.toNat ≤ a ∧ a ≤ hi.toNat then some (cells.read (a - lo.toNat)) else none
      | _ => none := by
  unfold State.memByte
  rw [List.getElem?_map]
  cases h : s.devices[k]? with
  | none => rfl
  | some d =>
    obtain ⟨lo, hi, kind⟩ := d
    cases kind <;> rfl

/-- The bytes depend on what the devices show alone. -/
theorem memByte_congr {s t : State} (h : t.devices.map Device.view = s.devices.map Device.view) (k a : Nat) :
    t.memByte k a = s.memByte k a := by
  rw [memByte_eq_view, memByte_eq_view, h]

theorem memoryKept_of_view {s t : State} (h : t.devices.map Device.view = s.devices.map Device.view) : MemoryKept s t :=
  fun k a => memByte_congr h k a

theorem view_busRead (s : State) (addr : Word) (size : AccessSize) (sg : Bool) :
    (s.busRead addr size sg).2.devices.map Device.view = s.devices.map Device.view :=
  busRead_map Device.view Device.view_localRead s addr size sg

theorem map_nextSample {β : Type} (f : Device → β) (hf : ∀ d : Device, f d.nextSample = f d) (ds : List Device) :
    (ds.map Device.nextSample).map f = ds.map f := by
  simp [Function.comp_def, hf]

theorem view_map_nextSample (ds : List Device) : (ds.map Device.nextSample).map Device.view = ds.map Device.view :=
  map_nextSample Device.view Device.view_nextSample ds

/-- The bytes an accepted write puts into a `Memory` device (R42, R44). -/
theorem memByte_busWrite_in {s : State} {addr v : Word} {size : AccessSize} {k : Nat} {d : Device}
    {cells initial : Memory} (hd : s.devices[k]? = some d) (ha : d.accepts addr size = true)
    (hk : d.kind = .memory cells initial) {j : Nat} (hj : j < size.bytes) :
    (s.busWrite addr size v).memByte k (addr.toNat + j) = some (v.extractLsb' (8 * j) 8) := by
  obtain ⟨lo, hi, kind⟩ := d
  simp only at hk
  subst hk
  have hr : lo.toNat ≤ addr.toNat ∧ addr.toNat + size.bytes - 1 ≤ hi.toNat := by simpa [Device.accepts] using ha
  have hoff : addr.toNat + j - lo.toNat = (addr.toNat - lo.toNat) + j := by omega
  unfold State.memByte
  simp only [busWrite_devices, writeAccepting, List.getElem?_map, hd, Option.map_some, ha, if_true, Device.localWrite,
    Device.offset]
  rw [if_pos ⟨by omega, by omega⟩, hoff, Memory.read_writeBytes_in _ _ _ hj]

/-- Every other byte stays (R44): outside the stored bytes, and in a device that does not accept the write. -/
theorem memByte_busWrite_out {s : State} {addr v : Word} {size : AccessSize} {k a : Nat}
    (h : a < addr.toNat ∨ addr.toNat + size.bytes ≤ a ∨ ∀ d, s.devices[k]? = some d → d.accepts addr size = false) :
    (s.busWrite addr size v).memByte k a = s.memByte k a := by
  unfold State.memByte
  simp only [busWrite_devices, writeAccepting, List.getElem?_map]
  cases hd : s.devices[k]? with
  | none => rfl
  | some d =>
    simp only [Option.map_some]
    by_cases ha : d.accepts addr size = true
    · obtain ⟨lo, hi, kind⟩ := d
      cases kind with
      | external _ _ _ => simp only [ha, if_true, Device.localWrite]
      | memory cells initial =>
        have hr : lo.toNat ≤ addr.toNat ∧ addr.toNat + size.bytes - 1 ≤ hi.toNat := by simpa [Device.accepts] using ha
        simp only [ha, if_true, Device.localWrite, Device.offset]
        by_cases hin : lo.toNat ≤ a ∧ a ≤ hi.toNat
        · rw [if_pos hin, if_pos hin, Memory.read_writeBytes_out]
          rcases h with h | h | h
          · left; omega
          · right; omega
          · exact absurd (h _ hd) (by simp [ha])
        · rw [if_neg hin, if_neg hin]
    · simp [ha]

/-! ## Which device answers, after an update -/

theorem acceptor_congr {s t : State} (h : t.devices = s.devices) (addr : Word) (size : AccessSize) :
    t.acceptor addr size = s.acceptor addr size := by
  simp [State.acceptor, h]

theorem acceptor_of_nextSample {s t : State} (h : t.devices = s.devices.map Device.nextSample) (addr : Word)
    (size : AccessSize) : t.acceptor addr size = (s.acceptor addr size).map Device.nextSample := by
  unfold State.acceptor
  rw [h, List.find?_map]
  congr 2
  funext d
  exact Device.accepts_congr (by simp) _ _

/-- A write changes what the devices hold, not which of them answers (R37, R44). -/
theorem acceptor_busWrite (s : State) (addr v addr' : Word) (size size' : AccessSize) :
    (s.busWrite addr size v).acceptor addr' size' =
      (s.acceptor addr' size').map fun d => if d.accepts addr size then d.localWrite (d.offset addr) size v else d := by
  unfold State.acceptor
  rw [busWrite_devices, writeAccepting, List.find?_map]
  congr 1
  congr 1
  funext d
  simp only [Function.comp]
  split
  · exact Device.accepts_congr (by simp) _ _
  · rfl

/-- The bytes just written read back as the low bytes of the value (R42, R50). -/
theorem extend_readBytes_writeBytes (m : Memory) (off : Nat) (size : AccessSize) (sg : Bool) (v : Word) :
    extend size sg ((m.writeBytes off v size.bytes).readBytes off size.bytes) = extend size sg v := by
  have key : ∀ i, i < 8 * size.bytes → i < 32 →
      ((m.writeBytes off v size.bytes).readBytes off size.bytes).getLsbD i = v.getLsbD i := by
    intro i hi h32
    rw [Memory.getLsbD_readBytes _ _ _ h32, Memory.read_writeBytes_in _ _ _ (by omega)]
    simp [hi, Nat.mod_lt]
    rw [Nat.div_add_mod]
  generalize (m.writeBytes off v size.bytes).readBytes off size.bytes = w at key
  cases size <;> simp [AccessSize.bytes] at key
  · have : w.setWidth 8 = v.setWidth 8 := by
      apply BitVec.eq_of_getLsbD_eq
      intro i hi
      simp [hi, key i hi (by omega)]
    simp only [extend, this]
  · have : w.setWidth 16 = v.setWidth 16 := by
      apply BitVec.eq_of_getLsbD_eq
      intro i hi
      simp [hi, key i hi (by omega)]
    simp only [extend, this]
  · have : w = v := by
      apply BitVec.eq_of_getLsbD_eq
      intro i hi
      exact key i hi
    simp only [extend, this]

/-! ## Configuration and canonical form -/

theorem shape_congr {s t : State} (hn : t.nregs = s.nregs) (h : t.devices.map Device.range = s.devices.map Device.range) :
    t.shape = s.shape := by
  have : (t.devices.map fun d => (d.first, d.last)) = s.devices.map fun d => (d.first, d.last) := h
  simp [State.shape, hn, this]

theorem range_writeAccepting (addr : Word) (size : AccessSize) (v : Word) (ds : List Device) :
    (writeAccepting addr size v ds).map Device.range = ds.map Device.range := by
  simp only [writeAccepting, List.map_map]
  apply List.map_congr_left
  intro d _
  simp only [Function.comp]
  split <;> simp

theorem wf_writeAccepting {ds : List Device} (h : ds.all Device.wf = true) (addr : Word) (size : AccessSize) (v : Word) :
    (writeAccepting addr size v ds).all Device.wf = true := by
  simp only [writeAccepting, List.all_map, List.all_eq_true, Function.comp] at h ⊢
  intro d hd
  split
  · exact Device.wf_localWrite (h d hd) _ _ _
  · exact h d hd

theorem all_wf_congr {ds ds' : List Device} (h : ds'.map Device.wf = ds.map Device.wf) :
    ds'.all Device.wf = ds.all Device.wf := by
  have key : ∀ l : List Device, l.all Device.wf = (l.map Device.wf).all id := by
    intro l; simp [List.all_map]
  rw [key, key, h]

/-- Masking a pc value makes it aligned (R19). -/
@[simp] theorem aligned_alignPc (v : Word) : aligned (alignPc v) = true := by
  unfold aligned alignPc
  rw [beq_iff_eq]
  apply BitVec.eq_of_getLsbD_eq
  intro i hi
  have : i = 0 ∨ i = 1 := by omega
  rcases this with rfl | rfl <;> simp

/-- An aligned value is what masking leaves (R19). -/
theorem alignPc_of_aligned {v : Word} (h : aligned v = true) : alignPc v = v := by
  unfold aligned at h
  rw [beq_iff_eq] at h
  have hb : ∀ i, i < 2 → v.getLsbD i = false := by
    intro i hi
    have := congrArg (fun x => x.getLsbD i) h
    simpa [hi] using this
  apply BitVec.eq_of_getLsbD_eq
  intro i hi
  unfold alignPc
  rw [BitVec.getLsbD_and]
  by_cases h2 : i < 2
  · simp [hb i h2]
  · have : (0xFFFFFFFC#32).getLsbD i = true := by
      have hall : ∀ j : Fin 32, 2 ≤ j.val → (0xFFFFFFFC#32).getLsbD j.val = true := by decide
      exact hall ⟨i, hi⟩ (Nat.le_of_not_lt h2)
    simp [this]

end Sys2Proof.Machine
end

