-- ==== Sys2Proof/Laws/Encoding.lean ====
section
/-! SUPPORT. The word the encoder makes for each format, as its fields side by side (30_encoding.md R62, R71), and the fields of a
word so written. -/

namespace Sys2Proof

/-! ## The word of each format -/

theorem encodeRow_opReg (f3 : BitVec 3) (f7 : BitVec 7) (rd rs1 rs2 : RegIdx) (imm : Word) :
    encodeRow (.opReg f3 f7) rd rs1 rs2 imm = f7 ++ rs2 ++ rs1 ++ f3 ++ rd ++ 0x33#7 := by
  apply BitVec.eq_of_getLsbD_eq
  intro i hi
  simp only [encodeRow, Row.opReg, encodeImm, isShiftImm, formatOf, slices, BitVec.getLsbD_or, BitVec.getLsbD_append,
    BitVec.getLsbD_shiftLeft, BitVec.getLsbD_setWidth, Option.getD]
  interval_cases i <;> simp

theorem encodeRow_I {op : BitVec 7} {f3 : BitVec 3} (h : formatOf op = some .I) (hs : isShiftImm op f3 = false)
    (rd rs1 : RegIdx) (imm : Word) :
    encodeRow (.op3 op f3) rd rs1 0 imm = imm.extractLsb' 0 12 ++ rs1 ++ f3 ++ rd ++ op := by
  apply BitVec.eq_of_getLsbD_eq
  intro i hi
  simp only [encodeRow, Row.op3, encodeImm, h, hs, slices, List.foldl, BitVec.getLsbD_or, BitVec.getLsbD_append,
    BitVec.getLsbD_shiftLeft, BitVec.getLsbD_setWidth, Option.getD, encodeSlice, unsignedSlice, BitVec.getLsbD_extractLsb']
  interval_cases i <;> simp

theorem encodeRow_shift {f3 : BitVec 3} (hs : isShiftImm 0x13 f3 = true) (f7 : BitVec 7) (rd rs1 : RegIdx) (imm : Word) :
    encodeRow (.shift f3 f7) rd rs1 0 imm = f7 ++ imm.extractLsb' 0 5 ++ rs1 ++ f3 ++ rd ++ 0x13#7 := by
  apply BitVec.eq_of_getLsbD_eq
  intro i hi
  simp only [encodeRow, Row.shift, encodeImm, hs, if_true, BitVec.getLsbD_or, BitVec.getLsbD_append,
    BitVec.getLsbD_shiftLeft, BitVec.getLsbD_setWidth, Option.getD, unsignedSlice, BitVec.getLsbD_extractLsb']
  interval_cases i <;> simp

theorem encodeRow_S (f3 : BitVec 3) (rs1 rs2 : RegIdx) (imm : Word) :
    encodeRow (.op3 0x23 f3) 0 rs1 rs2 imm =
      imm.extractLsb' 5 7 ++ rs2 ++ rs1 ++ f3 ++ imm.extractLsb' 0 5 ++ 0x23#7 := by
  apply BitVec.eq_of_getLsbD_eq
  intro i hi
  simp only [encodeRow, Row.op3, encodeImm, isShiftImm, formatOf, slices, BitVec.getLsbD_or, BitVec.getLsbD_append,
    BitVec.getLsbD_shiftLeft, BitVec.getLsbD_setWidth, Option.getD, encodeSlice, unsignedSlice, BitVec.getLsbD_extractLsb']
  interval_cases i <;> simp

theorem encodeRow_B (f3 : BitVec 3) (rs1 rs2 : RegIdx) (imm : Word) :
    encodeRow (.op3 0x63 f3) 0 rs1 rs2 imm =
      (imm.extractLsb' 12 1 ++ imm.extractLsb' 5 6) ++ rs2 ++ rs1 ++ f3 ++
        (imm.extractLsb' 1 4 ++ imm.extractLsb' 11 1) ++ 0x63#7 := by
  apply BitVec.eq_of_getLsbD_eq
  intro i hi
  simp only [encodeRow, Row.op3, encodeImm, isShiftImm, formatOf, slices, BitVec.getLsbD_or, BitVec.getLsbD_append,
    BitVec.getLsbD_shiftLeft, BitVec.getLsbD_setWidth, Option.getD, encodeSlice, unsignedSlice, BitVec.getLsbD_extractLsb']
  interval_cases i <;> simp

theorem encodeRow_U {op : BitVec 7} (h : formatOf op = some .U) (hs : isShiftImm op 0 = false) (rd : RegIdx) (imm : Word) :
    encodeRow (.op op) rd 0 0 imm = imm.extractLsb' 12 20 ++ rd ++ op := by
  apply BitVec.eq_of_getLsbD_eq
  intro i hi
  simp only [encodeRow, Row.op, encodeImm, hs, h, slices, List.foldl, BitVec.getLsbD_or, BitVec.getLsbD_append,
    BitVec.getLsbD_shiftLeft, BitVec.getLsbD_setWidth, Option.getD, encodeSlice, unsignedSlice, BitVec.getLsbD_extractLsb']
  interval_cases i <;> simp

theorem encodeRow_J (rd : RegIdx) (imm : Word) :
    encodeRow (.op 0x6F) rd 0 0 imm =
      (imm.extractLsb' 20 1 ++ imm.extractLsb' 1 10 ++ imm.extractLsb' 11 1 ++ imm.extractLsb' 12 8) ++ rd ++ 0x6F#7 := by
  apply BitVec.eq_of_getLsbD_eq
  intro i hi
  simp only [encodeRow, Row.op, encodeImm, isShiftImm, formatOf, slices, BitVec.getLsbD_or, BitVec.getLsbD_append,
    BitVec.getLsbD_shiftLeft, BitVec.getLsbD_setWidth, Option.getD, encodeSlice, unsignedSlice, BitVec.getLsbD_extractLsb']
  interval_cases i <;> simp

/-! ## The fields of a word written as fields -/

theorem opcodeOf_append (x : BitVec 25) (op : BitVec 7) : opcodeOf (x ++ op) = op := by
  apply BitVec.eq_of_getLsbD_eq
  intro i hi
  simp only [opcodeOf, BitVec.getLsbD_extractLsb', BitVec.getLsbD_append]
  interval_cases i <;> simp

theorem rdOf_append (x : BitVec 20) (rd : RegIdx) (op : BitVec 7) : rdOf (x ++ rd ++ op) = rd := by
  apply BitVec.eq_of_getLsbD_eq
  intro i hi
  simp only [rdOf, BitVec.getLsbD_extractLsb', BitVec.getLsbD_append]
  interval_cases i <;> simp

theorem funct3Of_append (x : BitVec 17) (f3 : BitVec 3) (rd : RegIdx) (op : BitVec 7) :
    funct3Of (x ++ f3 ++ rd ++ op) = f3 := by
  apply BitVec.eq_of_getLsbD_eq
  intro i hi
  simp only [funct3Of, BitVec.getLsbD_extractLsb', BitVec.getLsbD_append]
  interval_cases i <;> simp

theorem rs1Of_append (x : BitVec 12) (rs1 : RegIdx) (f3 : BitVec 3) (rd : RegIdx) (op : BitVec 7) :
    rs1Of (x ++ rs1 ++ f3 ++ rd ++ op) = rs1 := by
  apply BitVec.eq_of_getLsbD_eq
  intro i hi
  simp only [rs1Of, BitVec.getLsbD_extractLsb', BitVec.getLsbD_append]
  interval_cases i <;> simp

theorem rs2Of_append (x : BitVec 7) (rs2 rs1 : RegIdx) (f3 : BitVec 3) (rd : RegIdx) (op : BitVec 7) :
    rs2Of (x ++ rs2 ++ rs1 ++ f3 ++ rd ++ op) = rs2 := by
  apply BitVec.eq_of_getLsbD_eq
  intro i hi
  simp only [rs2Of, BitVec.getLsbD_extractLsb', BitVec.getLsbD_append]
  interval_cases i <;> simp

theorem funct7Of_append (f7 : BitVec 7) (rs2 rs1 : RegIdx) (f3 : BitVec 3) (rd : RegIdx) (op : BitVec 7) :
    funct7Of (f7 ++ rs2 ++ rs1 ++ f3 ++ rd ++ op) = f7 := by
  apply BitVec.eq_of_getLsbD_eq
  intro i hi
  simp only [funct7Of, BitVec.getLsbD_extractLsb', BitVec.getLsbD_append]
  interval_cases i <;> simp

/-! ## The word of a row matches the row (R69, R71) -/

theorem matches_of_opcode {w : Word} {op : BitVec 7} (ho : opcodeOf w = op) : (Row.op op).matches w = true := by
  simp [Row.matches, Row.op, fieldMatches, ho]

theorem matches_of_funct3 {w : Word} {op : BitVec 7} {f3 : BitVec 3} (ho : opcodeOf w = op) (h3 : funct3Of w = f3) :
    (Row.op3 op f3).matches w = true := by
  simp [Row.matches, Row.op3, fieldMatches, ho, h3]

theorem matches_of_funct7 {w : Word} {op : BitVec 7} {f3 : BitVec 3} {f7 : BitVec 7} (ho : opcodeOf w = op)
    (h3 : funct3Of w = f3) (h7 : funct7Of w = f7) :
    (Row.mk op (some f3) (some f7) none none none).matches w = true := by
  simp [Row.matches, fieldMatches, ho, h3, h7]

theorem matches_opReg (f3 : BitVec 3) (f7 : BitVec 7) (rd rs1 rs2 : RegIdx) (imm : Word) :
    (Row.opReg f3 f7).matches (encodeRow (.opReg f3 f7) rd rs1 rs2 imm) = true := by
  rw [encodeRow_opReg]
  exact matches_of_funct7 (opcodeOf_append _ _) (funct3Of_append _ _ _ _) (funct7Of_append _ _ _ _ _ _)

theorem matches_I {op : BitVec 7} {f3 : BitVec 3} (h : formatOf op = some .I) (hs : isShiftImm op f3 = false)
    (rd rs1 : RegIdx) (imm : Word) : (Row.op3 op f3).matches (encodeRow (.op3 op f3) rd rs1 0 imm) = true := by
  rw [encodeRow_I h hs]
  exact matches_of_funct3 (opcodeOf_append _ _) (funct3Of_append _ _ _ _)

theorem matches_shift {f3 : BitVec 3} (hs : isShiftImm 0x13 f3 = true) (f7 : BitVec 7) (rd rs1 : RegIdx) (imm : Word) :
    (Row.shift f3 f7).matches (encodeRow (.shift f3 f7) rd rs1 0 imm) = true := by
  rw [encodeRow_shift hs]
  exact matches_of_funct7 (opcodeOf_append _ _) (funct3Of_append _ _ _ _) (funct7Of_append _ _ _ _ _ _)

theorem matches_S (f3 : BitVec 3) (rs1 rs2 : RegIdx) (imm : Word) :
    (Row.op3 0x23 f3).matches (encodeRow (.op3 0x23 f3) 0 rs1 rs2 imm) = true := by
  rw [encodeRow_S]
  exact matches_of_funct3 (opcodeOf_append _ _) (funct3Of_append _ _ _ _)

theorem matches_B (f3 : BitVec 3) (rs1 rs2 : RegIdx) (imm : Word) :
    (Row.op3 0x63 f3).matches (encodeRow (.op3 0x63 f3) 0 rs1 rs2 imm) = true := by
  rw [encodeRow_B]
  exact matches_of_funct3 (opcodeOf_append _ _) (funct3Of_append _ _ _ _)

theorem matches_U {op : BitVec 7} (h : formatOf op = some .U) (hs : isShiftImm op 0 = false) (rd : RegIdx) (imm : Word) :
    (Row.op op).matches (encodeRow (.op op) rd 0 0 imm) = true := by
  rw [encodeRow_U h hs]
  exact matches_of_opcode (opcodeOf_append _ _)

theorem matches_J (rd : RegIdx) (imm : Word) : (Row.op 0x6F).matches (encodeRow (.op 0x6F) rd 0 0 imm) = true := by
  rw [encodeRow_J]
  exact matches_of_opcode (opcodeOf_append _ _)

/-! ## What decoding gives -/

/-- A word that decodes to an instruction has a record that stands for it (R69). -/
theorem instrOfFields_of_decode {w : Word} {i : Instr} (h : decode w = .ok i) :
    instrOfFields (decodeRecord w).toInstrFields = some i := by
  unfold decode at h
  split at h
  · rename_i h'
    cases h
    exact h'
  · cases h

/-- A record that stands for an instruction has its name. -/
theorem name_of_instrOfFields {f : InstrFields} {i : Instr} (h : instrOfFields f = some i) : f.name = some i.name := by
  unfold instrOfFields at h
  cases hn : f.name with
  | none => rw [hn] at h; cases h
  | some m =>
    rw [hn] at h
    cases m <;> (simp only at h; replace h := Option.some.inj h; subst h; rfl)

/-- A word is rejected exactly when it matches no row (R69). -/
theorem decode_of_invalid {w : Word} (h : mnemonicOf w = none) : decode w = .error (.invalid w) := by
  unfold decode instrOfFields
  rw [show (decodeRecord w).name = none from h]

theorem mnemonicOf_of_reject {w : Word} {e : DecodeReject} (h : decode w = .error e) : mnemonicOf w = none := by
  unfold decode at h
  split at h
  · cases h
  · rename_i h'
    cases hm : mnemonicOf w with
    | none => rfl
    | some m =>
      unfold instrOfFields at h'
      rw [show (decodeRecord w).name = some m from hm] at h'
      cases m <;> cases h'

end Sys2Proof
end

