-- ==== Sys2Proof/Laws/Exec.lean ====
section
/-! SUPPORT. What each shared operation of the meanings can do, said once: where an instruction ends, and what the shapes of
instructions (upper immediate, register-immediate, register-register, branch, jump, load, store) do when they complete. -/

namespace Sys2Proof.Machine

/-! ## The end of an instruction -/

/-- UpdatePC of a state that differs from `s` in nothing the interrupt logic reads ends as `Advances` says (R96, R150, R151). -/
theorem advances_updatePC {s u : State} (hl : u.irqLine = s.irqLine) (hi : u.irqState = s.irqState)
    (hm : u.mepc = s.mepc) : Advances s (u.updatePC false) u.nextPc := by
  have ha : u.acceptInterrupt = (s.irqLine && !s.irqState) := by simp [State.acceptInterrupt, hl, hi]
  unfold Advances
  cases h : u.acceptInterrupt with
  | true =>
    obtain ⟨h1, h2, h3⟩ := updatePC_of_accept u false h
    rw [h] at ha
    rw [if_pos ha.symm]
    exact ⟨h2, h1, h3⟩
  | false =>
    obtain ⟨h1, h2, h3⟩ := updatePC_of_continue u h
    rw [h] at ha
    rw [if_neg (by simp [← ha])]
    exact ⟨h1, h2.trans hm, h3.trans hi⟩

/-- What the retirement of an instruction whose effects left `u` gives, when `u` agrees with the state `s` before the
instruction in all a quiet instruction leaves alone. -/
theorem retire_quiet {s u : State} (taken : Bool) (hd : u.devices = s.devices) (hpc : u.pc = s.pc) (hm : u.mepc = s.mepc)
    (hi : u.irqState = s.irqState) (hb : u.busError = s.busError) (hl : u.loadStoreError = s.loadStoreError)
    (hfd : u.fetchData = s.fetchData) (hfe : u.fetchError = s.fetchError) (hin : u.instr = s.instr) (hdp : u.dp = s.dp)
    (hn : u.nregs = s.nregs) :
    ∃ t, u.retire taken = .next t ∧ t.regs = u.regs ∧ Advances s t (if taken then u.aluResult else s.pc + 4) ∧
      QuietFrame s t := by
  refine ⟨_, retire_eq u taken, by simp, ?_, ?_⟩
  · have := advances_updatePC (s := s) (u := u.setTaken taken) (by simp [State.irqLine, hd]) hi hm
    simpa [State.nextPc, hpc] using this
  · refine ⟨memoryKept_of_view ?_, ?_, ?_⟩
    · simp [hd, Function.comp_def]
    · simp [hd]
    · simp [FetchLatchesKept, hb, hl, hfd, hfe, hin, hdp, hn]

/-- A quiet instruction that writes a register. -/
theorem completesWriting_of {i : Instr} {s u : State} {rd : RegIdx} {v next : Word} {taken : Bool}
    (he : exec i s = (u.writeReg rd v).retire taken) (hr : u.regs = s.regs)
    (hd : u.devices = s.devices) (hpc : u.pc = s.pc) (hm : u.mepc = s.mepc)
    (hi : u.irqState = s.irqState) (hb : u.busError = s.busError) (hl : u.loadStoreError = s.loadStoreError)
    (hfd : u.fetchData = s.fetchData) (hfe : u.fetchError = s.fetchError) (hin : u.instr = s.instr) (hdp : u.dp = s.dp)
    (hn : u.nregs = s.nregs) (hnext : next = if taken then u.aluResult else s.pc + 4) :
    CompletesWriting i s rd v next := by
  obtain ⟨t, ht, hregs, hadv, hq⟩ := retire_quiet (s := s) (u := u.writeReg rd v) taken
    (by simp [hd]) (by simp [hpc]) (by simp [hm]) (by simp [hi]) (by simp [hb]) (by simp [hl]) (by simp [hfd])
    (by simp [hfe]) (by simp [hin]) (by simp [hdp]) (by simp [hn])
  refine ⟨t, he.trans ht, ?_, ?_, ?_, hq⟩
  · rw [readReg_congr hregs, readReg_writeReg_self]
  · intro r hne
    rw [readReg_congr hregs, readReg_writeReg_ne u v hne, readReg_congr hr]
  · simpa [hnext] using hadv

/-! ## The shapes -/

/-- Upper-immediate instructions (R102, R103). -/
theorem completes_upperImmediate {i : Instr} {s : State} {rd : RegIdx} {v : Word}
    (he : exec i s = upperImmediate v rd s) (hrd : s.hasReg rd = true) : CompletesWriting i s rd v (s.pc + 4) := by
  apply completesWriting_of (taken := false)
    (u := s.latchCompute s.instr.rs1 s.instr.rs2 v)
  · rw [he, upperImmediate, guardRegs_of_all (by simpa using hrd)]
  all_goals simp

/-- Register-immediate instructions (R104 to R112). -/
theorem completes_opImmediate {i : Instr} {s : State} {op : Word → Word → Word} {rd rs1 : RegIdx} {imm : Word}
    (he : exec i s = opImmediate op rd rs1 imm s) (hrd : s.hasReg rd = true) (h1 : s.hasReg rs1 = true) :
    CompletesWriting i s rd (op (s.readReg rs1) imm) (s.pc + 4) := by
  apply completesWriting_of (taken := false)
    (u := s.latchCompute rs1 s.instr.rs2 (op (s.readReg rs1) imm))
  · rw [he, opImmediate, guardRegs_of_all (by simp [hrd, h1])]
  all_goals simp

/-- Register-register instructions (R113 to R122). -/
theorem completes_opRegister {i : Instr} {s : State} {op : Word → Word → Word} {rd rs1 rs2 : RegIdx}
    (he : exec i s = opRegister op rd rs1 rs2 s) (hrd : s.hasReg rd = true) (h1 : s.hasReg rs1 = true)
    (h2 : s.hasReg rs2 = true) : CompletesWriting i s rd (op (s.readReg rs1) (s.readReg rs2)) (s.pc + 4) := by
  apply completesWriting_of (taken := false)
    (u := s.latchCompute rs1 rs2 (op (s.readReg rs1) (s.readReg rs2)))
  · rw [he, opRegister, guardRegs_of_all (by simp [hrd, h1, h2])]
  all_goals simp

/-- Conditional branches (42_control_transfer.md section 2). -/
theorem completes_branchIf {i : Instr} {s : State} {cond : Word → Word → Bool} {rs1 rs2 : RegIdx} {imm : Word}
    (he : exec i s = branchIf cond rs1 rs2 imm s) (h1 : s.hasReg rs1 = true) (h2 : s.hasReg rs2 = true) :
    CompletesQuietly i s (if cond (s.readReg rs1) (s.readReg rs2) then s.pc + imm else s.pc + 4) := by
  obtain ⟨t, ht, hregs, hadv, hq⟩ := retire_quiet (s := s)
    (u := s.latchCompute rs1 rs2 (s.pc + imm)) (cond (s.readReg rs1) (s.readReg rs2))
    (by simp) (by simp) (by simp) (by simp) (by simp) (by simp) (by simp) (by simp) (by simp) (by simp) (by simp)
  refine ⟨t, ?_, fun r => readReg_congr (by simp [hregs]) r, hadv, hq⟩
  rw [he, branchIf, guardRegs_of_all (by simp [h1, h2])]
  exact ht

/-! ## Loads and stores -/

/-- What a load's bus read leaves of the state before the instruction: everything but the latches of Compute, the error bit, the
device that answered and the count of draws. -/
theorem loadRead_keeps (size : AccessSize) (sg : Bool) (rs1 : RegIdx) (imm : Word) (s : State) :
    let b := (loadRead size sg rs1 imm s).2
    b.regs = s.regs ∧ b.pc = s.pc ∧ b.mepc = s.mepc ∧ b.irqState = s.irqState ∧ b.loadStoreError = s.loadStoreError ∧
    b.fetchData = s.fetchData ∧ b.fetchError = s.fetchError ∧ b.instr = s.instr ∧ b.dp = s.dp ∧ b.nregs = s.nregs ∧
    b.irqLine = s.irqLine ∧ b.devices.map Device.view = s.devices.map Device.view := by
  refine ⟨?_, ?_, ?_, ?_, ?_, ?_, ?_, ?_, ?_, ?_, ?_, ?_⟩
  iterate 10 simp [loadRead]
  · rw [loadRead, irqLine_busRead]
    simp [State.irqLine]
  · rw [loadRead, view_busRead]
    simp

/-- The instructions of which `loadOf` speaks are loads of that shape. -/
theorem exec_of_loadOf {i : Instr} {size : AccessSize} {sg : Bool} {rd rs1 : RegIdx} {imm : Word}
    (h : loadOf i = some (size, sg, rd, rs1, imm)) (s : State) : exec i s = loadFrom size sg rd rs1 imm s := by
  cases i <;> simp [loadOf] at h <;> obtain ⟨rfl, rfl, rfl, rfl, rfl⟩ := h <;> rfl

/-- The instructions of which `storeOf` speaks are stores of that shape. -/
theorem exec_of_storeOf {i : Instr} {size : AccessSize} {rs1 rs2 : RegIdx} {imm : Word}
    (h : storeOf i = some (size, rs1, rs2, imm)) (s : State) : exec i s = storeTo size rs1 rs2 imm s := by
  cases i <;> simp [storeOf] at h <;> obtain ⟨rfl, rfl, rfl, rfl⟩ := h <;> rfl

/-- A load's read of a `Memory` device (R42). -/
theorem loadRead_of_memory {s : State} {size : AccessSize} (sg : Bool) {rs1 : RegIdx} {imm : Word} {d : Device}
    {cells initial : Memory} (ha : s.acceptor (effectiveAddress s rs1 imm) size = some d)
    (hk : d.kind = .memory cells initial) :
    (loadRead size sg rs1 imm s).1 =
        extend size sg (cells.readBytes (d.offset (effectiveAddress s rs1 imm)) size.bytes) ∧
      (loadRead size sg rs1 imm s).2.busError = false ∧ (loadRead size sg rs1 imm s).2.devices = s.devices := by
  have : loadRead size sg rs1 imm s = _ :=
    busRead_of_memory (s := s.latchCompute rs1 s.instr.rs2 (effectiveAddress s rs1 imm)) sg
      ((acceptor_congr (by simp) _ _).trans ha) hk
  exact ⟨congrArg Prod.fst this, congrArg (fun r => r.2.busError) this,
    (congrArg (fun r => r.2.devices) this).trans (by simp)⟩

/-- A load's read that no device accepts (R43). -/
theorem loadRead_of_none {s : State} {size : AccessSize} (sg : Bool) {rs1 : RegIdx} {imm : Word}
    (ha : s.acceptor (effectiveAddress s rs1 imm) size = none) :
    (loadRead size sg rs1 imm s).1 = 0 ∧ (loadRead size sg rs1 imm s).2.busError = true ∧
      (loadRead size sg rs1 imm s).2.devices = s.devices := by
  have : loadRead size sg rs1 imm s = _ :=
    busRead_of_none (s := s.latchCompute rs1 s.instr.rs2 (effectiveAddress s rs1 imm)) sg
      ((acceptor_congr (by simp) _ _).trans ha)
  exact ⟨congrArg Prod.fst this, congrArg (fun r => r.2.busError) this,
    (congrArg (fun r => r.2.devices) this).trans (by simp)⟩

/-- What a load does once the bus has answered (R131 to R135). -/
theorem loadFrom_spec {s : State} {size : AccessSize} {sg : Bool} {rd rs1 : RegIdx} {imm : Word}
    (hrd : s.hasReg rd = true) (h1 : s.hasReg rs1 = true) :
    ∃ t, loadFrom size sg rd rs1 imm s = .next t ∧
      t.readReg rd = (if rd = 0 then 0 else (loadRead size sg rs1 imm s).1) ∧
      t.devices = (loadRead size sg rs1 imm s).2.devices.map Device.nextSample ∧
      t.busError = (loadRead size sg rs1 imm s).2.busError ∧
      t.loadStoreError = (loadRead size sg rs1 imm s).2.busError ∧
      OtherRegsKept s t rd ∧ Advances s t (s.pc + 4) ∧ MemoryKept s t ∧ FetchLatchesKept s t := by
  obtain ⟨hr, hpc, hm, hi, -, hfd, hfe, hin, hdp, hn, hline, hview⟩ := loadRead_keeps size sg rs1 imm s
  have he : loadFrom size sg rd rs1 imm s = State.retire
      ((loadRead size sg rs1 imm s).2.captureError.writeReg rd (loadRead size sg rs1 imm s).1) false := by
    rw [loadFrom, guardRegs_of_all (by simp [hrd, h1])]
  rw [retire_eq] at he
  refine ⟨_, he, ?_, ?_, ?_, ?_, ?_, ?_, ?_, ?_⟩
  · rw [readReg_congr (updatePC_regs _ _)]
    exact readReg_writeReg_self _ rd _
  · simp
  · simp
  · simp
  · intro r hne
    rw [readReg_congr (updatePC_regs _ _)]
    exact (readReg_writeReg_ne _ _ hne).trans (readReg_congr hr r)
  · have := advances_updatePC (s := s)
      (u := ((loadRead size sg rs1 imm s).2.captureError.writeReg rd (loadRead size sg rs1 imm s).1).setTaken false)
      ((irqLine_congr (by simp)).trans hline) (by simpa using hi) (by simpa using hm)
    simpa [State.nextPc, hpc] using this
  · apply memoryKept_of_view
    simp [Function.comp_def, hview]
  · simp [FetchLatchesKept, hfd, hfe, hin, hdp, hn]

/-- What a store does (R136 to R138): the bus write, and nothing else but the latches and the advance. -/
theorem storeTo_spec {s : State} {size : AccessSize} {rs1 rs2 : RegIdx} {imm : Word}
    (h1 : s.hasReg rs1 = true) (h2 : s.hasReg rs2 = true) :
    ∃ t, storeTo size rs1 rs2 imm s = .next t ∧
      t.devices = (writeAccepting (effectiveAddress s rs1 imm) size (s.readReg rs2) s.devices).map Device.nextSample ∧
      t.busError = !(s.devices.any fun d => d.accepts (effectiveAddress s rs1 imm) size) ∧
      t.loadStoreError = t.busError ∧ t.regs = s.regs ∧ Advances s t (s.pc + 4) ∧ FetchLatchesKept s t := by
  have he : storeTo size rs1 rs2 imm s = State.retire
      (storeWrite size rs1 rs2 imm s).captureError false := by
    rw [storeTo, guardRegs_of_all (by simp [h1, h2])]
  rw [retire_eq] at he
  refine ⟨_, he, ?_, ?_, ?_, ?_, ?_, ?_⟩
  · simp [storeWrite]
  · simp [storeWrite]
  · simp
  · simp [storeWrite]
  · have := advances_updatePC (s := s)
      (u := (storeWrite size rs1 rs2 imm s).captureError.setTaken false)
      (by
        refine (irqLine_congr rfl).trans ((irqLine_busWrite _ _ _ _).trans ?_)
        simp [State.irqLine]) (by simp [storeWrite]) (by simp [storeWrite])
    simpa [State.nextPc, storeWrite] using this
  · simp [FetchLatchesKept, storeWrite]

end Sys2Proof.Machine
end

