-- ==== Sys2Proof/Laws/PerInstr.lean ====
section
/-! SUPPORT. One lemma per instruction: the word it is encoded as has the fixed fields of its row of the table (R68, R71). -/

namespace Sys2Proof.Laws.RowMatch

/-- The instruction's word has the value of its row of R68 at every specified position. -/
def Statement : Instr → Prop := fun i => (row i.name).matches (encode i) = true

theorem lui (rd : RegIdx) (imm : Word) : Statement (.lui rd imm) := matches_U (by decide) (by decide) rd imm
theorem auipc (rd : RegIdx) (imm : Word) : Statement (.auipc rd imm) := matches_U (by decide) (by decide) rd imm
theorem jal (rd : RegIdx) (imm : Word) : Statement (.jal rd imm) := matches_J rd imm
theorem jalr (rd rs1 : RegIdx) (imm : Word) : Statement (.jalr rd rs1 imm) := matches_I (by decide) (by decide) rd rs1 imm
theorem beq (rs1 rs2 : RegIdx) (imm : Word) : Statement (.beq rs1 rs2 imm) := matches_B _ rs1 rs2 imm
theorem bne (rs1 rs2 : RegIdx) (imm : Word) : Statement (.bne rs1 rs2 imm) := matches_B _ rs1 rs2 imm
theorem blt (rs1 rs2 : RegIdx) (imm : Word) : Statement (.blt rs1 rs2 imm) := matches_B _ rs1 rs2 imm
theorem bge (rs1 rs2 : RegIdx) (imm : Word) : Statement (.bge rs1 rs2 imm) := matches_B _ rs1 rs2 imm
theorem bltu (rs1 rs2 : RegIdx) (imm : Word) : Statement (.bltu rs1 rs2 imm) := matches_B _ rs1 rs2 imm
theorem bgeu (rs1 rs2 : RegIdx) (imm : Word) : Statement (.bgeu rs1 rs2 imm) := matches_B _ rs1 rs2 imm
theorem lb (rd rs1 : RegIdx) (imm : Word) : Statement (.lb rd rs1 imm) := matches_I (by decide) (by decide) rd rs1 imm
theorem lh (rd rs1 : RegIdx) (imm : Word) : Statement (.lh rd rs1 imm) := matches_I (by decide) (by decide) rd rs1 imm
theorem lw (rd rs1 : RegIdx) (imm : Word) : Statement (.lw rd rs1 imm) := matches_I (by decide) (by decide) rd rs1 imm
theorem lbu (rd rs1 : RegIdx) (imm : Word) : Statement (.lbu rd rs1 imm) := matches_I (by decide) (by decide) rd rs1 imm
theorem lhu (rd rs1 : RegIdx) (imm : Word) : Statement (.lhu rd rs1 imm) := matches_I (by decide) (by decide) rd rs1 imm
theorem sb (rs1 rs2 : RegIdx) (imm : Word) : Statement (.sb rs1 rs2 imm) := matches_S _ rs1 rs2 imm
theorem sh (rs1 rs2 : RegIdx) (imm : Word) : Statement (.sh rs1 rs2 imm) := matches_S _ rs1 rs2 imm
theorem sw (rs1 rs2 : RegIdx) (imm : Word) : Statement (.sw rs1 rs2 imm) := matches_S _ rs1 rs2 imm
theorem addi (rd rs1 : RegIdx) (imm : Word) : Statement (.addi rd rs1 imm) := matches_I (by decide) (by decide) rd rs1 imm
theorem slti (rd rs1 : RegIdx) (imm : Word) : Statement (.slti rd rs1 imm) := matches_I (by decide) (by decide) rd rs1 imm
theorem sltiu (rd rs1 : RegIdx) (imm : Word) : Statement (.sltiu rd rs1 imm) := matches_I (by decide) (by decide) rd rs1 imm
theorem xori (rd rs1 : RegIdx) (imm : Word) : Statement (.xori rd rs1 imm) := matches_I (by decide) (by decide) rd rs1 imm
theorem ori (rd rs1 : RegIdx) (imm : Word) : Statement (.ori rd rs1 imm) := matches_I (by decide) (by decide) rd rs1 imm
theorem andi (rd rs1 : RegIdx) (imm : Word) : Statement (.andi rd rs1 imm) := matches_I (by decide) (by decide) rd rs1 imm
theorem slli (rd rs1 : RegIdx) (imm : Word) : Statement (.slli rd rs1 imm) := matches_shift (by decide) _ rd rs1 imm
theorem srli (rd rs1 : RegIdx) (imm : Word) : Statement (.srli rd rs1 imm) := matches_shift (by decide) _ rd rs1 imm
theorem srai (rd rs1 : RegIdx) (imm : Word) : Statement (.srai rd rs1 imm) := matches_shift (by decide) _ rd rs1 imm
theorem add (rd rs1 rs2 : RegIdx) : Statement (.add rd rs1 rs2) := matches_opReg _ _ rd rs1 rs2 0
theorem sub (rd rs1 rs2 : RegIdx) : Statement (.sub rd rs1 rs2) := matches_opReg _ _ rd rs1 rs2 0
theorem sll (rd rs1 rs2 : RegIdx) : Statement (.sll rd rs1 rs2) := matches_opReg _ _ rd rs1 rs2 0
theorem slt (rd rs1 rs2 : RegIdx) : Statement (.slt rd rs1 rs2) := matches_opReg _ _ rd rs1 rs2 0
theorem sltu (rd rs1 rs2 : RegIdx) : Statement (.sltu rd rs1 rs2) := matches_opReg _ _ rd rs1 rs2 0
theorem xor (rd rs1 rs2 : RegIdx) : Statement (.xor rd rs1 rs2) := matches_opReg _ _ rd rs1 rs2 0
theorem srl (rd rs1 rs2 : RegIdx) : Statement (.srl rd rs1 rs2) := matches_opReg _ _ rd rs1 rs2 0
theorem sra (rd rs1 rs2 : RegIdx) : Statement (.sra rd rs1 rs2) := matches_opReg _ _ rd rs1 rs2 0
theorem or (rd rs1 rs2 : RegIdx) : Statement (.or rd rs1 rs2) := matches_opReg _ _ rd rs1 rs2 0
theorem and (rd rs1 rs2 : RegIdx) : Statement (.and rd rs1 rs2) := matches_opReg _ _ rd rs1 rs2 0
theorem mret : Statement .mret := by unfold Statement; decide

end Sys2Proof.Laws.RowMatch
end

