-- ==== Sys2Proof/Laws/Step.lean ====
section
/-! SUPPORT. Everything a step can do, said once: up to UpdatePC an instruction is underway (`Underway`: the pc, the return
register, the interrupt latch and the line are still those before it), and it ends with one UpdatePC. -/

namespace Sys2Proof.Machine

/-- What stays while an instruction runs, up to its UpdatePC. -/
structure Underway (s u : State) : Prop where
  pc : u.pc = s.pc
  mepc : u.mepc = s.mepc
  irqState : u.irqState = s.irqState
  nregs : u.nregs = s.nregs
  line : u.irqLine = s.irqLine
  ranges : u.devices.map Device.range = s.devices.map Device.range
  wf : s.devices.all Device.wf = true → u.devices.all Device.wf = true

theorem Underway.refl (s : State) : Underway s s := ⟨rfl, rfl, rfl, rfl, rfl, rfl, id⟩

theorem Underway.trans {s t u : State} (h : Underway s t) (h' : Underway t u) : Underway s u :=
  ⟨h'.pc.trans h.pc, h'.mepc.trans h.mepc, h'.irqState.trans h.irqState, h'.nregs.trans h.nregs, h'.line.trans h.line,
    h'.ranges.trans h.ranges, fun w => h'.wf (h.wf w)⟩

/-- An update that leaves the devices alone. -/
theorem Underway.of_devices {s u : State} (hd : u.devices = s.devices) (hpc : u.pc = s.pc) (hm : u.mepc = s.mepc)
    (hi : u.irqState = s.irqState) (hn : u.nregs = s.nregs) : Underway s u :=
  ⟨hpc, hm, hi, hn, irqLine_congr (by rw [hd]), by rw [hd], by rw [hd]; exact id⟩

theorem Underway.busRead (s : State) (addr : Word) (size : AccessSize) (sg : Bool) :
    Underway s (s.busRead addr size sg).2 :=
  ⟨by simp, by simp, by simp, by simp, by simp,
    busRead_map Device.range Device.range_localRead s addr size sg,
    fun h => (all_wf_congr (busRead_map Device.wf Device.wf_localRead s addr size sg)).trans h⟩

theorem Underway.busWrite (s : State) (addr : Word) (size : AccessSize) (v : Word) :
    Underway s (s.busWrite addr size v) :=
  ⟨by simp, by simp, by simp, by simp, by simp, range_writeAccepting addr size v s.devices,
    fun h => wf_writeAccepting h addr size v⟩

theorem Underway.writeReg (s : State) (r : RegIdx) (v : Word) : Underway s (s.writeReg r v) :=
  .of_devices (by simp) (by simp) (by simp) (by simp) (by simp)

theorem Underway.latchCompute (s : State) (a b : RegIdx) (v : Word) : Underway s (s.latchCompute a b v) :=
  .of_devices (by simp) (by simp) (by simp) (by simp) (by simp)

theorem Underway.captureError (s : State) : Underway s s.captureError := .of_devices rfl rfl rfl rfl rfl

theorem Underway.setTaken (s : State) (b : Bool) : Underway s (s.setTaken b) := .of_devices rfl rfl rfl rfl rfl

theorem retire_underway {s u t : State} {taken : Bool} (hu : Underway s u) (h : u.retire taken = .next t) :
    ∃ v, Underway s v ∧ t = v.updatePC false := by
  cases h
  exact ⟨_, hu.trans (.setTaken u taken), rfl⟩

/-- An instruction that has a next state ends with UpdatePC, and up to it was underway. -/
theorem exec_underway {i : Instr} {s t : State} (h : exec i s = .next t) :
    ∃ u, Underway s u ∧ t = u.updatePC (i == .mret) := by
  cases i
  case mret =>
    cases h
    exact ⟨_, .setTaken s false, rfl⟩
  case beq | bne | blt | bge | bltu | bgeu => exact retire_underway (.latchCompute _ _ _ _) (guardRegs_next h).2
  case sb | sh | sw =>
    exact retire_underway (.trans (.trans (.latchCompute _ _ _ _) (.busWrite _ _ _ _)) (.captureError _))
      (guardRegs_next h).2
  case lb | lh | lw | lbu | lhu =>
    exact retire_underway
      (.trans (.trans (.trans (.latchCompute _ _ _ _) (.busRead _ _ _ _)) (.captureError _)) (.writeReg _ _ _))
      (guardRegs_next h).2
  all_goals exact retire_underway (.trans (.latchCompute _ _ _ _) (.writeReg _ _ _)) (guardRegs_next h).2

/-! ## Fetch and Decode -/

theorem underway_fetchStage (s : State) : Underway s (fetchStage s) :=
  ((Underway.setTaken s false).trans (.busRead _ _ _ _)).trans (.of_devices rfl rfl rfl rfl rfl)

theorem underway_decodeStage (s : State) : Underway s (decodeStage s) := .of_devices rfl rfl rfl rfl rfl

theorem underway_compute (s : State) : Underway s (computeNext (aluStage (s.latchOperands s.instr.rs1 s.instr.rs2))) := by
  unfold computeNext
  split
  all_goals exact .of_devices (by simp [aluStage]) (by simp [aluStage]) (by simp [aluStage]) (by simp [aluStage]) (by simp [aluStage])

theorem underway_compareStage (s : State) : Underway s (compareStage s) := .of_devices rfl rfl rfl rfl rfl

theorem underway_writeBack (s : State) : Underway s (writeBack s) := by
  have hl : ∀ (size : AccessSize) (sg : Bool), Underway s (loadStage s size sg) := fun size sg =>
    .trans (.trans (.busRead s s.aluResult size sg) (.captureError _)) (.writeReg _ _ _)
  have hs : ∀ size : AccessSize, Underway s (storeStage s size) := fun size =>
    .trans (.busWrite s s.aluResult size s.x2v) (.captureError _)
  unfold writeBack
  cases s.dp.wbMem
  case none => exact .refl s
  case r | pcPlus => exact .writeReg _ _ _
  case sb | sh | sw => exact hs _
  all_goals exact hl _ _

theorem underway_loadStoreStage (s : State) : Underway s (loadStoreStage s) :=
  (underway_writeBack s).trans (.of_devices rfl rfl rfl rfl rfl)

/-- How many stages at most lie between a stage and the end of its instruction, itself included (R87). -/
def Stage.left : Stage → Nat
  | .fetch => 5
  | .decode => 4
  | .compute => 3
  | .compare => 2
  | .loadStoreWriteBack => 2
  | .updatePC => 1

/-- A stage other than UpdatePC leaves the instruction underway, at a later stage; UpdatePC ends it (R87). -/
theorem stageStep_cases {s t : State} (h : stageStep s = .next t) :
    (s.stage ≠ .updatePC ∧ Underway s t ∧ t.stage ≠ .fetch ∧ t.stage.left < s.stage.left) ∨
      (s.stage = .updatePC ∧ t = updatePcStage s) := by
  unfold stageStep at h
  cases hs : s.stage <;> simp only [hs] at h
  · cases h
    exact .inl ⟨by simp, underway_fetchStage s, by simp [fetchStage], by simp [fetchStage, Stage.left]⟩
  · cases h
    refine .inl ⟨by simp, underway_decodeStage s, ?_, ?_⟩ <;> simp only [decodeStage] <;> split <;> simp [Stage.left]
  · cases (guardRegs_next h).2
    have key : ∀ u : State, (computeNext u).stage = .compare ∨ (computeNext u).stage = .loadStoreWriteBack ∨
        (computeNext u).stage = .updatePC := by
      intro u
      unfold computeNext
      split
      · exact .inl rfl
      · split <;> [skip; split] <;> simp
    refine .inl ⟨by simp, underway_compute s, ?_, ?_⟩ <;>
      rcases key (aluStage (s.latchOperands s.instr.rs1 s.instr.rs2)) with h | h | h <;> simp [h, Stage.left]
  · cases h
    exact .inl ⟨by simp, underway_compareStage s, by simp [compareStage], by simp [compareStage, Stage.left]⟩
  · cases h
    exact .inl ⟨by simp, underway_loadStoreStage s, by simp [loadStoreStage], by simp [loadStoreStage, Stage.left]⟩
  · cases h
    exact .inr ⟨rfl, rfl⟩

/-- Running the stages to the boundary ends the instruction. -/
theorem runToBoundary_cases : ∀ {n : Nat} {s t : State}, s.stage.left ≤ n → runToBoundary n s = .next t →
    ∃ u, Underway s u ∧ u.stage = .updatePC ∧ t = updatePcStage u
  | 0, s, _, hn, _ => by cases hs : s.stage <;> simp [hs, Stage.left] at hn
  | n + 1, s, t, hn, h => by
    unfold runToBoundary at h
    cases he : stageStep s with
    | fault f => cases f
    | refused r => simp [he] at h
    | next v =>
      simp only [he] at h
      rcases stageStep_cases he with ⟨-, hu, hne, hlt⟩ | ⟨hs, hv⟩
      · rw [if_neg hne] at h
        obtain ⟨u, h1, h2, h3⟩ := runToBoundary_cases (by omega) h
        exact ⟨u, hu.trans h1, h2, h3⟩
      · have : v.stage = .fetch := by rw [hv]; rfl
        rw [if_pos this] at h
        cases h
        exact ⟨s, .refl s, hs, hv⟩

/-- Everything a step can do to the pc, the return register, the interrupt latch, the configuration and the canonical form: it
ends with one UpdatePC of a state that was underway since `s`. -/
theorem step_cases {s t : State} (h : step s = .next t) : ∃ u b, Underway s u ∧ t = u.updatePC b := by
  unfold step at h
  split at h
  · have hd := (underway_fetchStage s).trans (underway_decodeStage _)
    unfold instructionStep at h
    simp only at h
    split at h
    · obtain ⟨u, hu, ht⟩ := exec_underway h
      exact ⟨u, _, hd.trans hu, ht⟩
    · cases h
      exact ⟨_, _, hd.trans (.setTaken _ _), rfl⟩
  · rename_i hs
    obtain ⟨u, hu, -, ht⟩ := runToBoundary_cases (by cases hs' : s.stage <;> simp_all [Stage.left]) h
    exact ⟨u, _, hu, ht⟩

/-! ## A step at an instruction boundary -/

/-- Decode leaves the word that Fetch read. -/
theorem fetchData_decodeStage (s : State) :
    (decodeStage (fetchStage s)).fetchData = (s.busRead s.pc .word false).1 := by
  simp only [decodeStage, fetchStage]
  unfold State.busRead
  simp only [setTaken_draws, setTaken_devices]
  split <;> rfl

/-- At a boundary a step is the decoded instruction, or the no-op, at the state Fetch and Decode leave (R101). -/
theorem step_of_fetch {s : State} (hs : s.stage = .fetch) :
    step s =
      match decode (s.busRead s.pc .word false).1 with
      | .ok i => exec i (decodeStage (fetchStage s))
      | .error _ => execInvalid (decodeStage (fetchStage s)) := by
  rw [← fetchData_decodeStage]
  exact if_pos hs

/-- A fetch from a `Memory` device (R88). -/
theorem fetchStage_of_memory {s : State} {d : Device} {cells initial : Memory} (ha : s.acceptor s.pc .word = some d)
    (hk : d.kind = .memory cells initial) :
    fetchStage s =
      { s with
        branchTaken := false
        busError := false
        fetchData := cells.readBytes (d.offset s.pc) 4
        fetchError := false
        stage := .decode } := by
  have := busRead_of_memory (s := s.setTaken false) false ((acceptor_congr rfl _ _).trans ha) hk
  unfold fetchStage
  rw [setTaken_pc] at *
  rw [this]
  rfl

/-- A fetch that no device accepts (R88, R98). -/
theorem fetchStage_of_none {s : State} (ha : s.acceptor s.pc .word = none) :
    fetchStage s =
      { s with
        branchTaken := false
        busError := true
        fetchData := 0
        fetchError := true
        stage := .decode } := by
  have := busRead_of_none (s := s.setTaken false) false ((acceptor_congr rfl _ _).trans ha)
  unfold fetchStage
  rw [setTaken_pc] at *
  rw [this]
  rfl

end Sys2Proof.Machine
end

