-- ==== Sys2Proof/Laws/Stages.lean ====
section
/-! SUPPORT. Running the stages one by one: the updates of the stage and of the jump flag pass through every other update, and what
the last stages of an instruction come to. -/

namespace Sys2Proof.Machine

/-! ## Updates that pass through one another -/

theorem setStage_writeReg (s : State) (g : Stage) (r : RegIdx) (v : Word) :
    (s.setStage g).writeReg r v = (s.writeReg r v).setStage g := by
  unfold State.writeReg; split <;> rfl

theorem setTaken_writeReg (s : State) (b : Bool) (r : RegIdx) (v : Word) :
    (s.setTaken b).writeReg r v = (s.writeReg r v).setTaken b := by
  unfold State.writeReg; split <;> rfl

theorem setStage_busRead (s : State) (g : Stage) (addr : Word) (size : AccessSize) (sg : Bool) :
    (s.setStage g).busRead addr size sg = ((s.busRead addr size sg).1, (s.busRead addr size sg).2.setStage g) := by
  have h1 : (s.setStage g).draws = s.draws := rfl
  have h2 : (s.setStage g).devices = s.devices := rfl
  unfold State.busRead
  rw [h1, h2]
  split <;> rfl

theorem setTaken_busRead (s : State) (b : Bool) (addr : Word) (size : AccessSize) (sg : Bool) :
    (s.setTaken b).busRead addr size sg = ((s.busRead addr size sg).1, (s.busRead addr size sg).2.setTaken b) := by
  have h1 : (s.setTaken b).draws = s.draws := rfl
  have h2 : (s.setTaken b).devices = s.devices := rfl
  unfold State.busRead
  rw [h1, h2]
  split <;> rfl

theorem setStage_setTaken (s : State) (g : Stage) (b : Bool) : (s.setStage g).setTaken b = (s.setTaken b).setStage g := rfl

/-- The write-back depends on neither the stage nor the jump flag. -/
theorem writeBack_setStage_setTaken (s : State) (g : Stage) (b : Bool) :
    writeBack ((s.setTaken b).setStage g) = ((writeBack s).setTaken b).setStage g := by
  have hw : ∀ (t : State) (addr : Word) (size : AccessSize) (v : Word),
      ((t.setTaken b).setStage g).busWrite addr size v = ((t.busWrite addr size v).setTaken b).setStage g :=
    fun _ _ _ _ => rfl
  have hc : ∀ t : State, ((t.setTaken b).setStage g).captureError = (t.captureError.setTaken b).setStage g := fun _ => rfl
  unfold writeBack loadStage storeStage
  simp only [setStage_dp, setTaken_dp, setStage_instr, setTaken_instr, setStage_aluResult, setTaken_aluResult, setStage_pc,
    setTaken_pc, setStage_x2v, setTaken_x2v, setStage_writeReg, setTaken_writeReg, setStage_busRead, setTaken_busRead, hw, hc]
  cases s.dp.wbMem <;> rfl

theorem writeBack_instr (s : State) : (writeBack s).instr = s.instr := by
  unfold writeBack loadStage storeStage
  cases s.dp.wbMem <;> simp

/-! ## The stages that are left -/

theorem computeNext_stage_ne (s : State) : (computeNext s).stage ≠ .fetch := by
  unfold computeNext
  split <;> simp
  split <;> [skip; split] <;> simp

/-- From UpdatePC (R96). -/
theorem runToBoundary_updatePC {n : Nat} {s : State} (hs : s.stage = .updatePC) :
    runToBoundary (n + 1) s = .next (s.updatePC (s.instr.name == some .mret)) := by
  unfold runToBoundary stageStep
  simp [hs, updatePcStage]

/-- From LoadStoreWriteBack (R95). -/
theorem runToBoundary_loadStore {n : Nat} {s : State} (hs : s.stage = .loadStoreWriteBack)
    (hm : (s.instr.name == some .mret) = false) : runToBoundary (n + 2) s = .next ((writeBack s).updatePC false) := by
  rw [runToBoundary]
  unfold stageStep
  simp only [hs]
  have h : (loadStoreStage s).stage = .updatePC := rfl
  rw [if_neg (by rw [h]; decide), runToBoundary_updatePC h]
  simp only [loadStoreStage, updatePC_setStage, setStage_instr, writeBack_instr, hm]

/-- From Compute (R90 to R93). -/
theorem runToBoundary_compute {n : Nat} {s : State} (hs : s.stage = .compute) :
    runToBoundary (n + 1) s =
      guardRegs s.usedRegs s (runToBoundary n (computeNext (aluStage (s.latchOperands s.instr.rs1 s.instr.rs2)))) := by
  rw [runToBoundary]
  unfold stageStep
  simp only [hs, computeStage, guardRegs]
  by_cases h : s.usedRegs.all s.hasReg = true
  · simp only [h, if_true]
    rw [if_neg (computeNext_stage_ne _)]
  · simp only [h]
    rfl

/-- From Fetch: Fetch and Decode, then the rest (R88, R89). -/
theorem runToBoundary_fetch {n : Nat} {s : State} (hs : s.stage = .fetch) :
    runToBoundary (n + 2) s = runToBoundary n (decodeStage (fetchStage s)) := by
  rw [runToBoundary]
  unfold stageStep
  simp only [hs]
  have h : (fetchStage s).stage = .decode := rfl
  rw [if_neg (by rw [h]; decide), runToBoundary]
  unfold stageStep
  simp only [h]
  rw [if_neg]
  simp only [decodeStage]
  split <;> simp

end Sys2Proof.Machine
end

