-- ==== Sys2Proof/Tests/Slice0.lean ====
section
/-! SUPPORT. Tests: one word of every instruction and small steps, all from spec/95_test_vectors.md (the section is named at each);
the columns of R68; and for every statement with hypotheses a witness that meets them. -/

namespace Sys2Proof.Tests

open Sys2Proof.Machine

/-! ## Helpers -/

/-- The platform of the vectors, with the word placed at `pc` and the registers and memory words set. -/
def start (pc w : Word) (regs : List (RegIdx × Word)) (mem : List (Word × Word)) : State :=
  mem.foldl (fun s c => { s.busWrite c.1 .word c.2 with busError := false })
    (placeWord w (regs.foldl (fun s c => s.writeReg c.1 c.2) (State.reset.setPc pc)))

/-- The state with one more device, which requests at the next sample and accepts no access. -/
def State.asserted (s : State) : State := { s with devices := s.devices ++ [⟨1, 0, .external [true] [] []⟩] }

/-- The outcome is a next state with the property. -/
def nextWith (o : Outcome) (p : State → Bool) : Bool :=
  match o with
  | .next t => p t
  | .fault _ => false
  | .refused _ => false

theorem exists_of_nextWith {o : Outcome} {p : State → Bool} (h : nextWith o p = true) : ∃ t, o = .next t ∧ p t = true := by
  cases o with
  | next t => exact ⟨t, rfl, h⟩
  | fault f => cases f
  | refused r => cases h

/-- The memory word at an address (R50). -/
def m32 (s : State) (a : Word) : Word := (s.busRead a .word false).1

/-! ## Well-formedness: each check refuses an ill-formed term -/

theorem test_wf_imm12 : (Instr.addi 1 2 2047).wf = true ∧ (Instr.addi 1 2 2048).wf = false ∧
    (Instr.sw 1 2 (-2048)).wf = true ∧ (Instr.sw 1 2 (-2049)).wf = false := by decide
theorem test_wf_immB : (Instr.beq 1 2 4094).wf = true ∧ (Instr.beq 1 2 4096).wf = false ∧ (Instr.beq 1 2 3).wf = false ∧
    (Instr.bge 1 2 (-4096)).wf = true ∧ (Instr.bge 1 2 (-4098)).wf = false := by decide
theorem test_wf_immU : (Instr.lui 1 0xFFFFF000).wf = true ∧ (Instr.lui 1 0x1001).wf = false := by decide
theorem test_wf_immJ : (Instr.jal 1 1048574).wf = true ∧ (Instr.jal 1 1048576).wf = false ∧ (Instr.jal 1 5).wf = false ∧
    (Instr.jal 1 (-1048576)).wf = true := by decide
theorem test_wf_shamt : (Instr.srai 1 2 31).wf = true ∧ (Instr.srai 1 2 32).wf = false := by decide

/-! ## The columns match and mask of R68 -/

theorem test_columns_1 :
    [Mnemonic.lui, Mnemonic.auipc, Mnemonic.jal, Mnemonic.jalr, Mnemonic.beq, Mnemonic.bne, Mnemonic.blt, Mnemonic.bge, Mnemonic.bltu, Mnemonic.bgeu].map
        (fun m => ((row m).matchWord, (row m).maskWord)) =
      [(0x00000037, 0x0000007F),
        (0x00000017, 0x0000007F),
        (0x0000006F, 0x0000007F),
        (0x00000067, 0x0000707F),
        (0x00000063, 0x0000707F),
        (0x00001063, 0x0000707F),
        (0x00004063, 0x0000707F),
        (0x00005063, 0x0000707F),
        (0x00006063, 0x0000707F),
        (0x00007063, 0x0000707F)] := by decide
theorem test_columns_2 :
    [Mnemonic.lb, Mnemonic.lh, Mnemonic.lw, Mnemonic.lbu, Mnemonic.lhu, Mnemonic.sb, Mnemonic.sh, Mnemonic.sw, Mnemonic.addi, Mnemonic.slti].map
        (fun m => ((row m).matchWord, (row m).maskWord)) =
      [(0x00000003, 0x0000707F),
        (0x00001003, 0x0000707F),
        (0x00002003, 0x0000707F),
        (0x00004003, 0x0000707F),
        (0x00005003, 0x0000707F),
        (0x00000023, 0x0000707F),
        (0x00001023, 0x0000707F),
        (0x00002023, 0x0000707F),
        (0x00000013, 0x0000707F),
        (0x00002013, 0x0000707F)] := by decide
theorem test_columns_3 :
    [Mnemonic.sltiu, Mnemonic.xori, Mnemonic.ori, Mnemonic.andi, Mnemonic.slli, Mnemonic.srli, Mnemonic.srai, Mnemonic.add, Mnemonic.sub, Mnemonic.sll].map
        (fun m => ((row m).matchWord, (row m).maskWord)) =
      [(0x00003013, 0x0000707F),
        (0x00004013, 0x0000707F),
        (0x00006013, 0x0000707F),
        (0x00007013, 0x0000707F),
        (0x00001013, 0xFE00707F),
        (0x00005013, 0xFE00707F),
        (0x40005013, 0xFE00707F),
        (0x00000033, 0xFE00707F),
        (0x40000033, 0xFE00707F),
        (0x00001033, 0xFE00707F)] := by decide
theorem test_columns_4 :
    [Mnemonic.slt, Mnemonic.sltu, Mnemonic.xor, Mnemonic.srl, Mnemonic.sra, Mnemonic.or, Mnemonic.and, Mnemonic.mret].map
        (fun m => ((row m).matchWord, (row m).maskWord)) =
      [(0x00002033, 0xFE00707F),
        (0x00003033, 0xFE00707F),
        (0x00004033, 0xFE00707F),
        (0x00005033, 0xFE00707F),
        (0x40005033, 0xFE00707F),
        (0x00006033, 0xFE00707F),
        (0x00007033, 0xFE00707F),
        (0x30200073, 0xFFFFFFFF)] := by decide

/-! ## A word of every instruction (sections 1, 2.1 to 2.5) -/

/-- `lui x5, 0xFFFFF000` -/
theorem test_decode_lui : decode 0xFFFFF2B7 = .ok (.lui 5 0xFFFFF000) ∧ encode (.lui 5 0xFFFFF000) = 0xFFFFF2B7 := by decide
/-- `auipc x5, 0x1000` -/
theorem test_decode_auipc : decode 0x00001297 = .ok (.auipc 5 4096) ∧ encode (.auipc 5 4096) = 0x00001297 := by decide
/-- `jal x1, -1048576` -/
theorem test_decode_jal : decode 0x800000EF = .ok (.jal 1 (-1048576)) ∧ encode (.jal 1 (-1048576)) = 0x800000EF := by decide
/-- `jalr x1, -1(x5)` -/
theorem test_decode_jalr : decode 0xFFF280E7 = .ok (.jalr 1 5 (-1)) ∧ encode (.jalr 1 5 (-1)) = 0xFFF280E7 := by decide
/-- `beq x1, x2, -4096` -/
theorem test_decode_beq : decode 0x80208063 = .ok (.beq 1 2 (-4096)) ∧ encode (.beq 1 2 (-4096)) = 0x80208063 := by decide
/-- `bne x1, x2, -256, taken` -/
theorem test_decode_bne : decode 0xF02090E3 = .ok (.bne 1 2 (-256)) ∧ encode (.bne 1 2 (-256)) = 0xF02090E3 := by decide
/-- `blt x1, x2, 8 (-2^31 < 2^31-1)` -/
theorem test_decode_blt : decode 0x0020C463 = .ok (.blt 1 2 8) ∧ encode (.blt 1 2 8) = 0x0020C463 := by decide
/-- `bge x1, x2, 8 (equal)` -/
theorem test_decode_bge : decode 0x0020D463 = .ok (.bge 1 2 8) ∧ encode (.bge 1 2 8) = 0x0020D463 := by decide
/-- `bltu x1, x2, 8 (0 < 0xFFFFFFFF)` -/
theorem test_decode_bltu : decode 0x0020E463 = .ok (.bltu 1 2 8) ∧ encode (.bltu 1 2 8) = 0x0020E463 := by decide
/-- `bgeu x31, x31, -2` -/
theorem test_decode_bgeu : decode 0xFFFFFFE3 = .ok (.bgeu 31 31 (-2)) ∧ encode (.bgeu 31 31 (-2)) = 0xFFFFFFE3 := by decide
/-- `lb x5, 0(x2) (byte 0x80)` -/
theorem test_decode_lb : decode 0x00010283 = .ok (.lb 5 2 0) ∧ encode (.lb 5 2 0) = 0x00010283 := by decide
/-- `lh x5, 0(x2) (half 0x7FFF)` -/
theorem test_decode_lh : decode 0x00011283 = .ok (.lh 5 2 0) ∧ encode (.lh 5 2 0) = 0x00011283 := by decide
/-- `lw x5, -4(x2)` -/
theorem test_decode_lw : decode 0xFFC12283 = .ok (.lw 5 2 (-4)) ∧ encode (.lw 5 2 (-4)) = 0xFFC12283 := by decide
/-- `lbu x5, 0(x2) (byte 0x80)` -/
theorem test_decode_lbu : decode 0x00014283 = .ok (.lbu 5 2 0) ∧ encode (.lbu 5 2 0) = 0x00014283 := by decide
/-- `lhu x6, -1(x7)` -/
theorem test_decode_lhu : decode 0xFFF3D303 = .ok (.lhu 6 7 (-1)) ∧ encode (.lhu 6 7 (-1)) = 0xFFF3D303 := by decide
/-- `sb x5, 0(x2)` -/
theorem test_decode_sb : decode 0x00510023 = .ok (.sb 2 5 0) ∧ encode (.sb 2 5 0) = 0x00510023 := by decide
/-- `sh x5, 0(x2)` -/
theorem test_decode_sh : decode 0x00511023 = .ok (.sh 2 5 0) ∧ encode (.sh 2 5 0) = 0x00511023 := by decide
/-- `sw x3, -2048(x2)` -/
theorem test_decode_sw : decode 0x80312023 = .ok (.sw 2 3 (-2048)) ∧ encode (.sw 2 3 (-2048)) = 0x80312023 := by decide
/-- `addi x1, x2, -2048` -/
theorem test_decode_addi : decode 0x80010093 = .ok (.addi 1 2 (-2048)) ∧ encode (.addi 1 2 (-2048)) = 0x80010093 := by decide
/-- `slti x1, x2, -1` -/
theorem test_decode_slti : decode 0xFFF12093 = .ok (.slti 1 2 (-1)) ∧ encode (.slti 1 2 (-1)) = 0xFFF12093 := by decide
/-- `sltiu x1, x2, -1` -/
theorem test_decode_sltiu : decode 0xFFF13093 = .ok (.sltiu 1 2 (-1)) ∧ encode (.sltiu 1 2 (-1)) = 0xFFF13093 := by decide
/-- `xori x1, x2, -1 (bitwise not)` -/
theorem test_decode_xori : decode 0xFFF14093 = .ok (.xori 1 2 (-1)) ∧ encode (.xori 1 2 (-1)) = 0xFFF14093 := by decide
/-- `ori x1, x2, -2048` -/
theorem test_decode_ori : decode 0x80016093 = .ok (.ori 1 2 (-2048)) ∧ encode (.ori 1 2 (-2048)) = 0x80016093 := by decide
/-- `andi x1, x2, 2047` -/
theorem test_decode_andi : decode 0x7FF17093 = .ok (.andi 1 2 2047) ∧ encode (.andi 1 2 2047) = 0x7FF17093 := by decide
/-- `slli x1, x2, 31` -/
theorem test_decode_slli : decode 0x01F11093 = .ok (.slli 1 2 31) ∧ encode (.slli 1 2 31) = 0x01F11093 := by decide
/-- `srli x3, x4, 0` -/
theorem test_decode_srli : decode 0x00025193 = .ok (.srli 3 4 0) ∧ encode (.srli 3 4 0) = 0x00025193 := by decide
/-- `srai x1, x2, 31` -/
theorem test_decode_srai : decode 0x41F15093 = .ok (.srai 1 2 31) ∧ encode (.srai 1 2 31) = 0x41F15093 := by decide
/-- `add x3, x1, x2 (wraps)` -/
theorem test_decode_add : decode 0x002081B3 = .ok (.add 3 1 2) ∧ encode (.add 3 1 2) = 0x002081B3 := by decide
/-- `sub x31, x30, x29` -/
theorem test_decode_sub : decode 0x41DF0FB3 = .ok (.sub 31 30 29) ∧ encode (.sub 31 30 29) = 0x41DF0FB3 := by decide
/-- `sll x3, x1, x2 (amount 33 uses 1)` -/
theorem test_decode_sll : decode 0x002091B3 = .ok (.sll 3 1 2) ∧ encode (.sll 3 1 2) = 0x002091B3 := by decide
/-- `slt x3, x1, x2` -/
theorem test_decode_slt : decode 0x0020A1B3 = .ok (.slt 3 1 2) ∧ encode (.slt 3 1 2) = 0x0020A1B3 := by decide
/-- `sltu x3, x1, x2` -/
theorem test_decode_sltu : decode 0x0020B1B3 = .ok (.sltu 3 1 2) ∧ encode (.sltu 3 1 2) = 0x0020B1B3 := by decide
/-- `xor x3, x1, x1` -/
theorem test_decode_xor : decode 0x0010C1B3 = .ok (.xor 3 1 1) ∧ encode (.xor 3 1 1) = 0x0010C1B3 := by decide
/-- `srl x3, x1, x2 (amount 36 uses 4)` -/
theorem test_decode_srl : decode 0x0020D1B3 = .ok (.srl 3 1 2) ∧ encode (.srl 3 1 2) = 0x0020D1B3 := by decide
/-- `sra x1, x2, x3` -/
theorem test_decode_sra : decode 0x403150B3 = .ok (.sra 1 2 3) ∧ encode (.sra 1 2 3) = 0x403150B3 := by decide
/-- `or x3, x1, x2` -/
theorem test_decode_or : decode 0x0020E1B3 = .ok (.or 3 1 2) ∧ encode (.or 3 1 2) = 0x0020E1B3 := by decide
/-- `and x3, x1, x2` -/
theorem test_decode_and : decode 0x0020F1B3 = .ok (.and 3 1 2) ∧ encode (.and 3 1 2) = 0x0020F1B3 := by decide
/-- `mret` -/
theorem test_decode_mret : decode 0x30200073 = .ok (.mret) ∧ encode (.mret) = 0x30200073 := by decide

/-- V4 and section 2.1: words that match no row. -/
theorem test_decode_invalid :
    [0x30300073, 0x30200173, 0x302000F3, 0x30208073, 0x00000073, 0x00000000, 0xFFFFFFFF, 0x00000001, 0x0000000B, 0x40001013].all
      (fun w => mnemonicOf w == none) = true := by decide
theorem test_decode_invalid' :
    [0x42005013, 0x40007033, 0x02000033, 0x00003003, 0x00003023, 0x00001067, 0x00002063].all
      (fun w => mnemonicOf w == none) = true := by decide

/-- The host's entry reads the same word, and a truncated one is rejected by name. -/
theorem test_decodeTableWord : decodeTableWord 32 0x00078713 = some (.addi 14 15 0) ∧ decodeTableWord 8 0x37 = some (.lui 0 0) ∧
    decodeBytes [0x13, 0x87, 0x07] = .error .truncated := by decide

/-- Section 2.1: an `addi` record with imm 5000 keeps only the low 12 bits; `invalid` and a register above 31 are refused (R72). -/
theorem test_encode_domain : decode (encode (.addi 1 2 5000)) = .ok (.addi 1 2 904) ∧ encodeNumbers none 0 0 0 0 = none ∧
    encodeNumbers (some .addi) 32 0 0 0 = none := by decide

/-! ## One step of every instruction (sections 2.2 to 2.4) -/

/-- lui x5, 0xFFFFF000 -/
theorem test_step_lui : nextWith (step (start 0x100 0xFFFFF2B7 [] []))
    (fun t => t.readReg 5 == 0xFFFFF000 && t.pc == 0x104) = true := by decide
/-- lui x0, 0x12345000 -/
theorem test_step_lui_2 : nextWith (step (start 0x100 0x12345037 [] []))
    (fun t => t.readReg 0 == 0 && t.pc == 0x104) = true := by decide
/-- auipc x5, 0x1000 -/
theorem test_step_auipc : nextWith (step (start 0x100 0x00001297 [] []))
    (fun t => t.readReg 5 == 0x1100 && t.pc == 0x104) = true := by decide
/-- auipc x5, 0xFFFFF000 -/
theorem test_step_auipc_2 : nextWith (step (start 0x100 0xFFFFF297 [] []))
    (fun t => t.readReg 5 == 0xFFFFF100 && t.pc == 0x104) = true := by decide
/-- jal x1, -256 -/
theorem test_step_jal : nextWith (step (start 0x100 0xF01FF0EF [] []))
    (fun t => t.readReg 1 == 0x104 && t.pc == 0) = true := by decide
/-- jal x1, 2 (target 0x102 is masked) -/
theorem test_step_jal_2 : nextWith (step (start 0x100 0x002000EF [] []))
    (fun t => t.readReg 1 == 0x104 && t.pc == 0x100) = true := by decide
/-- jalr x1, 0(x1) (rd = rs1) -/
theorem test_step_jalr : nextWith (step (start 0x100 0x000080E7 [(1, 0x200)] []))
    (fun t => t.readReg 1 == 0x104 && t.pc == 0x200) = true := by decide
/-- jalr x1, 3(x5) (target 0x20B is masked) -/
theorem test_step_jalr_2 : nextWith (step (start 0x100 0x003280E7 [(5, 0x208)] []))
    (fun t => t.readReg 1 == 0x104 && t.pc == 0x208) = true := by decide
/-- beq x1, x2, 16, taken -/
theorem test_step_beq : nextWith (step (start 0x100 0x00208863 [(1, 7), (2, 7)] []))
    (fun t => t.pc == 0x110) = true := by decide
/-- beq x1, x1, 2 (target 0x102 is masked) -/
theorem test_step_beq_2 : nextWith (step (start 0x100 0x00108163 [] []))
    (fun t => t.pc == 0x100) = true := by decide
/-- bne x1, x2, -256, taken -/
theorem test_step_bne : nextWith (step (start 0x100 0xF02090E3 [(1, 1)] []))
    (fun t => t.pc == 0) = true := by decide
/-- bne x0, x0, 8, never taken -/
theorem test_step_bne_2 : nextWith (step (start 0x100 0x00001463 [] []))
    (fun t => t.pc == 0x104) = true := by decide
/-- blt x1, x2, 8 (-2^31 < 2^31-1) -/
theorem test_step_blt : nextWith (step (start 0x100 0x0020C463 [(1, 0x80000000), (2, 0x7FFFFFFF)] []))
    (fun t => t.pc == 0x108) = true := by decide
/-- blt x1, x2, 8 (equal) -/
theorem test_step_blt_2 : nextWith (step (start 0x100 0x0020C463 [(1, 5), (2, 5)] []))
    (fun t => t.pc == 0x104) = true := by decide
/-- bge x1, x2, 8 (equal) -/
theorem test_step_bge : nextWith (step (start 0x100 0x0020D463 [(1, 5), (2, 5)] []))
    (fun t => t.pc == 0x108) = true := by decide
/-- bge x1, x2, 8 (-1 >= 0 is false) -/
theorem test_step_bge_2 : nextWith (step (start 0x100 0x0020D463 [(1, 0xFFFFFFFF)] []))
    (fun t => t.pc == 0x104) = true := by decide
/-- bltu x1, x2, 8 (0 < 0xFFFFFFFF) -/
theorem test_step_bltu : nextWith (step (start 0x100 0x0020E463 [(2, 0xFFFFFFFF)] []))
    (fun t => t.pc == 0x108) = true := by decide
/-- bltu x1, x2, 8 (0x80000000 < 1 is false) -/
theorem test_step_bltu_2 : nextWith (step (start 0x100 0x0020E463 [(1, 0x80000000), (2, 1)] []))
    (fun t => t.pc == 0x104) = true := by decide
/-- bgeu x1, x2, 8 (0xFFFFFFFF >= 1) -/
theorem test_step_bgeu : nextWith (step (start 0x100 0x0020F463 [(1, 0xFFFFFFFF), (2, 1)] []))
    (fun t => t.pc == 0x108) = true := by decide
/-- bgeu x0, x2, 8 (0 >= 1 is false) -/
theorem test_step_bgeu_2 : nextWith (step (start 0x100 0x00207463 [(2, 1)] []))
    (fun t => t.pc == 0x104) = true := by decide
/-- lb x5, 0(x2) (byte 0x80) -/
theorem test_step_lb : nextWith (step (start 0x100 0x00010283 [(2, 0x800)] [(0x800, 0x80)]))
    (fun t => t.readReg 5 == 0xFFFFFF80 && t.pc == 0x104 && !t.loadStoreError) = true := by decide
/-- lb x5, 0(x2) at EA 0xFFFF (last byte) -/
theorem test_step_lb_2 : nextWith (step (start 0x100 0x00010283 [(2, 0xFFFF)] [(0xFFFC, 0xBEEF0000)]))
    (fun t => t.readReg 5 == 0xFFFFFFBE && t.pc == 0x104 && !t.loadStoreError) = true := by decide
/-- lh x5, 0(x2) (half 0x7FFF) -/
theorem test_step_lh : nextWith (step (start 0x100 0x00011283 [(2, 0x800)] [(0x800, 0x7FFF)]))
    (fun t => t.readReg 5 == 0x7FFF && t.pc == 0x104 && !t.loadStoreError) = true := by decide
/-- lh x5, 0(x2) at EA 0xFFFF (crosses the end) -/
theorem test_step_lh_2 : nextWith (step (start 0x100 0x00011283 [(2, 0xFFFF), (5, 0x1234)] [(0xFFFC, 0xBEEF0000)]))
    (fun t => t.readReg 5 == 0 && t.pc == 0x104 && t.loadStoreError) = true := by decide
/-- lw x5, 8(x2) with x2 = 0xFFFFFFFC (EA wraps to 4) -/
theorem test_step_lw : nextWith (step (start 0x100 0x00812283 [(2, 0xFFFFFFFC)] [(4, 0x11223344)]))
    (fun t => t.readReg 5 == 0x11223344 && t.pc == 0x104 && !t.loadStoreError) = true := by decide
/-- lw x2, 0(x2) (rd = rs1) -/
theorem test_step_lw_2 : nextWith (step (start 0x100 0x00012103 [(2, 0x800)] [(0x800, 0xABC)]))
    (fun t => t.readReg 2 == 0xABC && t.pc == 0x104 && !t.loadStoreError) = true := by decide
/-- lbu x5, 0(x2) (byte 0x80) -/
theorem test_step_lbu : nextWith (step (start 0x100 0x00014283 [(2, 0x800)] [(0x800, 0x80)]))
    (fun t => t.readReg 5 == 0x80 && t.pc == 0x104 && !t.loadStoreError) = true := by decide
/-- lhu x5, 2(x2) (half 0xFFFF) -/
theorem test_step_lhu : nextWith (step (start 0x100 0x00215283 [(2, 0x800)] [(0x800, 0xFFFF0000)]))
    (fun t => t.readReg 5 == 0xFFFF && t.pc == 0x104 && !t.loadStoreError) = true := by decide
/-- lhu x5, 0(x2) at EA 0xFFFE (last halfword of the range) -/
theorem test_step_lhu_2 : nextWith (step (start 0x100 0x00015283 [(2, 0xFFFE)] [(0xFFFC, 0xBEEF0000)]))
    (fun t => t.readReg 5 == 0xBEEF && t.pc == 0x104 && !t.loadStoreError) = true := by decide
/-- sb x5, 0(x2) at EA 0xFFFF -/
theorem test_step_sb : nextWith (step (start 0x100 0x00510023 [(2, 0xFFFF), (5, 0x77)] [(0xFFFC, 0x11223344)]))
    (fun t => m32 t 0xFFFC == 0x77223344 && t.pc == 0x104 && !t.loadStoreError) = true := by decide
/-- sb x0, 2(x2) (stores zero) -/
theorem test_step_sb_2 : nextWith (step (start 0x100 0x00010123 [(2, 0x800)] [(0x800, 0x11223344)]))
    (fun t => m32 t 0x800 == 0x11003344 && t.pc == 0x104 && !t.loadStoreError) = true := by decide
/-- sh x5, 0(x2) at EA 0xFFFF (crosses the end) -/
theorem test_step_sh : nextWith (step (start 0x100 0x00511023 [(2, 0xFFFF), (5, 0x7777)] [(0xFFFC, 0x11223344)]))
    (fun t => m32 t 0xFFFC == 0x11223344 && t.pc == 0x104 && t.loadStoreError) = true := by decide
/-- sh x5, 1(x2) (odd halfword) -/
theorem test_step_sh_2 : nextWith (step (start 0x100 0x005110A3 [(2, 0x800), (5, 0xFFFFBEEF)] [(0x800, 0x11223344)]))
    (fun t => m32 t 0x800 == 0x11BEEF44 && t.pc == 0x104 && !t.loadStoreError) = true := by decide
/-- sw x5, 2047(x2) (maximum offset, misaligned) -/
theorem test_step_sw : nextWith (step (start 0x100 0x7E512FA3 [(2, 0x800), (5, 0xA1B2C3D4)] []))
    (fun t => m32 t 0xFFC == 0xD4000000 && m32 t 0x1000 == 0xA1B2C3 && t.pc == 0x104 && !t.loadStoreError) = true := by decide
/-- sw x2, 0(x2) (rs2 = rs1) -/
theorem test_step_sw_2 : nextWith (step (start 0x100 0x00212023 [(2, 0x800)] []))
    (fun t => m32 t 0x800 == 0x800 && t.pc == 0x104 && !t.loadStoreError) = true := by decide
/-- addi x1, x2, 1 (signed overflow wraps) -/
theorem test_step_addi : nextWith (step (start 0x100 0x00110093 [(2, 0x7FFFFFFF)] []))
    (fun t => t.readReg 1 == 0x80000000 && t.pc == 0x104) = true := by decide
/-- addi x1, x2, -2048 -/
theorem test_step_addi_2 : nextWith (step (start 0x100 0x80010093 [(2, 0x80000000)] []))
    (fun t => t.readReg 1 == 0x7FFFF800 && t.pc == 0x104) = true := by decide
/-- slti x1, x2, -1 -/
theorem test_step_slti : nextWith (step (start 0x100 0xFFF12093 [(2, 0x80000000)] []))
    (fun t => t.readReg 1 == 1 && t.pc == 0x104) = true := by decide
/-- slti x1, x2, 0 -/
theorem test_step_slti_2 : nextWith (step (start 0x100 0x00012093 [(1, 9)] []))
    (fun t => t.readReg 1 == 0 && t.pc == 0x104) = true := by decide
/-- sltiu x1, x2, -1 -/
theorem test_step_sltiu : nextWith (step (start 0x100 0xFFF13093 [(2, 0xFFFFFFFE)] []))
    (fun t => t.readReg 1 == 1 && t.pc == 0x104) = true := by decide
/-- sltiu x1, x2, -1 -/
theorem test_step_sltiu_2 : nextWith (step (start 0x100 0xFFF13093 [(1, 9), (2, 0xFFFFFFFF)] []))
    (fun t => t.readReg 1 == 0 && t.pc == 0x104) = true := by decide
/-- xori x1, x2, -1 (bitwise not) -/
theorem test_step_xori : nextWith (step (start 0x100 0xFFF14093 [(2, 0xF0F0F0F)] []))
    (fun t => t.readReg 1 == 0xF0F0F0F0 && t.pc == 0x104) = true := by decide
/-- ori x1, x2, -2048 -/
theorem test_step_ori : nextWith (step (start 0x100 0x80016093 [(2, 0x123)] []))
    (fun t => t.readReg 1 == 0xFFFFF923 && t.pc == 0x104) = true := by decide
/-- andi x1, x2, 2047 -/
theorem test_step_andi : nextWith (step (start 0x100 0x7FF17093 [(2, 0xFFFFFFFF)] []))
    (fun t => t.readReg 1 == 0x7FF && t.pc == 0x104) = true := by decide
/-- andi x1, x2, -16 -/
theorem test_step_andi_2 : nextWith (step (start 0x100 0xFF017093 [(2, 0x12345678)] []))
    (fun t => t.readReg 1 == 0x12345670 && t.pc == 0x104) = true := by decide
/-- slli x1, x2, 31 -/
theorem test_step_slli : nextWith (step (start 0x100 0x01F11093 [(2, 3)] []))
    (fun t => t.readReg 1 == 0x80000000 && t.pc == 0x104) = true := by decide
/-- slli x1, x2, 0 -/
theorem test_step_slli_2 : nextWith (step (start 0x100 0x00011093 [(2, 0x80000001)] []))
    (fun t => t.readReg 1 == 0x80000001 && t.pc == 0x104) = true := by decide
/-- srli x1, x2, 31 -/
theorem test_step_srli : nextWith (step (start 0x100 0x01F15093 [(2, 0x80000000)] []))
    (fun t => t.readReg 1 == 1 && t.pc == 0x104) = true := by decide
/-- srai x1, x2, 31 -/
theorem test_step_srai : nextWith (step (start 0x100 0x41F15093 [(2, 0x80000000)] []))
    (fun t => t.readReg 1 == 0xFFFFFFFF && t.pc == 0x104) = true := by decide
/-- srai x1, x2, 4 -/
theorem test_step_srai_2 : nextWith (step (start 0x100 0x40415093 [(2, 0x7FFFFFF0)] []))
    (fun t => t.readReg 1 == 0x7FFFFFF && t.pc == 0x104) = true := by decide
/-- add x3, x1, x2 (wraps) -/
theorem test_step_add : nextWith (step (start 0x100 0x002081B3 [(1, 0xFFFFFFFF), (2, 2)] []))
    (fun t => t.readReg 3 == 1 && t.pc == 0x104) = true := by decide
/-- add x0, x1, x2 -/
theorem test_step_add_2 : nextWith (step (start 0x100 0x00208033 [(1, 5), (2, 6)] []))
    (fun t => t.readReg 0 == 0 && t.pc == 0x104) = true := by decide
/-- sub x3, x1, x2 -/
theorem test_step_sub : nextWith (step (start 0x100 0x402081B3 [(2, 1)] []))
    (fun t => t.readReg 3 == 0xFFFFFFFF && t.pc == 0x104) = true := by decide
/-- sub x3, x1, x2 (signed overflow wraps) -/
theorem test_step_sub_2 : nextWith (step (start 0x100 0x402081B3 [(1, 0x80000000), (2, 1)] []))
    (fun t => t.readReg 3 == 0x7FFFFFFF && t.pc == 0x104) = true := by decide
/-- sll x3, x1, x2 (amount 33 uses 1) -/
theorem test_step_sll : nextWith (step (start 0x100 0x002091B3 [(1, 1), (2, 0x21)] []))
    (fun t => t.readReg 3 == 2 && t.pc == 0x104) = true := by decide
/-- sll x3, x1, x2 (amount 0xFFFFFFFF uses 31) -/
theorem test_step_sll_2 : nextWith (step (start 0x100 0x002091B3 [(1, 1), (2, 0xFFFFFFFF)] []))
    (fun t => t.readReg 3 == 0x80000000 && t.pc == 0x104) = true := by decide
/-- slt x3, x1, x2 -/
theorem test_step_slt : nextWith (step (start 0x100 0x0020A1B3 [(1, 0xFFFFFFFF), (2, 1)] []))
    (fun t => t.readReg 3 == 1 && t.pc == 0x104) = true := by decide
/-- sltu x3, x1, x2 -/
theorem test_step_sltu : nextWith (step (start 0x100 0x0020B1B3 [(1, 0xFFFFFFFF), (2, 1), (3, 9)] []))
    (fun t => t.readReg 3 == 0 && t.pc == 0x104) = true := by decide
/-- sltu x3, x0, x2 (x2 != 0) -/
theorem test_step_sltu_2 : nextWith (step (start 0x100 0x002031B3 [(2, 7)] []))
    (fun t => t.readReg 3 == 1 && t.pc == 0x104) = true := by decide
/-- xor x3, x1, x1 -/
theorem test_step_xor : nextWith (step (start 0x100 0x0010C1B3 [(1, 0x12345678), (3, 9)] []))
    (fun t => t.readReg 3 == 0 && t.pc == 0x104) = true := by decide
/-- srl x3, x1, x2 (amount 36 uses 4) -/
theorem test_step_srl : nextWith (step (start 0x100 0x0020D1B3 [(1, 0x80000000), (2, 0x24)] []))
    (fun t => t.readReg 3 == 0x8000000 && t.pc == 0x104) = true := by decide
/-- sra x3, x1, x2 (amount 0x3F uses 31) -/
theorem test_step_sra : nextWith (step (start 0x100 0x4020D1B3 [(1, 0x80000000), (2, 0x3F)] []))
    (fun t => t.readReg 3 == 0xFFFFFFFF && t.pc == 0x104) = true := by decide
/-- sra x3, x1, x2 (amount 32 uses 0) -/
theorem test_step_sra_2 : nextWith (step (start 0x100 0x4020D1B3 [(1, 0x80000000), (2, 0x20)] []))
    (fun t => t.readReg 3 == 0x80000000 && t.pc == 0x104) = true := by decide
/-- or x3, x1, x2 -/
theorem test_step_or : nextWith (step (start 0x100 0x0020E1B3 [(1, 0xF0F0F0F0), (2, 0xF0F0F0F)] []))
    (fun t => t.readReg 3 == 0xFFFFFFFF && t.pc == 0x104) = true := by decide
/-- and x3, x1, x2 -/
theorem test_step_and : nextWith (step (start 0x100 0x0020F1B3 [(1, 0xF0F0F0F0), (2, 0xFF00FF00)] []))
    (fun t => t.readReg 3 == 0xF000F000 && t.pc == 0x104) = true := by decide

/-! ## mret, words that are no instruction, interrupts (sections 2.5, 2.6) -/

theorem test_mret : nextWith (step { start 0x40 0x30200073 [] [] with irqState := true, mepc := 0x124 })
    (fun t => t.pc == 0x124 && t.mepc == 0x124 && !t.irqState) = true := by decide
/-- The line is high but a handler runs: no entry. -/
theorem test_mret_line_high : nextWith (step (State.asserted { start 0x40 0x30200073 [] [] with irqState := true, mepc := 0x124 }))
    (fun t => t.pc == 0x124 && t.mepc == 0x124 && !t.irqState) = true := by decide
/-- `mul x10, x11, x12` is no instruction of this machine. -/
theorem test_invalid : nextWith (step (start 0x10 0x02C58533 [(11, 3), (12, 4)] []))
    (fun t => t.pc == 0x14 && t.readReg 10 == 0) = true := by decide
/-- `addi x1, x0, 5` completes, then the handler is entered. -/
theorem test_entry : nextWith (step (State.asserted (start 0x100 0x00500093 [] [])))
    (fun t => t.readReg 1 == 5 && t.pc == 4 && t.mepc == 0x104 && t.irqState) = true := by decide
/-- A taken `beq x0, x0, 64` saves its target. -/
theorem test_entry_taken : nextWith (step (State.asserted (start 0x100 0x04000063 [] [])))
    (fun t => t.pc == 4 && t.mepc == 0x140 && t.irqState) = true := by decide
/-- `jalr x0, 6(x5)` saves its target with bits 1:0 cleared. -/
theorem test_entry_masked : nextWith (step (State.asserted (start 0x100 0x00628067 [(5, 0x400)] [])))
    (fun t => t.pc == 4 && t.mepc == 0x404 && t.irqState) = true := by decide
/-- The interrupt wins over `mret`. -/
theorem test_entry_mret : nextWith (step (State.asserted { start 0x40 0x30200073 [] [] with mepc := 0x124 }))
    (fun t => t.pc == 4 && t.mepc == 0x44 && t.irqState) = true := by decide
/-- A fetch at 0xFFFFFFFC, unmapped: the no-op, and the pc wraps to 0. -/
theorem test_fetch_fault : nextWith (step (State.reset.setPc 0xFFFFFFFC))
    (fun t => t.fetchData == 0 && t.fetchError && t.pc == 0) = true := by decide
/-- The numbers of `step()` calls of R100: 3, 4 and 5. -/
theorem test_step_counts : (stagesToBoundary 6 (start 0x40 0x30200073 [] [])).length = 3 ∧
    (stagesToBoundary 6 (start 0x100 0x0080006F [] [])).length = 4 ∧
    (stagesToBoundary 6 (start 0x100 0x00500093 [] [])).length = 5 := by decide
/-- V9: a read with no covering device gives 0 and sets the error, a valid one clears it. -/
theorem test_bus_fault : (State.reset.busRead 0x20000 .word false).1 = 0 ∧
    (State.reset.busRead 0x20000 .word false).2.busError = true ∧
    ((State.reset.busRead 0x20000 .word false).2.busRead 0x100 .word false).2.busError = false := by decide
/-- Section 2.7: `setPc(0x203)` gives 0x200. -/
theorem test_setPc : nextWith (driver (.setPc 0x203) State.reset) (fun t => t.pc == 0x200) = true := by decide
/-- The host's entry runs the word it is given as the first instruction after reset. -/
theorem test_withFetchWord : nextWith (step (State.reset.withFetchWord 32 0x00500093))
    (fun t => t.readReg 1 == 5 && t.pc == 4) = true := by decide

/-! ## Assembly (section 2.1) -/

theorem test_assemble : encodeFields (assemble .r32 ['l', 'w', ' ', 'x', '5', ',', '-', '4', '(', ' ', 'x', '2', ' ', ')']) =
    some 0xFFC12283 := by decide
theorem test_assemble_clamped :
    encodeFields (assemble .r32 ['a', 'd', 'd', ' ', 'x', '4', '0', ',', ' ', 'x', '1', ',', ' ', 'x', '2']) =
      some 0x00208FB3 := by decide
/-- R82: any white space separates tokens; the line ends in CR LF, a tab and a form feed stand between operands. -/
theorem test_assemble_white_space :
    encodeFields (assemble .r32 (['a', 'd', 'd', '\t', 'x', '1', Char.ofNat 12, 'x', '2', ',', 'x', '3', '\r', '\n'])) =
      some 0x003100B3 := by decide
theorem test_assemble_mret_cr : encodeFields (assemble .r32 ['m', 'r', 'e', 't', '\r']) = some 0x30200073 := by decide
theorem test_assemble_rejected : assemble .r32 ['n', 'o', 'p'] = ⟨none, 0, 0, 0, 0⟩ := by decide
theorem test_disassemble : disassemble (decodeRecord 0xFE219EE3).toInstrFields =
    ['b', 'n', 'e', ' ', 'x', '3', ',', ' ', 'x', '2', ',', ' ', '-', '4'] := by decide
/-- V6: `nop` precedes `li` and `mv`. -/
theorem test_pseudo : disassemblePseudo ⟨some .addi, 0, 0, 0, 0⟩ = some ['n', 'o', 'p'] := by decide
theorem test_meta : disassembleMeta (decodeRecord 0xFE219EE3).toInstrFields 0x100 = some 0xFC := by decide

/-! ## Witnesses: concrete states and operands that meet the hypotheses of each statement

`reg16` has 16 registers; `mem` holds one word at 0x100 and one at 0xFFFC; `dev` has a device of four bytes at 0xB0000000 that is no
`Memory`; `asserted` states have an interrupt to accept. -/

def reg16 : State := { State.reset with nregs := .r16 }
def mem : State := start 0x100 0x11223344 [(2, 0x100), (3, 0xFFFC)] [(0xFFFC, 0x80FF7F01)]
def memCells : Memory := Memory.writeBytes (Memory.writeBytes [] 0x100 0x11223344 4) 0xFFFC 0x80FF7F01 4
def memDevice : Device := ⟨0, 0xFFFF, .memory memCells []⟩
def dev (answers : List Word) : State :=
  { State.reset with
    regs := Vector.replicate 32 0xB0000000
    devices := resetDevices ++ [⟨0xB0000000, 0xB0000003, .external [] answers []⟩] }

/-- Every register is present with 32 of them, those up to x15 with 16. -/
theorem witness_UpperImmediateResults : State.reset.hasReg 0 = true ∧ State.reset.hasReg 31 = true ∧ reg16.hasReg 15 = true := by decide
theorem witness_ImmediateArithmeticLogicResults : State.reset.hasReg 0 = true ∧ State.reset.hasReg 31 = true ∧
    reg16.hasReg 15 = true := by decide
theorem witness_ImmediateComparisonResults : State.reset.hasReg 0 = true ∧ State.reset.hasReg 31 = true ∧
    reg16.hasReg 15 = true := by decide
theorem witness_ImmediateShiftResults : State.reset.hasReg 0 = true ∧ State.reset.hasReg 31 = true ∧ reg16.hasReg 15 = true := by decide
theorem witness_RegisterArithmeticResults : State.reset.hasReg 0 = true ∧ State.reset.hasReg 31 = true ∧
    State.reset.hasReg 1 = true := by decide
theorem witness_RegisterLogicResults : State.reset.hasReg 0 = true ∧ State.reset.hasReg 31 = true ∧
    State.reset.hasReg 1 = true := by decide
theorem witness_RegisterComparisonResults : State.reset.hasReg 0 = true ∧ State.reset.hasReg 31 = true ∧
    State.reset.hasReg 1 = true := by decide
theorem witness_RegisterShiftResults : State.reset.hasReg 0 = true ∧ State.reset.hasReg 31 = true ∧
    State.reset.hasReg 1 = true := by decide
theorem witness_JalLinksAndJumps : State.reset.hasReg 0 = true ∧ State.reset.hasReg 31 = true := by decide
theorem witness_JalrLinksAndJumps : State.reset.hasReg 0 = true ∧ State.reset.hasReg 31 = true := by decide
/-- Equal operands, and different ones (`mem` holds 0x100 in x2 and 0xFFFC in x3). -/
theorem witness_EqualityBranches : mem.hasReg 2 = true ∧ mem.hasReg 3 = true ∧ mem.readReg 2 ≠ mem.readReg 3 := by decide
theorem witness_SignedBranches : (dev []).hasReg 1 = true ∧ (dev []).hasReg 0 = true ∧
    ((dev []).readReg 1).toInt < ((dev []).readReg 0).toInt := by decide
theorem witness_UnsignedBranches : (dev []).hasReg 1 = true ∧ (dev []).hasReg 0 = true ∧
    ¬ ((dev []).readReg 1).toNat < ((dev []).readReg 0).toNat := by decide

/-- The last byte, halfword and word of the range, and one inside it. -/
theorem witness_ByteLoadsFromMemory : mem.hasReg 5 = true ∧ mem.hasReg 3 = true ∧
    mem.acceptor (effectiveAddress mem 3 3) .byte = some memDevice ∧ memDevice.kind = .memory memCells [] :=
  ⟨by decide, by decide, by decide, rfl⟩
theorem witness_HalfLoadsFromMemory : mem.hasReg 5 = true ∧ mem.hasReg 3 = true ∧
    mem.acceptor (effectiveAddress mem 3 2) .half = some memDevice ∧ memDevice.kind = .memory memCells [] :=
  ⟨by decide, by decide, by decide, rfl⟩
theorem witness_WordLoadFromMemory : mem.hasReg 5 = true ∧ mem.hasReg 3 = true ∧
    mem.acceptor (effectiveAddress mem 3 0) .word = some memDevice ∧ memDevice.kind = .memory memCells [] :=
  ⟨by decide, by decide, by decide, rfl⟩
/-- A halfword that crosses the end of the range, and addresses past it. -/
theorem witness_LoadBusFaultReadsZero : loadOf (.lh 5 3 3) = some (.half, true, 5, 3, 3) ∧ mem.hasReg 5 = true ∧
    mem.hasReg 3 = true ∧ mem.acceptor (effectiveAddress mem 3 3) .half = none ∧
    mem.acceptor (effectiveAddress mem 3 4) .byte = none ∧ mem.acceptor (effectiveAddress mem 3 1) .word = none := by decide
theorem witness_LoadFromDeviceReadsOnce : loadOf (.lw 0 1 0) = some (.word, true, 0, 1, 0) ∧ (dev [7]).hasReg 0 = true ∧
    (dev [7]).hasReg 1 = true ∧
    (dev [7]).acceptor (effectiveAddress (dev [7]) 1 0) .word = some ⟨0xB0000000, 0xB0000003, .external [] [7] []⟩ := by decide
/-- The same with no answer given: a free value. -/
theorem witness_LoadFromDeviceReadsOnce_free : loadOf (.lbu 5 1 3) = some (.byte, false, 5, 1, 3) ∧ (dev []).hasReg 5 = true ∧
    (dev []).hasReg 1 = true ∧
    (dev []).acceptor (effectiveAddress (dev []) 1 3) .byte = some ⟨0xB0000000, 0xB0000003, .external [] [] []⟩ := by decide
/-- A `Memory` that accepts the last word of its range, and one that does not accept the address after it. -/
theorem witness_StoresWriteTheirBytesOnly : storeOf (.sw 3 2 0) = some (.word, 3, 2, 0) ∧ mem.hasReg 3 = true ∧
    mem.hasReg 2 = true ∧ mem.devices[0]? = some memDevice ∧ memDevice.accepts (effectiveAddress mem 3 0) .word = true ∧
    memDevice.accepts (effectiveAddress mem 3 1) .word = false := by decide
theorem witness_StoreGivesDeviceFullValueOnce : storeOf (.sb 1 2 3) = some (.byte, 1, 2, 3) ∧ (dev []).hasReg 1 = true ∧
    (dev []).hasReg 2 = true ∧ (dev []).devices[1]? = some ⟨0xB0000000, 0xB0000003, .external [] [] []⟩ ∧
    (Device.mk 0xB0000000 0xB0000003 (.external [] [] [])).accepts (effectiveAddress (dev []) 1 3) .byte = true ∧
    (Device.mk 0xB0000000 0xB0000003 (.external [] [] [])).accepts (effectiveAddress (dev []) 1 4) .byte = false := by decide
theorem witness_ReadAfterWriteReturnsValue : mem.acceptor 0xFFFD .half = some memDevice ∧ memDevice.kind = .memory memCells [] :=
  ⟨by decide, rfl⟩
theorem witness_StoreIsSeenByNextFetch : mem.hasReg 2 = true ∧ mem.hasReg 3 = true ∧ aligned mem.pc = true ∧
    mem.acceptInterrupt = false ∧ effectiveAddress mem 2 4 = mem.pc + 4 ∧ mem.acceptor (mem.pc + 4) .word = some memDevice ∧
    memDevice.kind = .memory memCells [] ∧ ∃ t, exec (.sw 2 3 4) mem = .next t :=
  ⟨by decide, by decide, by decide, by decide, by decide, by decide, rfl, _, rfl⟩

theorem witness_MretReturns : State.reset.acceptInterrupt = false ∧ aligned State.reset.mepc = true := by decide
theorem witness_InterruptBeatsMret : (State.asserted State.reset).acceptInterrupt = true := by decide
/-- From a `Memory`, from a device that is none, and from no device. -/
theorem witness_InvalidWordIsNoOp : State.reset.stage = .fetch ∧
    mnemonicOf (State.reset.busRead State.reset.pc .word false).1 = none ∧
    mnemonicOf (((dev [0]).setPc 0xB0000000).busRead 0xB0000000 .word false).1 = none ∧
    mnemonicOf ((State.reset.setPc 0x20000).busRead 0x20000 .word false).1 = none := by decide
theorem witness_UnmappedFetchIsNoOp : (State.reset.setPc 0x20000).stage = .fetch ∧
    (State.reset.setPc 0x20000).acceptor (State.reset.setPc 0x20000).pc .word = none := by decide
theorem witness_LineIsOrOfRequests : ({ State.reset with devices := [] } : State).devices = [] := by decide
theorem witness_AssertedLineEntersHandler : (State.asserted mem).acceptInterrupt = true ∧
    ∃ t, step (State.asserted mem) = .next t := ⟨by decide, _, rfl⟩
theorem witness_MepcIsWrittenOnlyByEntry : ∃ t, step (State.asserted mem) = .next t ∧ t.mepc ≠ (State.asserted mem).mepc := by
  obtain ⟨t, h, hp⟩ := exists_of_nextWith
    (show nextWith (step (State.asserted mem)) (fun t => t.mepc != (State.asserted mem).mepc) = true by decide)
  exact ⟨t, h, by simpa using hp⟩
/-- In a handler, at a word that is no `mret` and at an `mret`. -/
theorem witness_HandlerIsNotInterrupted : mem.stage = .fetch ∧ { mem with irqState := true }.irqState = true ∧
    (∃ t, step { mem with irqState := true } = .next t) ∧
    mnemonicOf ({ mem with irqState := true }.busRead mem.pc .word false).1 ≠ some .mret ∧
    (∃ t, step { start 0x40 0x30200073 [] [] with irqState := true } = .next t) ∧
    decode ({ start 0x40 0x30200073 [] [] with irqState := true }.busRead 0x40 .word false).1 = .ok .mret :=
  ⟨by decide, rfl, ⟨_, rfl⟩, by decide, ⟨_, rfl⟩, by decide⟩
/-- An interrupt at an `addi` and at an `mret`. -/
theorem witness_InterruptsArePrecise :
    (State.asserted (start 0x100 0x00500093 [] [])).stage = .fetch ∧
    (State.asserted (start 0x100 0x00500093 [] [])).acceptInterrupt = true ∧
    (∃ t, step (State.asserted (start 0x100 0x00500093 [] [])) = .next t) ∧
    decode ((State.asserted (start 0x100 0x00500093 [] [])).busRead 0x100 .word false).1 ≠ .ok .mret ∧
    (State.asserted (start 0x40 0x30200073 [] [])).acceptInterrupt = true ∧
    decode ((State.asserted (start 0x40 0x30200073 [] [])).busRead 0x40 .word false).1 = .ok .mret :=
  ⟨by decide, by decide, ⟨_, rfl⟩, by decide, by decide, by decide⟩

/-- Instructions of every number of operands, with 32 registers and at the bound of 16. -/
theorem witness_EveryInstructionCompletes : (∀ r ∈ usedRegsOf (.add 31 30 29), State.reset.hasReg r = true) ∧
    (∀ r ∈ usedRegsOf (.jalr 15 15 0), reg16.hasReg r = true) ∧ (∀ r ∈ usedRegsOf .mret, reg16.hasReg r = true) := by decide
theorem test_absent_register : exec (.addi 16 0 0) reg16 = .refused .registerAbsent ∧
    nextWith (exec (.addi 15 0 7) reg16) (fun t => t.readReg 15 == 7) = true := ⟨rfl, by decide⟩
theorem witness_AbsentRegisterIsRefused : (∃ r ∈ usedRegsOf (.addi 16 0 0), reg16.hasReg r = false) ∧
    (∃ r ∈ usedRegsOf (.beq 0 31 8), reg16.hasReg r = false) ∧ (∃ r ∈ usedRegsOf (.sw 16 0 8), reg16.hasReg r = false) := by decide
theorem witness_OnlyDestinationRegisterChanges : (∃ t, exec (.add 3 1 2) State.reset = .next t) ∧
    destOf (.add 3 1 2) ≠ some 4 := ⟨⟨_, rfl⟩, by decide⟩
theorem witness_OnlyStoresChangeMemory : storeOf (.lw 3 1 2) = none ∧ ∃ t, exec (.lw 3 1 2) State.reset = .next t :=
  ⟨by decide, _, rfl⟩
theorem witness_MachineIsAlwaysSteppable : State.reset.nregs = .r32 := by decide
theorem witness_StepKeepsWellFormedState : mem.wf = true ∧ ∃ t, step mem = .next t := ⟨by decide, _, rfl⟩
theorem witness_StepKeepsConfiguration : ∃ t, step mem = .next t := ⟨_, rfl⟩
theorem witness_StepIsCompositionOfStages : mem.stage = .fetch := by decide
theorem witness_InstructionVisitsItsStages :
    decode ((start 0x100 0x002081B3 [] []).busRead 0x100 .word false).1 = .ok (.add 3 1 2) ∧
    (∀ r ∈ usedRegsOf (.add 3 1 2), (start 0x100 0x002081B3 [] []).hasReg r = true) ∧
    mnemonicOf (State.reset.busRead State.reset.pc .word false).1 = none := by decide
/-- An accepted interrupt, an `mret`, and neither. -/
theorem witness_UpdatePcStage : ({ State.asserted State.reset with stage := .updatePC } : State).stage = .updatePC ∧
    (State.asserted State.reset).irqLine = true ∧ (State.asserted State.reset).irqState = false ∧
    ({ State.reset with stage := .updatePC, instr := decodeRecord 0x30200073 } : State).instr.name = some .mret ∧
    State.reset.irqLine = false ∧ State.reset.instr.name ≠ some .mret := by decide
/-- A next state from each of the six stages. -/
theorem witness_StageTransitions :
    ∀ g : Stage, ∃ t, stageStep { State.reset with stage := g } = .next t := by
  intro g
  cases g <;> exact ⟨_, rfl⟩
theorem witness_EachStageWritesItsOwnState :
    ∀ g : Stage, ∃ t, stageStep { State.reset with stage := g } = .next t := by
  intro g
  cases g <;> exact ⟨_, rfl⟩
theorem witness_StepRunsDecodedInstruction :
    (start 0x100 0x002081B3 [] []).stage = .fetch ∧
    (start 0x100 0x002081B3 [] []).busRead (start 0x100 0x002081B3 [] []).pc .word false =
      (0x002081B3, { start 0x100 0x002081B3 [] [] with busError := false }) ∧
    decode 0x002081B3 = .ok (.add 3 1 2) ∧
    (start 0x100 0x002081B3 [] []).acceptor 0x100 .word =
      some ⟨0, 0xFFFF, .memory (Memory.writeBytes [] 0x100 0x002081B3 4) []⟩ := by decide

/-- The extreme immediates of every format. -/
theorem witness_DecodeOfEncode :
    [Instr.addi 31 0 (-2048), Instr.sw 0 31 2047, Instr.beq 1 2 (-4096), Instr.lui 5 0xFFFFF000, Instr.jal 0 1048574,
      Instr.srai 1 1 31, Instr.and 31 31 31, Instr.mret].all (fun i => i.wf) = true := by decide
theorem witness_EncodeOfDecode : decode 0x7E208FE3 = .ok (.beq 1 2 4094) := by decide
theorem witness_RowsAreDisjoint : (row .srai).matches 0x41F15093 = true ∧ (row .srai).matches 0x41F15093 = true := by decide
theorem witness_ImmediatesSpelledOut : opcodeOf 0x41F15093 = 0x13 ∧ funct3Of 0x41F15093 = 5 ∧ opcodeOf 0x01F11093 = 0x13 ∧
    funct3Of 0x01F11093 = 1 := by decide
theorem witness_RegisterFileReadsAndWrites : (31 : RegIdx) ≠ 0 ∧ (1 : RegIdx) ≠ 31 := by decide
/-- An access that would wrap past the end of the address space. -/
theorem witness_AcceptsIffEveryByteInRange : 2 ^ 32 < (0xFFFFFFFD : Word).toNat + AccessSize.word.bytes := by decide
/-- No device accepts; the second of two is the first that accepts. -/
theorem witness_BusReadSelectsFirstAcceptor : (∀ d ∈ mem.devices, d.accepts 0x10000 .byte = false) ∧
    (dev []).devices[1]? = some ⟨0xB0000000, 0xB0000003, .external [] [] []⟩ ∧
    (Device.mk 0xB0000000 0xB0000003 (.external [] [] [])).accepts 0xB0000000 .word = true ∧
    (∀ (j : Nat) (d' : Device), j < 1 → (dev []).devices[j]? = some d' → d'.accepts 0xB0000000 .word = false) := by
  refine ⟨by decide, by decide, by decide, ?_⟩
  intro j d' hj hd
  have hj0 : j = 0 := by omega
  subst hj0
  cases hd
  decide
theorem witness_DriverActsAtBoundariesOnly : reg16.hasReg 15 = true ∧ reg16.stage = .fetch ∧
    (decodeStage (fetchStage reg16)).stage ≠ .fetch ∧ (decodeStage (fetchStage reg16)).hasReg 15 = true := by decide

end Sys2Proof.Tests
end

/-! The parameters of the block, `NREGS` and the devices' ranges (R5, R37), through a whole step. -/

namespace Sys2Proof.Machine

/-- UpdatePC only moves each device on to its next interrupt sample, which is not part of the configuration. -/
theorem shape_updatePC (s : State) (isMret : Bool) : (s.updatePC isMret).shape = s.shape := by
  refine shape_congr (updatePC_nregs s isMret) ?_
  rw [updatePC_devices]
  exact map_nextSample Device.range Device.range_nextSample s.devices

theorem Underway.shape_eq {s u : State} (h : Underway s u) : u.shape = s.shape := shape_congr h.nregs h.ranges

/-- Settles O39: a step leaves the instruction underway until one UpdatePC, and both keep the configuration. -/
theorem stepKeepsConfiguration : Obligations.StepKeepsConfiguration := by
  intro s t h
  obtain ⟨u, isMret, hu, rfl⟩ := step_cases h
  exact (shape_updatePC u isMret).trans hu.shape_eq

end Sys2Proof.Machine

/-! The state's invariants (10_state.md): what UpdatePC makes of `pc`, `mepc` and the interrupt latch, from it the invariant of
the machine's states (R19, R24) and the safety of the return register (R24, R27), and which instruction and which stage writes
what (R14 to R17, R36). -/

namespace Sys2Proof.Machine

/-! ## UpdatePC and the well-formed states -/

/-- With no interrupt accepted UpdatePC goes on at `mepc` for `mret` and at `next` for the others, keeps `mepc`, and clears the
latch for `mret` alone (R96, R139). -/
theorem updatePC_of_not_accept (s : State) (isMret : Bool) (h : s.acceptInterrupt = false) :
    (s.updatePC isMret).pc = alignPc (if isMret then s.mepc else s.nextPc) ∧ (s.updatePC isMret).mepc = s.mepc ∧
      (s.updatePC isMret).irqState = (s.irqState && !isMret) := by
  cases isMret with
  | false => simpa using updatePC_of_continue s h
  | true => simpa using updatePC_of_return s h

theorem wf_iff (s : State) :
    s.wf = true ↔ aligned s.pc = true ∧ aligned s.mepc = true ∧ s.devices.all Device.wf = true := by
  simp only [State.wf, Bool.and_eq_true, and_assoc]

/-- UpdatePC leaves a well-formed state whatever the pc before it, for every value it writes to the pc is aligned (R19). -/
theorem wf_updatePC {s : State} (isMret : Bool) (hm : aligned s.mepc = true) (hd : s.devices.all Device.wf = true) :
    (s.updatePC isMret).wf = true := by
  have hd' : (s.updatePC isMret).devices.all Device.wf = true := by
    rw [updatePC_devices, all_wf_congr (map_nextSample Device.wf Device.wf_nextSample s.devices)]
    exact hd
  rw [wf_iff]
  cases h : s.acceptInterrupt with
  | true =>
    obtain ⟨hpc, hmepc, -⟩ := updatePC_of_accept s isMret h
    rw [hpc, hmepc]
    exact ⟨by decide, aligned_alignPc _, hd'⟩
  | false =>
    obtain ⟨hpc, hmepc, -⟩ := updatePC_of_not_accept s isMret h
    rw [hpc, hmepc]
    exact ⟨aligned_alignPc _, hm, hd'⟩

/-- Settles O37: up to its UpdatePC a step keeps `mepc` and the canonical memories, and UpdatePC aligns what it writes. -/
theorem stepKeepsWellFormedState : Obligations.StepKeepsWellFormedState := by
  intro s t hwf h
  obtain ⟨-, hm, hd⟩ := (wf_iff s).mp hwf
  obtain ⟨u, isMret, hu, rfl⟩ := step_cases h
  exact wf_updatePC isMret (hu.mepc ▸ hm) (hu.wf hd)

/-- Settles O38: the reset values are 0, and the reset memory lists no byte. -/
theorem resetIsWellFormed : Obligations.ResetIsWellFormed := by
  unfold Obligations.ResetIsWellFormed
  decide

/-! ## The return register and the interrupt latch -/

/-- Whether the interrupt is accepted is decided by the state before the instruction (R150, R154). -/
theorem Underway.acceptInterrupt_eq {s u : State} (h : Underway s u) : u.acceptInterrupt = s.acceptInterrupt :=
  acceptInterrupt_congr h.line h.irqState

/-- Settles O29: a step ends with one UpdatePC, which writes `mepc` only where it accepts an interrupt. -/
theorem mepcIsWrittenOnlyByEntry : Obligations.MepcIsWrittenOnlyByEntry := by
  intro s t h hne
  obtain ⟨u, isMret, hu, rfl⟩ := step_cases h
  cases ha : s.acceptInterrupt with
  | true =>
    obtain ⟨hpc, -, hirq⟩ := updatePC_of_accept u isMret (hu.acceptInterrupt_eq.trans ha)
    obtain ⟨hline, hlatch⟩ : s.irqLine = true ∧ s.irqState = false := by simpa [State.acceptInterrupt] using ha
    exact ⟨hline, hlatch, hpc, hirq⟩
  | false =>
    obtain ⟨-, hmepc, -⟩ := updatePC_of_not_accept u isMret (hu.acceptInterrupt_eq.trans ha)
    exact absurd (hmepc.trans hu.mepc) hne

/-- At a boundary a step ends with the UpdatePC of `mret` exactly when the fetched word is `mret`. -/
theorem step_cases_of_fetch {s t : State} (hs : s.stage = .fetch) (h : step s = .next t) :
    ∃ u isMret, Underway s u ∧ t = u.updatePC isMret ∧
      (isMret = true ↔ decode (s.busRead s.pc .word false).1 = .ok .mret) := by
  have hd : Underway s (decodeStage (fetchStage s)) := (underway_fetchStage s).trans (underway_decodeStage _)
  rw [step_of_fetch hs] at h
  cases hw : decode (s.busRead s.pc .word false).1 with
  | ok i =>
    rw [hw] at h
    obtain ⟨u, hu, ht⟩ := exec_underway h
    exact ⟨u, _, hd.trans hu, ht, by simp⟩
  | error e =>
    rw [hw] at h
    obtain ⟨u, hu, ht⟩ := retire_underway hd h
    exact ⟨u, false, hu, ht, by simp⟩

/-- Settles O30: with the latch set no interrupt is accepted, and UpdatePC then clears the latch for `mret` alone. -/
theorem handlerIsNotInterrupted : Obligations.HandlerIsNotInterrupted := by
  intro s t hs hirq h
  obtain ⟨u, isMret, hu, rfl, hmret⟩ := step_cases_of_fetch hs h
  have hna : s.acceptInterrupt = false := by simp [State.acceptInterrupt, hirq]
  obtain ⟨hpc, hmepc, hlatch⟩ := updatePC_of_not_accept u isMret (hu.acceptInterrupt_eq.trans hna)
  rw [hu.mepc] at hpc hmepc
  rw [hu.irqState, hirq] at hlatch
  refine ⟨hmepc, fun hne => ?_, fun heq => ?_⟩
  · have hf : isMret = false := by simpa using fun ht => hne (hmret.mp ht)
    simpa [hf] using hlatch
  · have ht : isMret = true := hmret.mpr heq
    exact ⟨by simpa [ht] using hlatch, by simpa [ht] using hpc⟩

/-! ## The registers an instruction uses and writes -/

/-- Settles O56, by the laws of the register file. -/
theorem registerFileReadsAndWrites : Obligations.RegisterFileReadsAndWrites := by
  intro s i v
  refine ⟨readReg_zero s, writeReg_zero s v, fun hi => ?_, fun r hr => readReg_writeReg_ne s v hr⟩
  rw [readReg_writeReg_self, if_neg hi]

/-- Every instruction runs under the guard on the register fields it uses (R16). -/
theorem exec_eq_guardRegs (i : Instr) (s : State) : ∃ k, exec i s = guardRegs (usedRegsOf i) s k := by
  cases i
  case mret => exact ⟨execMret s, rfl⟩
  all_goals exact ⟨_, rfl⟩

/-- Settles O33: the guard refuses. -/
theorem absentRegisterIsRefused : Obligations.AbsentRegisterIsRefused := by
  intro i s habsent
  obtain ⟨k, hk⟩ := exec_eq_guardRegs i s
  exact hk.trans (guardRegs_of_absent habsent)

/-- Retirement writes no register. -/
theorem readReg_of_retire {s u t : State} {taken : Bool} (h : u.retire taken = .next t) (hu : u.regs = s.regs)
    (r : RegIdx) : t.readReg r = s.readReg r := by
  cases h
  exact readReg_congr (by simpa using hu) r

/-- An instruction that ends by writing `rd` leaves every other register (R17). -/
theorem readReg_of_retire_writeReg {s u t : State} {rd r : RegIdx} {v : Word} {taken : Bool}
    (h : (u.writeReg rd v).retire taken = .next t) (hu : u.regs = s.regs) (hne : some rd ≠ some r) :
    t.readReg r = s.readReg r := by
  have hr : r ≠ rd := fun e => hne (congrArg some e.symm)
  calc t.readReg r = (u.writeReg rd v).readReg r := readReg_of_retire h rfl r
    _ = u.readReg r := readReg_writeReg_ne u v hr
    _ = s.readReg r := readReg_congr hu r

/-- Settles O34: no latch and no bus access of an instruction writes a register; only its write to `rd` does, if it has one. -/
theorem onlyDestinationRegisterChanges : Obligations.OnlyDestinationRegisterChanges := by
  intro i s t r h hdest
  cases i
  case mret =>
    cases h
    exact readReg_congr (by simp) r
  case beq | bne | blt | bge | bltu | bgeu => exact readReg_of_retire (guardRegs_next h).2 (by simp) r
  case sb | sh | sw => exact readReg_of_retire (guardRegs_next h).2 (by simp [storeWrite]) r
  case lb | lh | lw | lbu | lhu => exact readReg_of_retire_writeReg (guardRegs_next h).2 (by simp [loadRead]) hdest
  all_goals exact readReg_of_retire_writeReg (guardRegs_next h).2 (by simp) hdest

/-! ## What each stage writes -/

/-- Compute writes no register, makes no bus access and leaves the latches of Fetch alone (R90 to R93). -/
theorem computeStage_keeps {s t : State} (h : computeStage s = .next t) :
    t.regs = s.regs ∧ t.loadStoreError = s.loadStoreError ∧ t.fetchData = s.fetchData ∧ t.fetchError = s.fetchError ∧
      t.busError = s.busError ∧ t.devices = s.devices := by
  cases (guardRegs_next h).2
  unfold computeNext
  split <;> simp [aluStage]

/-- LoadStoreWriteBack leaves the latches of Fetch alone, whatever access it makes (R95). -/
theorem writeBack_fetchLatches (s : State) :
    (writeBack s).fetchData = s.fetchData ∧ (writeBack s).fetchError = s.fetchError := by
  unfold writeBack loadStage storeStage
  cases s.dp.wbMem <;> simp

/-- Settles O44: before UpdatePC the instruction is underway; the rest is read off stage by stage. -/
theorem eachStageWritesItsOwnState : Obligations.EachStageWritesItsOwnState := by
  intro s t h
  refine ⟨fun hne => ?_, ?_⟩
  · obtain ⟨-, hu, -⟩ | ⟨heq, -⟩ := stageStep_cases h
    · exact ⟨hu.pc, hu.mepc, hu.irqState⟩
    · exact absurd heq hne
  · unfold stageStep at h
    cases hs : s.stage <;> simp only [hs] at h
    case fetch => cases h; simp [fetchStage]
    case decode => cases h; simp [decodeStage]
    case compute => simp [computeStage_keeps h]
    case compare => cases h; simp [compareStage]
    case loadStoreWriteBack => cases h; simp [loadStoreStage, writeBack_fetchLatches s]
    case updatePC => cases h; simp [updatePcStage]

end Sys2Proof.Machine

/-! The devices and the bus (20_memory.md): which accesses a device accepts (R37), the interrupt line (R45), where a bus read and
a bus write go (R43, R44), reading back what was written (R42, R50), and what loads, stores and the other instructions do to the
devices (R36, R38, R39, R52, R56). -/

namespace Sys2Proof.Machine

/-! ## The device contract -/

/-- Settles O57: the range is an interval, so an access lies in it when its first and its last byte do; the range ends below
2^32, and the last byte of an access that would wrap does not. -/
theorem acceptsIffEveryByteInRange : Obligations.AcceptsIffEveryByteInRange := by
  intro d addr size
  have hpos : 0 < size.bytes := by cases size <;> decide
  have hlast : d.last.toNat < 2 ^ 32 := d.last.isLt
  unfold Device.accepts
  refine ⟨?_, fun hwrap => decide_eq_false (by omega)⟩
  rw [decide_eq_true_iff]
  constructor
  · intro hends j hj
    omega
  · intro hall
    have hfirstByte := hall 0 hpos
    have hlastByte := hall (size.bytes - 1) (by omega)
    omega

/-- A read of a device that is no `Memory` uses up one answer and is recorded (R38). -/
theorem Device.localRead_external {d : Device} {irqs : List Bool} {answers : List Word} {accesses : List LocalAccess}
    (hk : d.kind = .external irqs answers accesses) (off : Nat) (size : AccessSize) (n : Nat) :
    (∀ v rest, answers = v :: rest → (d.localRead off size n).1 = v) ∧
      (d.localRead off size n).2.1 = { d with kind := .external irqs answers.tail (.read off size :: accesses) } := by
  unfold Device.localRead
  cases answers <;> simp [hk]

/-- A write to a `Memory` puts the bytes in place (R42). -/
theorem Device.localWrite_memory {d : Device} {cells initial : Memory} (hk : d.kind = .memory cells initial) (off : Nat)
    (size : AccessSize) (v : Word) :
    d.localWrite off size v = { d with kind := .memory (cells.writeBytes off v size.bytes) initial } := by
  simp [Device.localWrite, hk]

/-- A write to a device that is no `Memory` is recorded with its full value (R39). -/
theorem Device.localWrite_external {d : Device} {irqs : List Bool} {answers : List Word} {accesses : List LocalAccess}
    (hk : d.kind = .external irqs answers accesses) (off : Nat) (size : AccessSize) (v : Word) :
    d.localWrite off size v = { d with kind := .external irqs answers (.write off size v :: accesses) } := by
  simp [Device.localWrite, hk]

theorem Device.nextSample_memory {d : Device} {cells initial : Memory} (hk : d.kind = .memory cells initial) :
    d.nextSample = d := by
  simp [Device.nextSample, hk]

theorem Device.nextSample_external {d : Device} {irqs : List Bool} {answers : List Word} {accesses : List LocalAccess}
    (hk : d.kind = .external irqs answers accesses) :
    d.nextSample = { d with kind := .external irqs.tail answers accesses } := by
  simp [Device.nextSample, hk]

/-! ## The bus -/

/-- Settles O27: the line is the `any` of the requests over the device list. -/
theorem lineIsOrOfRequests : Obligations.LineIsOrOfRequests := by
  intro s
  exact ⟨List.any_eq_true, fun hnone => by simp [State.irqLine, hnone]⟩

/-- The read goes to the device at position `k` when that one accepts and none before it does (R43). -/
theorem firstRead_of_first (addr : Word) (size : AccessSize) (n : Nat) :
    ∀ {ds : List Device} {k : Nat} {d : Device}, ds[k]? = some d → d.accepts addr size = true →
      (∀ (j : Nat) (d' : Device), j < k → ds[j]? = some d' → d'.accepts addr size = false) →
      firstRead addr size n ds =
        some ((d.localRead (d.offset addr) size n).1, ds.set k (d.localRead (d.offset addr) size n).2.1,
          (d.localRead (d.offset addr) size n).2.2)
  | d0 :: ds, 0, d, hk, ha, _ => by
    cases hk
    simp [firstRead, ha]
  | d0 :: ds, k + 1, d, hk, ha, hfirst => by
    have hd0 : d0.accepts addr size = false := hfirst 0 d0 (Nat.succ_pos k) rfl
    have ih := firstRead_of_first addr size n (ds := ds) hk ha fun j d' hj => hfirst (j + 1) d' (Nat.succ_lt_succ hj)
    simp [firstRead, hd0, ih]

/-- Settles O58: with no acceptor the search for one fails; else it stops at the first. -/
theorem busReadSelectsFirstAcceptor : Obligations.BusReadSelectsFirstAcceptor := by
  intro s addr size sg
  refine ⟨fun hnone => busRead_of_none sg ?_, fun k d hk ha hfirst => ?_⟩
  · exact List.find?_eq_none.mpr fun d hd => by simp [hnone d hd]
  · simp only [State.busRead, firstRead_of_first addr size s.draws hk ha hfirst]

/-- Settles O59: a bus write maps the device list. -/
theorem busWriteReachesEveryAcceptor : Obligations.BusWriteReachesEveryAcceptor := by
  intro s addr v size
  refine ⟨by simp, fun k => ?_⟩
  rw [busWrite_devices, writeAccepting, List.getElem?_map]

/-- After a write that a `Memory` answers for, that `Memory` still answers, and holds the bytes written (R42, R44). -/
theorem acceptor_busWrite_of_memory {s : State} {addr : Word} {size : AccessSize} {d : Device} {cells initial : Memory}
    (ha : s.acceptor addr size = some d) (hk : d.kind = .memory cells initial) (v : Word) :
    (s.busWrite addr size v).acceptor addr size =
      some { d with kind := .memory (cells.writeBytes (d.offset addr) v size.bytes) initial } := by
  have haccepts : d.accepts addr size = true := List.find?_some (p := fun d : Device => d.accepts addr size) ha
  rw [acceptor_busWrite, ha, Option.map_some, if_pos haccepts, Device.localWrite_memory hk]

/-- Settles O21: the `Memory` that is written answers the read, with the bytes just written. -/
theorem readAfterWriteReturnsValue : Obligations.ReadAfterWriteReturnsValue := by
  intro s addr v size sg d cells initial ha hk
  rw [busRead_of_memory sg (acceptor_busWrite_of_memory ha hk v) rfl]
  exact extend_readBytes_writeBytes cells (d.offset addr) size sg v

/-! ## Loads and stores on the devices -/

/-- A load's read that some device accepts: one local read of the first that does, and no other device changes (R43, R52). -/
theorem loadRead_of_some {s : State} {size : AccessSize} (sg : Bool) {rs1 : RegIdx} {imm : Word} {d : Device}
    (ha : s.acceptor (effectiveAddress s rs1 imm) size = some d) :
    ∃ k n, s.devices[k]? = some d ∧
      (loadRead size sg rs1 imm s).1 =
        extend size sg (d.localRead (d.offset (effectiveAddress s rs1 imm)) size n).1 ∧
      (loadRead size sg rs1 imm s).2.busError = false ∧
      (loadRead size sg rs1 imm s).2.devices =
        s.devices.set k (d.localRead (d.offset (effectiveAddress s rs1 imm)) size n).2.1 := by
  have hdev : (s.latchCompute rs1 s.instr.rs2 (effectiveAddress s rs1 imm)).devices = s.devices := latchCompute_devices ..
  obtain ⟨k, hk, he⟩ := busRead_of_some sg ((acceptor_congr hdev _ _).trans ha)
  rw [hdev] at hk he
  exact ⟨k, _, hk, congrArg Prod.fst he, congrArg (fun r => r.2.busError) he, congrArg (fun r => r.2.devices) he⟩

/-- Settles O18: a load makes one bus read, the bus read one local read of one device, and UpdatePC then moves every device on to
its next interrupt sample. -/
theorem loadFromDeviceReadsOnce : Obligations.LoadFromDeviceReadsOnce := by
  intro i size sg rd rs1 imm s d irqs answers accesses hload hrd h1 ha hkind
  obtain ⟨k, n, hk, hval, herr, hdev⟩ := loadRead_of_some sg ha
  obtain ⟨hraw, hread⟩ := Device.localRead_external hkind (d.offset (effectiveAddress s rs1 imm)) size n
  obtain ⟨t, ht, hreg, htdev, hbus, hls, hothers, hadv, -, hlatches⟩ :=
    loadFrom_spec (size := size) (sg := sg) (imm := imm) hrd h1
  rw [hval] at hreg
  rw [hdev, hread] at htdev
  rw [herr] at hbus hls
  refine ⟨k, _, t, hk, hraw, (exec_of_loadOf hload s).trans ht, hreg, hothers, ?_, ?_, hbus, hls, hadv, hlatches⟩
  · obtain ⟨hlt, -⟩ := List.getElem?_eq_some_iff.mp hk
    rw [htdev, List.getElem?_map, List.getElem?_set_self hlt, Option.map_some, Device.nextSample_external rfl]
  · intro j hj
    rw [htdev, List.getElem?_map, List.getElem?_set_ne (Ne.symm hj)]

/-- Settles O20: a store makes one bus write, which calls `localWrite` once on each acceptor. -/
theorem storeGivesDeviceFullValueOnce : Obligations.StoreGivesDeviceFullValueOnce := by
  intro i size rs1 rs2 imm s hstore h1 h2 ea
  obtain ⟨t, ht, htdev, -⟩ := storeTo_spec (size := size) (imm := imm) h1 h2
  refine ⟨t, (exec_of_storeOf hstore s).trans ht, fun k d irqs answers accesses hd hkind => ?_⟩
  rw [htdev, writeAccepting, List.getElem?_map, List.getElem?_map, hd, Option.map_some, Option.map_some]
  by_cases haccepts : d.accepts ea size = true
  · rw [if_pos haccepts, if_pos haccepts, Device.localWrite_external hkind, Device.nextSample_external rfl]
  · rw [if_neg haccepts, if_neg haccepts, Device.nextSample_external hkind]

theorem aligned_iff (v : Word) : aligned v = true ↔ v.toNat % 4 = 0 := by
  simp [aligned, ← BitVec.toNat_inj]

/-- The address after an aligned instruction is aligned (R19, R23). -/
theorem aligned_add_four {v : Word} (h : aligned v = true) : aligned (v + 4) = true := by
  rw [aligned_iff] at *
  bv_omega

/-- Settles O22: the store's `Memory` answers the fetch, and UpdatePC leaves its bytes alone. -/
theorem storeIsSeenByNextFetch : Obligations.StoreIsSeenByNextFetch := by
  intro rs1 rs2 imm s t d cells initial h1 h2 hpc hnoIrq hea ha hkind h
  obtain ⟨u, hu, hdev, -, -, -, hadv, -⟩ := storeTo_spec (size := .word) (imm := imm) h1 h2
  cases hu.symm.trans h
  have htpc : t.pc = s.pc + 4 := by
    have hcontinue : (s.irqLine && !s.irqState) = false := hnoIrq
    rw [Advances, hcontinue, if_neg Bool.false_ne_true, alignPc_of_aligned (aligned_add_four hpc)] at hadv
    exact hadv.1
  have hacc : t.acceptor t.pc .word =
      some { d with kind := .memory (cells.writeBytes (d.offset (s.pc + 4)) (s.readReg rs2) 4) initial } := by
    rw [hea] at hdev
    rw [htpc, acceptor_of_nextSample (s := s.busWrite (s.pc + 4) .word (s.readReg rs2)) hdev,
      acceptor_busWrite_of_memory ha hkind, Option.map_some, Device.nextSample_memory rfl]
    rfl
  rw [fetchStage_of_memory hacc rfl, htpc]
  exact ⟨rfl, extend_readBytes_writeBytes cells (d.offset (s.pc + 4)) .word false (s.readReg rs2), rfl⟩

/-! ## Who changes memory -/

/-- Retirement changes no byte of memory: UpdatePC only moves the devices on to their next interrupt sample. -/
theorem memoryKept_of_retire {s u t : State} {taken : Bool} (h : u.retire taken = .next t)
    (hu : u.devices.map Device.view = s.devices.map Device.view) : MemoryKept s t := by
  cases h
  refine memoryKept_of_view ?_
  rw [updatePC_devices, view_map_nextSample, setTaken_devices, hu]

/-- Settles O35: a load's bus read keeps the bytes of every device, and the other instructions make no bus access. -/
theorem onlyStoresChangeMemory : Obligations.OnlyStoresChangeMemory := by
  intro i s t hstore h
  cases i
  case sb | sh | sw => cases hstore
  case mret =>
    cases h
    refine memoryKept_of_view ?_
    rw [updatePC_devices, view_map_nextSample, setTaken_devices]
  case lb | lh | lw | lbu | lhu =>
    exact memoryKept_of_retire (guardRegs_next h).2 (by simp [loadRead, view_busRead])
  all_goals exact memoryKept_of_retire (guardRegs_next h).2 (by simp)

end Sys2Proof.Machine

/-! The binary codec (30_encoding.md): the rows of the table are disjoint (R69), mask and match (R68), the opcode map (R74), the
immediates (R64, R65), and the two round trips of encoder and decoder (R73). -/

namespace Sys2Proof

/-! ## The rows of the table -/

theorem mem_mnemonics (m : Mnemonic) : m ∈ mnemonics := by cases m <;> decide

theorem fieldMatches_iff {n : Nat} {spec : Option (BitVec n)} {v : BitVec n} :
    fieldMatches spec v = true ↔ ∀ u ∈ spec, v = u := by
  cases spec with
  | none => simp [fieldMatches]
  | some u => simp [fieldMatches, eq_comm (a := u)]

theorem Row.matches_iff {t : Row} {w : Word} :
    t.matches w = true ↔ opcodeOf w = t.opcode ∧ (∀ u ∈ t.funct3, funct3Of w = u) ∧ (∀ u ∈ t.funct7, funct7Of w = u) ∧
      (∀ u ∈ t.rs2, rs2Of w = u) ∧ (∀ u ∈ t.rs1, rs1Of w = u) ∧ (∀ u ∈ t.rd, rdOf w = u) := by
  rw [eq_comm (a := opcodeOf w)]
  simp only [Row.matches, Bool.and_eq_true, beq_iff_eq, fieldMatches_iff, and_assoc]

/-- The two rows agree wherever both specify the opcode, funct3 or funct7. -/
def Row.agree (t u : Row) : Prop :=
  t.opcode = u.opcode ∧ (∀ x ∈ t.funct3, ∀ y ∈ u.funct3, x = y) ∧ (∀ x ∈ t.funct7, ∀ y ∈ u.funct7, x = y)

theorem Row.agree_of_matches {t u : Row} {w : Word} (ht : t.matches w = true) (hu : u.matches w = true) : t.agree u := by
  obtain ⟨hop, h3, h7, -⟩ := Row.matches_iff.mp ht
  obtain ⟨hop', h3', h7', -⟩ := Row.matches_iff.mp hu
  exact ⟨hop.symm.trans hop', fun x hx y hy => (h3 x hx).symm.trans (h3' y hy),
    fun x hx y hy => (h7 x hx).symm.trans (h7' y hy)⟩

/-- Two different rows differ in one of these fields, specified in both (R69). -/
theorem eq_of_row_agree : ∀ m ∈ mnemonics, ∀ m' ∈ mnemonics, (row m).agree (row m') → m = m' := by
  unfold Row.agree
  decide

/-- Settles O48: two rows that a word matches agree wherever both specify a field, and no two rows of the table do. -/
theorem rowsAreDisjoint : Obligations.RowsAreDisjoint := by
  intro w m m' hm hm'
  exact eq_of_row_agree m (mem_mnemonics m) m' (mem_mnemonics m') (Row.agree_of_matches hm hm')

/-- The search by rows finds the one mnemonic whose row the word matches (R69). -/
theorem mnemonicOf_eq_some_iff {w : Word} {m : Mnemonic} : mnemonicOf w = some m ↔ (row m).matches w = true := by
  constructor
  · exact fun h => List.find?_some (p := fun m => (row m).matches w) h
  · intro h
    cases hm : mnemonicOf w with
    | none => exact absurd h (List.find?_eq_none.mp hm m (mem_mnemonics m))
    | some m' =>
      have hm' : (row m').matches w = true := List.find?_some (p := fun m => (row m).matches w) hm
      rw [rowsAreDisjoint w m' m hm' h]

/-! ## A word as its fields side by side (R60) -/

/-- The word with these fields, highest bits first. -/
def wordOfFields (f7 : BitVec 7) (rs2 rs1 : RegIdx) (f3 : BitVec 3) (rd : RegIdx) (op : BitVec 7) : Word :=
  f7 ++ rs2 ++ rs1 ++ f3 ++ rd ++ op

theorem wordOfFields_self (w : Word) :
    wordOfFields (funct7Of w) (rs2Of w) (rs1Of w) (funct3Of w) (rdOf w) (opcodeOf w) = w := by
  simp only [wordOfFields, funct7Of, rs2Of, rs1Of, funct3Of, rdOf, opcodeOf]
  repeat rw [BitVec.extractLsb'_append_extractLsb'_eq_extractLsb' (by rfl)]
  exact BitVec.extractLsb'_eq_self

section
variable (f7 : BitVec 7) (rs2 rs1 : RegIdx) (f3 : BitVec 3) (rd : RegIdx) (op : BitVec 7)

@[simp] theorem opcodeOf_wordOfFields : opcodeOf (wordOfFields f7 rs2 rs1 f3 rd op) = op := opcodeOf_append ..
@[simp] theorem rdOf_wordOfFields : rdOf (wordOfFields f7 rs2 rs1 f3 rd op) = rd := rdOf_append ..
@[simp] theorem funct3Of_wordOfFields : funct3Of (wordOfFields f7 rs2 rs1 f3 rd op) = f3 := funct3Of_append ..
@[simp] theorem rs1Of_wordOfFields : rs1Of (wordOfFields f7 rs2 rs1 f3 rd op) = rs1 := rs1Of_append ..
@[simp] theorem rs2Of_wordOfFields : rs2Of (wordOfFields f7 rs2 rs1 f3 rd op) = rs2 := rs2Of_append ..
@[simp] theorem funct7Of_wordOfFields : funct7Of (wordOfFields f7 rs2 rs1 f3 rd op) = f7 := funct7Of_append ..

end

theorem eq_wordOfFields_iff {f7 : BitVec 7} {rs2 rs1 : RegIdx} {f3 : BitVec 3} {rd : RegIdx} {op : BitVec 7} {w : Word} :
    w = wordOfFields f7 rs2 rs1 f3 rd op ↔
      opcodeOf w = op ∧ funct3Of w = f3 ∧ funct7Of w = f7 ∧ rs2Of w = rs2 ∧ rs1Of w = rs1 ∧ rdOf w = rd := by
  constructor
  · rintro rfl
    simp
  · rintro ⟨rfl, rfl, rfl, rfl, rfl, rfl⟩
    exact (wordOfFields_self w).symm

theorem wordOfFields_and (f7 f7' : BitVec 7) (rs2 rs2' rs1 rs1' : RegIdx) (f3 f3' : BitVec 3) (rd rd' : RegIdx)
    (op op' : BitVec 7) :
    wordOfFields f7 rs2 rs1 f3 rd op &&& wordOfFields f7' rs2' rs1' f3' rd' op' =
      wordOfFields (f7 &&& f7') (rs2 &&& rs2') (rs1 &&& rs1') (f3 &&& f3') (rd &&& rd') (op &&& op') := by
  simp only [wordOfFields, ← BitVec.and_append]

/-- Fields ORed into their places are the fields side by side. -/
theorem or_shifted_fields (f7 : BitVec 7) (rs2 rs1 : RegIdx) (f3 : BitVec 3) (rd : RegIdx) (op : BitVec 7) :
    op.setWidth 32 ||| rd.setWidth 32 <<< 7 ||| f3.setWidth 32 <<< 12 ||| rs1.setWidth 32 <<< 15 |||
      rs2.setWidth 32 <<< 20 ||| f7.setWidth 32 <<< 25 = wordOfFields f7 rs2 rs1 f3 rd op := by
  apply BitVec.eq_of_getLsbD_eq
  intro i hi
  simp only [wordOfFields, BitVec.getLsbD_or, BitVec.getLsbD_append, BitVec.getLsbD_shiftLeft, BitVec.getLsbD_setWidth]
  interval_cases i <;> simp

/-! ## Mask and match of a row (R68) -/

/-- The mask of one field: all ones where the row specifies it. -/
def specMask {n : Nat} (spec : Option (BitVec n)) : BitVec n := if spec.isSome then BitVec.allOnes n else 0

theorem fieldMask_eq {n : Nat} (spec : Option (BitVec n)) (pos : Nat) :
    fieldMask spec pos = (specMask spec).setWidth 32 <<< pos := by
  cases spec <;> simp [fieldMask, specMask]

theorem maskWord_eq (t : Row) :
    t.maskWord = wordOfFields (specMask t.funct7) (specMask t.rs2) (specMask t.rs1) (specMask t.funct3) (specMask t.rd)
      (BitVec.allOnes 7) := by
  rw [← or_shifted_fields]
  simp only [Row.maskWord, fieldMask_eq]
  rfl

theorem matchWord_eq (t : Row) :
    t.matchWord =
      wordOfFields (t.funct7.getD 0) (t.rs2.getD 0) (t.rs1.getD 0) (t.funct3.getD 0) (t.rd.getD 0) t.opcode :=
  or_shifted_fields ..

theorem and_specMask_eq_iff {n : Nat} {spec : Option (BitVec n)} {v : BitVec n} :
    v &&& specMask spec = spec.getD 0 ↔ ∀ u ∈ spec, v = u := by
  cases spec <;> simp [specMask]

theorem Row.matches_iff_mask (t : Row) (w : Word) : t.matches w = true ↔ w &&& t.maskWord = t.matchWord := by
  conv => rhs; lhs; lhs; rw [← wordOfFields_self w]
  simp only [maskWord_eq, matchWord_eq, wordOfFields_and, eq_wordOfFields_iff, opcodeOf_wordOfFields, funct3Of_wordOfFields,
    funct7Of_wordOfFields, rs2Of_wordOfFields, rs1Of_wordOfFields, rdOf_wordOfFields, and_specMask_eq_iff,
    BitVec.and_allOnes, Row.matches_iff]

/-- Settles O49: a word is the word of its six fields, so the mask test is one test per field, and a field that the row leaves
open has mask and match 0. -/
theorem matchingIsMaskTest : Obligations.MatchingIsMaskTest := fun w m => (row m).matches_iff_mask w

/-! ## The opcode map (R74) -/

theorem op_matches_iff {op : BitVec 7} {w : Word} : (Row.op op).matches w = true ↔ opcodeOf w = op := by
  simp [Row.matches_iff, Row.op]

theorem op3_matches_iff {op : BitVec 7} {f3 : BitVec 3} {w : Word} :
    (Row.op3 op f3).matches w = true ↔ opcodeOf w = op ∧ funct3Of w = f3 := by
  simp [Row.matches_iff, Row.op3]

theorem shift_matches_iff {f3 : BitVec 3} {f7 : BitVec 7} {w : Word} :
    (Row.shift f3 f7).matches w = true ↔ opcodeOf w = 0x13 ∧ funct3Of w = f3 ∧ funct7Of w = f7 := by
  simp [Row.matches_iff, Row.shift]

theorem opReg_matches_iff {f3 : BitVec 3} {f7 : BitVec 7} {w : Word} :
    (Row.opReg f3 f7).matches w = true ↔ opcodeOf w = 0x33 ∧ funct3Of w = f3 ∧ funct7Of w = f7 := by
  simp [Row.matches_iff, Row.opReg]

theorem mret_matches_iff {w : Word} : (row .mret).matches w = true ↔ w = 0x30200073 := by
  rw [Row.matches_iff_mask, show (row .mret).maskWord = BitVec.allOnes 32 by decide,
    show (row .mret).matchWord = 0x30200073 by decide, BitVec.and_allOnes]

theorem mnemonicOf_ne_none_iff {w : Word} : mnemonicOf w ≠ none ↔ ∃ m, (row m).matches w = true := by
  simp only [Option.ne_none_iff_exists', mnemonicOf_eq_some_iff]

/-! Each line of the map in the table: the values of funct3 (and funct7) it gives all have a row. -/

theorem exists_row_branch : ∀ f3 : BitVec 3, f3.toNat = 0 ∨ f3.toNat = 1 ∨ 4 ≤ f3.toNat →
    ∃ m ∈ mnemonics, row m = .op3 0x63 f3 := by decide

theorem exists_row_load : ∀ f3 : BitVec 3, f3.toNat ≤ 2 ∨ f3.toNat = 4 ∨ f3.toNat = 5 →
    ∃ m ∈ mnemonics, row m = .op3 0x03 f3 := by decide

theorem exists_row_store : ∀ f3 : BitVec 3, f3.toNat ≤ 2 → ∃ m ∈ mnemonics, row m = .op3 0x23 f3 := by decide

theorem exists_row_opImm : ∀ f3 : BitVec 3, f3.toNat ≠ 1 ∧ f3.toNat ≠ 5 → ∃ m ∈ mnemonics, row m = .op3 0x13 f3 := by
  decide

theorem exists_row_shift : ∀ f3 : BitVec 3, ¬(f3.toNat ≠ 1 ∧ f3.toNat ≠ 5) → ∃ m ∈ mnemonics, row m = .shift f3 0 := by
  decide

theorem exists_row_opReg : ∀ f3 : BitVec 3, ∃ m ∈ mnemonics, row m = .opReg f3 0 := by decide

theorem exists_row_opReg_alternate : ∀ f3 : BitVec 3, f3.toNat = 0 ∨ f3.toNat = 5 →
    ∃ m ∈ mnemonics, row m = .opReg f3 32 := by decide

theorem exists_matches_of_row {w : Word} {t : Row} (ht : ∃ m ∈ mnemonics, row m = t) (h : t.matches w = true) :
    ∃ m, (row m).matches w = true := by
  obtain ⟨m, -, rfl⟩ := ht
  exact ⟨m, h⟩

/-- Settles O50: from left to right the row's fields lie in a line of the map, from right to left each line's values have rows. -/
theorem opcodeMap : Obligations.OpcodeMap := by
  intro w op f3 f7
  have op_iff {v : BitVec 7} : opcodeOf w = v ↔ op = v.toNat := BitVec.toNat_inj.symm
  have f3_iff {v : BitVec 3} : funct3Of w = v ↔ f3 = v.toNat := BitVec.toNat_inj.symm
  have f7_iff {v : BitVec 7} : funct7Of w = v ↔ f7 = v.toNat := BitVec.toNat_inj.symm
  rw [mnemonicOf_ne_none_iff]
  constructor
  · rintro ⟨m, h⟩
    cases m
    case lui | auipc | jal => simp [op_iff.mp (op_matches_iff.mp h)]
    case slli | srli | srai =>
      obtain ⟨hop, h3, h7⟩ := shift_matches_iff.mp h
      simp [op_iff.mp hop, f3_iff.mp h3, f7_iff.mp h7]
    case add | sub | sll | slt | sltu | xor | srl | sra | or | and =>
      obtain ⟨hop, h3, h7⟩ := opReg_matches_iff.mp h
      simp [op_iff.mp hop, f3_iff.mp h3, f7_iff.mp h7]
    case mret => simp [mret_matches_iff.mp h]
    all_goals
      obtain ⟨hop, h3⟩ := op3_matches_iff.mp h
      simp [op_iff.mp hop, f3_iff.mp h3]
  · rintro (hop | hop | hop | ⟨hop, h3⟩ | ⟨hop, h3⟩ | ⟨hop, h3⟩ | ⟨hop, h3⟩ | ⟨hop, h⟩ | ⟨hop, h⟩ | hw)
    · exact ⟨.lui, op_matches_iff.mpr (op_iff.mpr hop)⟩
    · exact ⟨.auipc, op_matches_iff.mpr (op_iff.mpr hop)⟩
    · exact ⟨.jal, op_matches_iff.mpr (op_iff.mpr hop)⟩
    · exact ⟨.jalr, op3_matches_iff.mpr ⟨op_iff.mpr hop, f3_iff.mpr h3⟩⟩
    · exact exists_matches_of_row (exists_row_branch _ h3) (op3_matches_iff.mpr ⟨op_iff.mpr hop, rfl⟩)
    · exact exists_matches_of_row (exists_row_load _ h3) (op3_matches_iff.mpr ⟨op_iff.mpr hop, rfl⟩)
    · exact exists_matches_of_row (exists_row_store _ h3) (op3_matches_iff.mpr ⟨op_iff.mpr hop, rfl⟩)
    · by_cases hplain : f3 ≠ 1 ∧ f3 ≠ 5
      · exact exists_matches_of_row (exists_row_opImm _ hplain) (op3_matches_iff.mpr ⟨op_iff.mpr hop, rfl⟩)
      · rcases h with h | h7 | ⟨h3, h7⟩
        · exact absurd h hplain
        · exact exists_matches_of_row (exists_row_shift _ hplain)
            (shift_matches_iff.mpr ⟨op_iff.mpr hop, rfl, f7_iff.mpr h7⟩)
        · exact ⟨.srai, shift_matches_iff.mpr ⟨op_iff.mpr hop, f3_iff.mpr h3, f7_iff.mpr h7⟩⟩
    · rcases h with h7 | ⟨h7, h3⟩
      · exact exists_matches_of_row (exists_row_opReg _) (opReg_matches_iff.mpr ⟨op_iff.mpr hop, rfl, f7_iff.mpr h7⟩)
      · exact exists_matches_of_row (exists_row_opReg_alternate _ h3)
          (opReg_matches_iff.mpr ⟨op_iff.mpr hop, rfl, f7_iff.mpr h7⟩)
    · exact ⟨.mret, mret_matches_iff.mpr hw⟩

/-! ## The immediates spelled out (R64) -/

theorem immOfSlices_I (w : Word) : immOfSlices w (slices .I) = (w.extractLsb' 20 12).signExtend 32 := by
  simp [immOfSlices, slices, signedSlice]

theorem immOfSlices_S (w : Word) :
    immOfSlices w (slices .S) = (w.extractLsb' 25 7 ++ w.extractLsb' 7 5).signExtend 32 := by
  apply BitVec.eq_of_getLsbD_eq
  intro i hi
  simp only [immOfSlices, slices, List.foldl, signedSlice, unsignedSlice, BitVec.getLsbD_or, BitVec.getLsbD_append,
    BitVec.getLsbD_shiftLeft, BitVec.getLsbD_setWidth, BitVec.getLsbD_signExtend, BitVec.getLsbD_extractLsb',
    BitVec.msb_eq_getLsbD_last]
  interval_cases i <;> simp

theorem immOfSlices_B (w : Word) :
    immOfSlices w (slices .B) =
      (w.extractLsb' 31 1 ++ w.extractLsb' 7 1 ++ w.extractLsb' 25 6 ++ w.extractLsb' 8 4 ++ 0#1).signExtend 32 := by
  apply BitVec.eq_of_getLsbD_eq
  intro i hi
  simp only [immOfSlices, slices, List.foldl, signedSlice, unsignedSlice, BitVec.getLsbD_or, BitVec.getLsbD_append,
    BitVec.getLsbD_shiftLeft, BitVec.getLsbD_setWidth, BitVec.getLsbD_signExtend, BitVec.getLsbD_extractLsb',
    BitVec.msb_eq_getLsbD_last]
  interval_cases i <;> simp

theorem immOfSlices_U (w : Word) : immOfSlices w (slices .U) = w.extractLsb' 12 20 ++ 0#12 := by
  apply BitVec.eq_of_getLsbD_eq
  intro i hi
  simp only [immOfSlices, slices, List.foldl, signedSlice, BitVec.getLsbD_append,
    BitVec.getLsbD_shiftLeft, BitVec.getLsbD_signExtend, BitVec.getLsbD_extractLsb']
  interval_cases i <;> simp

theorem immOfSlices_J (w : Word) :
    immOfSlices w (slices .J) =
      (w.extractLsb' 31 1 ++ w.extractLsb' 12 8 ++ w.extractLsb' 20 1 ++ w.extractLsb' 21 10 ++ 0#1).signExtend 32 := by
  apply BitVec.eq_of_getLsbD_eq
  intro i hi
  simp only [immOfSlices, slices, List.foldl, signedSlice, unsignedSlice, BitVec.getLsbD_or, BitVec.getLsbD_append,
    BitVec.getLsbD_shiftLeft, BitVec.getLsbD_setWidth, BitVec.getLsbD_signExtend, BitVec.getLsbD_extractLsb',
    BitVec.msb_eq_getLsbD_last]
  interval_cases i <;> simp

theorem immediate_of_shift {w : Word} (h : isShiftImm (opcodeOf w) (funct3Of w) = true) (f : Format) :
    immediate w (some f) = (rs2Of w).setWidth 32 := by
  simp [immediate, h]

theorem immediate_of_not_shift {w : Word} (h : isShiftImm (opcodeOf w) (funct3Of w) = false) (f : Format) :
    immediate w (some f) = immOfSlices w (slices f) := by
  simp [immediate, h]

/-- Settles O51: bit by bit for the five slice lists; the shift amount is the field rs2. -/
theorem immediatesSpelledOut : Obligations.ImmediatesSpelledOut := by
  intro w
  refine ⟨immOfSlices_I w, immOfSlices_S w, immOfSlices_B w, immOfSlices_U w, immOfSlices_J w, fun hop h3 => ?_⟩
  exact immediate_of_shift (by simpa [isShiftImm, hop] using h3) .I

/-! ## Which immediates a format can hold (R64, R65) -/

theorem imm12Ok_iff {imm : Word} : imm12Ok imm = true ↔ (imm.extractLsb' 0 12).signExtend 32 = imm := by
  rw [imm12Ok, decide_eq_true_iff, ← BitVec.toInt_inj, BitVec.toInt_signExtend_of_le (by decide),
    BitVec.toInt_eq_toNat_bmod imm, BitVec.toInt_eq_toNat_bmod (imm.extractLsb' _ _), BitVec.extractLsb'_toNat,
    Int.bmod_def, Int.bmod_def]
  have hlt := imm.isLt
  omega

theorem immBOk_iff {imm : Word} : immBOk imm = true ↔ (imm.extractLsb' 1 12 ++ 0#1).signExtend 32 = imm := by
  rw [immBOk, decide_eq_true_iff, ← BitVec.toInt_inj, BitVec.toInt_signExtend_of_le (by decide), BitVec.toInt_append_zero,
    BitVec.toInt_eq_toNat_bmod imm, BitVec.toInt_eq_toNat_bmod (imm.extractLsb' _ _), BitVec.extractLsb'_toNat,
    Int.bmod_def, Int.bmod_def]
  have hlt := imm.isLt
  omega

theorem immUOk_iff {imm : Word} : immUOk imm = true ↔ imm.extractLsb' 12 20 ++ 0#12 = imm := by
  rw [immUOk, decide_eq_true_iff, ← BitVec.toNat_inj]
  simp only [BitVec.toNat_append, BitVec.extractLsb'_toNat, BitVec.toNat_ofNat, Nat.zero_mod, Nat.or_zero, Nat.reducePow]
  have hlt := imm.isLt
  omega

theorem immJOk_iff {imm : Word} : immJOk imm = true ↔ (imm.extractLsb' 1 20 ++ 0#1).signExtend 32 = imm := by
  rw [immJOk, decide_eq_true_iff, ← BitVec.toInt_inj, BitVec.toInt_signExtend_of_le (by decide), BitVec.toInt_append_zero,
    BitVec.toInt_eq_toNat_bmod imm, BitVec.toInt_eq_toNat_bmod (imm.extractLsb' _ _), BitVec.extractLsb'_toNat,
    Int.bmod_def, Int.bmod_def]
  have hlt := imm.isLt
  omega

theorem shamtOk_iff {imm : Word} : shamtOk imm = true ↔ (imm.extractLsb' 0 5).setWidth 32 = imm := by
  rw [shamtOk, decide_eq_true_iff, ← BitVec.toNat_inj, BitVec.toNat_setWidth, BitVec.extractLsb'_toNat]
  omega

/-! ## The immediate of an encoded word (R71) -/

theorem immOfSlices_encodeRow_I {op : BitVec 7} {f3 : BitVec 3} (h : formatOf op = some .I)
    (hs : isShiftImm op f3 = false) (rd rs1 : RegIdx) (imm : Word) :
    immOfSlices (encodeRow (.op3 op f3) rd rs1 0 imm) (slices .I) = (imm.extractLsb' 0 12).signExtend 32 := by
  rw [encodeRow_I h hs, immOfSlices_I]
  congr 1
  rw [BitVec.append_assoc, BitVec.append_assoc, BitVec.append_assoc]
  exact BitVec.extractLsb'_append_eq_left

theorem immOfSlices_encodeRow_S (f3 : BitVec 3) (rs1 rs2 : RegIdx) (imm : Word) :
    immOfSlices (encodeRow (.op3 0x23 f3) 0 rs1 rs2 imm) (slices .S) = (imm.extractLsb' 0 12).signExtend 32 := by
  have hhi : (encodeRow (.op3 0x23 f3) 0 rs1 rs2 imm).extractLsb' 25 7 = imm.extractLsb' 5 7 := by
    rw [encodeRow_S]; exact funct7Of_wordOfFields ..
  have hlo : (encodeRow (.op3 0x23 f3) 0 rs1 rs2 imm).extractLsb' 7 5 = imm.extractLsb' 0 5 := by
    rw [encodeRow_S]; exact rdOf_wordOfFields ..
  rw [immOfSlices_S, hhi, hlo, BitVec.extractLsb'_append_extractLsb'_eq_extractLsb' (by rfl)]

theorem immOfSlices_encodeRow_B (f3 : BitVec 3) (rs1 rs2 : RegIdx) (imm : Word) :
    immOfSlices (encodeRow (.op3 0x63 f3) 0 rs1 rs2 imm) (slices .B) = (imm.extractLsb' 1 12 ++ 0#1).signExtend 32 := by
  rw [encodeRow_B, immOfSlices_B]
  congr 1
  apply BitVec.eq_of_getLsbD_eq
  intro i hi
  simp only [BitVec.getLsbD_append, BitVec.getLsbD_extractLsb']
  interval_cases i <;> simp

theorem immOfSlices_encodeRow_U {op : BitVec 7} (h : formatOf op = some .U) (hs : isShiftImm op 0 = false) (rd : RegIdx)
    (imm : Word) : immOfSlices (encodeRow (.op op) rd 0 0 imm) (slices .U) = imm.extractLsb' 12 20 ++ 0#12 := by
  rw [encodeRow_U h hs, immOfSlices_U, BitVec.append_assoc]
  congr 1
  exact BitVec.extractLsb'_append_eq_left

theorem immOfSlices_encodeRow_J (rd : RegIdx) (imm : Word) :
    immOfSlices (encodeRow (.op 0x6F) rd 0 0 imm) (slices .J) = (imm.extractLsb' 1 20 ++ 0#1).signExtend 32 := by
  rw [encodeRow_J, immOfSlices_J]
  congr 1
  apply BitVec.eq_of_getLsbD_eq
  intro i hi
  simp only [BitVec.getLsbD_append, BitVec.getLsbD_extractLsb']
  interval_cases i <;> simp

/-! ## The record of a word that matches a row (R69) -/

theorem recordFormat_row (m : Mnemonic) : recordFormat (some m) (row m).opcode = formatOf (row m).opcode := by
  cases m <;> rfl

theorem isShiftImm_of_matches {m : Mnemonic} {w : Word} (h : (row m).matches w = true) :
    isShiftImm (opcodeOf w) (funct3Of w) = isShiftImm (row m).opcode ((row m).funct3.getD 0) := by
  obtain ⟨hop, h3, -⟩ := Row.matches_iff.mp h
  rw [hop]
  cases m
  case lui | auipc | jal => rfl
  all_goals rw [h3 _ rfl]; rfl

theorem recordImm_of_shift {m : Mnemonic} {w : Word} {f3 : BitVec 3} {f7 : BitVec 7} (h : (row m).matches w = true)
    (hrow : row m = .shift f3 f7) (hs : isShiftImm 0x13 f3 = true) : recordImm (some m) w = (rs2Of w).setWidth 32 := by
  obtain ⟨hop, -⟩ := Row.matches_iff.mp h
  have hfmt : formatOf (row m).opcode = some .I := by rw [hrow]; rfl
  rw [recordImm, hop, recordFormat_row, hfmt]
  exact immediate_of_shift (by rw [isShiftImm_of_matches h, hrow]; exact hs) .I

theorem recordImm_of_slices {m : Mnemonic} {w : Word} {t : Row} {f : Format} (h : (row m).matches w = true)
    (hrow : row m = t) (hf : formatOf t.opcode = some f) (hs : isShiftImm t.opcode (t.funct3.getD 0) = false) :
    recordImm (some m) w = immOfSlices w (slices f) := by
  subst hrow
  obtain ⟨hop, -⟩ := Row.matches_iff.mp h
  rw [recordImm, hop, recordFormat_row, hf]
  exact immediate_of_not_shift ((isShiftImm_of_matches h).trans hs) f

theorem fields_of_matches {m : Mnemonic} {w : Word} (h : (row m).matches w = true) :
    (decodeRecord w).toInstrFields = ⟨some m, rdOf w, rs1Of w, rs2Of w, recordImm (some m) w⟩ := by
  simp only [decodeRecord, mnemonicOf_eq_some_iff.mpr h]

theorem decode_of_fields {w : Word} {f : InstrFields} {i : Instr} (h : (decodeRecord w).toInstrFields = f)
    (hi : instrOfFields f = some i) : decode w = .ok i := by
  simp only [decode, h, hi]

/-! ## Decoding an encoded instruction: its record, format by format (R73). The fields the format does not give are bits of
the immediate. -/

section
variable {m : Mnemonic} {w : Word} {f3 : BitVec 3} {rd rs1 rs2 : RegIdx} {imm : Word}

theorem fields_encodeRow_R {f7 : BitVec 7} (hrow : row m = .opReg f3 f7) (hw : w = encodeRow (row m) rd rs1 rs2 0) :
    (decodeRecord w).toInstrFields = ⟨some m, rd, rs1, rs2, recordImm (some m) w⟩ := by
  rw [hrow] at hw
  have hm : (row m).matches w = true := by rw [hrow, hw]; exact matches_opReg ..
  rw [encodeRow_opReg] at hw
  have hrd : rdOf w = rd := hw ▸ rdOf_append ..
  have hrs1 : rs1Of w = rs1 := hw ▸ rs1Of_append ..
  have hrs2 : rs2Of w = rs2 := hw ▸ rs2Of_append ..
  rw [fields_of_matches hm, hrd, hrs1, hrs2]

theorem fields_encodeRow_I {op : BitVec 7} (hrow : row m = .op3 op f3) (hfmt : formatOf op = some .I)
    (hshift : isShiftImm op f3 = false) (hw : w = encodeRow (row m) rd rs1 0 imm) (himm : imm12Ok imm = true) :
    (decodeRecord w).toInstrFields = ⟨some m, rd, rs1, rs2Of w, imm⟩ := by
  rw [hrow] at hw
  have hm : (row m).matches w = true := by rw [hrow, hw]; exact matches_I hfmt hshift ..
  have hrecord : recordImm (some m) w = imm := by
    rw [recordImm_of_slices hm hrow hfmt hshift, hw, immOfSlices_encodeRow_I hfmt hshift, imm12Ok_iff.mp himm]
  rw [encodeRow_I hfmt hshift] at hw
  have hrd : rdOf w = rd := hw ▸ rdOf_append ..
  have hrs1 : rs1Of w = rs1 := hw ▸ rs1Of_append ..
  rw [fields_of_matches hm, hrd, hrs1, hrecord]

theorem fields_encodeRow_shift {f7 : BitVec 7} (hrow : row m = .shift f3 f7) (hshift : isShiftImm 0x13 f3 = true)
    (hw : w = encodeRow (row m) rd rs1 0 imm) (himm : shamtOk imm = true) :
    (decodeRecord w).toInstrFields = ⟨some m, rd, rs1, rs2Of w, imm⟩ := by
  rw [hrow] at hw
  have hm : (row m).matches w = true := by rw [hrow, hw]; exact matches_shift hshift ..
  rw [encodeRow_shift hshift] at hw
  have hrd : rdOf w = rd := hw ▸ rdOf_append ..
  have hrs1 : rs1Of w = rs1 := hw ▸ rs1Of_append ..
  have hrs2 : rs2Of w = imm.extractLsb' 0 5 := hw ▸ rs2Of_append ..
  rw [fields_of_matches hm, hrd, hrs1, recordImm_of_shift hm hrow hshift, hrs2, shamtOk_iff.mp himm]

theorem fields_encodeRow_S (hrow : row m = .op3 0x23 f3) (hw : w = encodeRow (row m) 0 rs1 rs2 imm)
    (himm : imm12Ok imm = true) : (decodeRecord w).toInstrFields = ⟨some m, rdOf w, rs1, rs2, imm⟩ := by
  rw [hrow] at hw
  have hm : (row m).matches w = true := by rw [hrow, hw]; exact matches_S ..
  have hrecord : recordImm (some m) w = imm := by
    rw [recordImm_of_slices (f := .S) hm hrow rfl rfl, hw, immOfSlices_encodeRow_S, imm12Ok_iff.mp himm]
  rw [encodeRow_S] at hw
  have hrs1 : rs1Of w = rs1 := hw ▸ rs1Of_append ..
  have hrs2 : rs2Of w = rs2 := hw ▸ rs2Of_append ..
  rw [fields_of_matches hm, hrs1, hrs2, hrecord]

theorem fields_encodeRow_B (hrow : row m = .op3 0x63 f3) (hw : w = encodeRow (row m) 0 rs1 rs2 imm)
    (himm : immBOk imm = true) : (decodeRecord w).toInstrFields = ⟨some m, rdOf w, rs1, rs2, imm⟩ := by
  rw [hrow] at hw
  have hm : (row m).matches w = true := by rw [hrow, hw]; exact matches_B ..
  have hrecord : recordImm (some m) w = imm := by
    rw [recordImm_of_slices (f := .B) hm hrow rfl rfl, hw, immOfSlices_encodeRow_B, immBOk_iff.mp himm]
  rw [encodeRow_B] at hw
  have hrs1 : rs1Of w = rs1 := hw ▸ rs1Of_append ..
  have hrs2 : rs2Of w = rs2 := hw ▸ rs2Of_append ..
  rw [fields_of_matches hm, hrs1, hrs2, hrecord]

theorem fields_encodeRow_U {op : BitVec 7} (hrow : row m = .op op) (hfmt : formatOf op = some .U)
    (hshift : isShiftImm op 0 = false) (hw : w = encodeRow (row m) rd 0 0 imm) (himm : immUOk imm = true) :
    (decodeRecord w).toInstrFields = ⟨some m, rd, rs1Of w, rs2Of w, imm⟩ := by
  rw [hrow] at hw
  have hm : (row m).matches w = true := by rw [hrow, hw]; exact matches_U hfmt hshift ..
  have hrecord : recordImm (some m) w = imm := by
    rw [recordImm_of_slices hm hrow hfmt hshift, hw, immOfSlices_encodeRow_U hfmt hshift, immUOk_iff.mp himm]
  rw [encodeRow_U hfmt hshift] at hw
  have hrd : rdOf w = rd := hw ▸ rdOf_append ..
  rw [fields_of_matches hm, hrd, hrecord]

theorem fields_encodeRow_J (hrow : row m = .op 0x6F) (hw : w = encodeRow (row m) rd 0 0 imm) (himm : immJOk imm = true) :
    (decodeRecord w).toInstrFields = ⟨some m, rd, rs1Of w, rs2Of w, imm⟩ := by
  rw [hrow] at hw
  have hm : (row m).matches w = true := by rw [hrow, hw]; exact matches_J ..
  have hrecord : recordImm (some m) w = imm := by
    rw [recordImm_of_slices (f := .J) hm hrow rfl rfl, hw, immOfSlices_encodeRow_J, immJOk_iff.mp himm]
  rw [encodeRow_J] at hw
  have hrd : rdOf w = rd := hw ▸ rdOf_append ..
  rw [fields_of_matches hm, hrd, hrecord]

end

/-- Settles O46: the encoded word matches the instruction's row and no other, and its record has the fields the format gives. -/
theorem decodeOfEncode : Obligations.DecodeOfEncode := by
  intro i hwf
  cases i
  case lui | auipc => exact decode_of_fields (fields_encodeRow_U rfl (by decide) (by decide) rfl hwf) rfl
  case jal => exact decode_of_fields (fields_encodeRow_J rfl rfl hwf) rfl
  case beq | bne | blt | bge | bltu | bgeu => exact decode_of_fields (fields_encodeRow_B rfl rfl hwf) rfl
  case sb | sh | sw => exact decode_of_fields (fields_encodeRow_S rfl rfl hwf) rfl
  case slli | srli | srai => exact decode_of_fields (fields_encodeRow_shift rfl (by decide) rfl hwf) rfl
  case jalr | lb | lh | lw | lbu | lhu | addi | slti | sltiu | xori | ori | andi =>
    exact decode_of_fields (fields_encodeRow_I rfl (by decide) (by decide) rfl hwf) rfl
  case add | sub | sll | slt | sltu | xor | srl | sra | or | and =>
    exact decode_of_fields (fields_encodeRow_R rfl rfl) rfl
  case mret => decide

/-! ## Encoding the record of a word that matches a row, format by format (R73) -/

/-- Sign-extension leaves the bits of the narrow word in their places. -/
theorem extractLsb'_signExtend {n s k : Nat} (x : BitVec n) (h : s + k ≤ n) (hn : n ≤ 32) :
    (x.signExtend 32).extractLsb' s k = x.extractLsb' s k := by
  ext i hi
  have hlow : s + i < n := by omega
  have hword : s + i < 32 := by omega
  simp [BitVec.getElem_signExtend, hlow, hword]

/-- A word of I format as its immediate and its fields side by side (R62). -/
theorem append_fields_I (w : Word) : w.extractLsb' 20 12 ++ rs1Of w ++ funct3Of w ++ rdOf w ++ opcodeOf w = w := by
  simp only [rs1Of, funct3Of, rdOf, opcodeOf]
  repeat rw [BitVec.extractLsb'_append_extractLsb'_eq_extractLsb' (by rfl)]
  exact BitVec.extractLsb'_eq_self

/-- A word of U or J format as its upper bits and its fields side by side (R62). -/
theorem append_fields_U (w : Word) : w.extractLsb' 12 20 ++ rdOf w ++ opcodeOf w = w := by
  simp only [rdOf, opcodeOf]
  repeat rw [BitVec.extractLsb'_append_extractLsb'_eq_extractLsb' (by rfl)]
  exact BitVec.extractLsb'_eq_self

section
variable {m : Mnemonic} {w : Word} {f3 : BitVec 3}

theorem encodeRow_fields_R {f7 : BitVec 7} (h : (row m).matches w = true) (hrow : row m = .opReg f3 f7) :
    encodeRow (row m) (rdOf w) (rs1Of w) (rs2Of w) 0 = w := by
  rw [hrow] at h ⊢
  obtain ⟨hop, h3, h7⟩ := opReg_matches_iff.mp h
  rw [encodeRow_opReg]
  exact (eq_wordOfFields_iff.mpr ⟨hop, h3, h7, rfl, rfl, rfl⟩).symm

theorem encodeRow_fields_shift {f7 : BitVec 7} (h : (row m).matches w = true) (hrow : row m = .shift f3 f7)
    (hs : isShiftImm 0x13 f3 = true) :
    encodeRow (row m) (rdOf w) (rs1Of w) 0 (recordImm (some m) w) = w ∧ shamtOk (recordImm (some m) w) = true := by
  have himm := recordImm_of_shift h hrow hs
  have hbits : (recordImm (some m) w).extractLsb' 0 5 = rs2Of w := by
    rw [himm]
    apply BitVec.eq_of_toNat_eq
    rw [BitVec.extractLsb'_toNat, BitVec.toNat_setWidth]
    omega
  rw [hrow] at h ⊢
  obtain ⟨hop, h3, h7⟩ := shift_matches_iff.mp h
  constructor
  · rw [encodeRow_shift hs, hbits]
    exact (eq_wordOfFields_iff.mpr ⟨hop, h3, h7, rfl, rfl, rfl⟩).symm
  · rw [shamtOk_iff, hbits, himm]

theorem encodeRow_fields_I {op : BitVec 7} (h : (row m).matches w = true) (hrow : row m = .op3 op f3)
    (hfmt : formatOf op = some .I) (hs : isShiftImm op f3 = false) :
    encodeRow (row m) (rdOf w) (rs1Of w) 0 (recordImm (some m) w) = w ∧ imm12Ok (recordImm (some m) w) = true := by
  have himm := (recordImm_of_slices h hrow hfmt hs).trans (immOfSlices_I w)
  have hbits : (recordImm (some m) w).extractLsb' 0 12 = w.extractLsb' 20 12 := by
    rw [himm, extractLsb'_signExtend _ (by decide) (by decide), BitVec.extractLsb'_eq_self]
  rw [hrow] at h ⊢
  obtain ⟨hop, h3⟩ := op3_matches_iff.mp h
  constructor
  · rw [encodeRow_I hfmt hs, hbits, ← hop, ← h3]
    exact append_fields_I w
  · rw [imm12Ok_iff, hbits, himm]

theorem encodeRow_fields_S (h : (row m).matches w = true) (hrow : row m = .op3 0x23 f3) :
    encodeRow (row m) 0 (rs1Of w) (rs2Of w) (recordImm (some m) w) = w ∧ imm12Ok (recordImm (some m) w) = true := by
  have himm := (recordImm_of_slices (f := .S) h hrow rfl rfl).trans (immOfSlices_S w)
  have hhi : (recordImm (some m) w).extractLsb' 5 7 = funct7Of w := by
    rw [himm, extractLsb'_signExtend _ (by decide) (by decide)]
    exact BitVec.extractLsb'_append_eq_left
  have hlo : (recordImm (some m) w).extractLsb' 0 5 = rdOf w := by
    rw [himm, extractLsb'_signExtend _ (by decide) (by decide)]
    exact BitVec.extractLsb'_append_eq_right
  have hbits : (recordImm (some m) w).extractLsb' 0 12 = funct7Of w ++ rdOf w := by
    rw [← hhi, ← hlo, BitVec.extractLsb'_append_extractLsb'_eq_extractLsb' (by rfl)]
  rw [hrow] at h ⊢
  obtain ⟨hop, h3⟩ := op3_matches_iff.mp h
  constructor
  · rw [encodeRow_S, hhi, hlo]
    exact (eq_wordOfFields_iff.mpr ⟨hop, h3, rfl, rfl, rfl, rfl⟩).symm
  · rw [imm12Ok_iff, hbits, himm]
    rfl

theorem encodeRow_fields_B (h : (row m).matches w = true) (hrow : row m = .op3 0x63 f3) :
    encodeRow (row m) 0 (rs1Of w) (rs2Of w) (recordImm (some m) w) = w ∧ immBOk (recordImm (some m) w) = true := by
  have himm := (recordImm_of_slices (f := .B) h hrow rfl rfl).trans (immOfSlices_B w)
  have hbits : (recordImm (some m) w).extractLsb' 1 12 =
      w.extractLsb' 31 1 ++ w.extractLsb' 7 1 ++ w.extractLsb' 25 6 ++ w.extractLsb' 8 4 := by
    rw [himm, extractLsb'_signExtend _ (by decide) (by decide)]
    exact BitVec.extractLsb'_append_eq_left
  have hhi : (recordImm (some m) w).extractLsb' 12 1 ++ (recordImm (some m) w).extractLsb' 5 6 = funct7Of w := by
    rw [himm, extractLsb'_signExtend _ (by decide) (by decide), extractLsb'_signExtend _ (by decide) (by decide)]
    apply BitVec.eq_of_getLsbD_eq
    intro i hi
    simp only [funct7Of, BitVec.getLsbD_append, BitVec.getLsbD_extractLsb']
    interval_cases i <;> simp
  have hlo : (recordImm (some m) w).extractLsb' 1 4 ++ (recordImm (some m) w).extractLsb' 11 1 = rdOf w := by
    rw [himm, extractLsb'_signExtend _ (by decide) (by decide), extractLsb'_signExtend _ (by decide) (by decide)]
    apply BitVec.eq_of_getLsbD_eq
    intro i hi
    simp only [rdOf, BitVec.getLsbD_append, BitVec.getLsbD_extractLsb']
    interval_cases i <;> simp
  rw [hrow] at h ⊢
  obtain ⟨hop, h3⟩ := op3_matches_iff.mp h
  constructor
  · rw [encodeRow_B, hhi, hlo]
    exact (eq_wordOfFields_iff.mpr ⟨hop, h3, rfl, rfl, rfl, rfl⟩).symm
  · rw [immBOk_iff, hbits, himm]

theorem encodeRow_fields_U {op : BitVec 7} (h : (row m).matches w = true) (hrow : row m = .op op)
    (hfmt : formatOf op = some .U) (hs : isShiftImm op 0 = false) :
    encodeRow (row m) (rdOf w) 0 0 (recordImm (some m) w) = w ∧ immUOk (recordImm (some m) w) = true := by
  have himm := (recordImm_of_slices h hrow hfmt hs).trans (immOfSlices_U w)
  have hbits : (recordImm (some m) w).extractLsb' 12 20 = w.extractLsb' 12 20 := by
    rw [himm]
    exact BitVec.extractLsb'_append_eq_left
  rw [hrow] at h ⊢
  constructor
  · rw [encodeRow_U hfmt hs, hbits, ← op_matches_iff.mp h]
    exact append_fields_U w
  · rw [immUOk_iff, hbits, himm]

theorem encodeRow_fields_J (h : (row m).matches w = true) (hrow : row m = .op 0x6F) :
    encodeRow (row m) (rdOf w) 0 0 (recordImm (some m) w) = w ∧ immJOk (recordImm (some m) w) = true := by
  have himm := (recordImm_of_slices (f := .J) h hrow rfl rfl).trans (immOfSlices_J w)
  have hbits : (recordImm (some m) w).extractLsb' 1 20 =
      w.extractLsb' 31 1 ++ w.extractLsb' 12 8 ++ w.extractLsb' 20 1 ++ w.extractLsb' 21 10 := by
    rw [himm, extractLsb'_signExtend _ (by decide) (by decide)]
    exact BitVec.extractLsb'_append_eq_left
  have hupper : (recordImm (some m) w).extractLsb' 20 1 ++ (recordImm (some m) w).extractLsb' 1 10 ++
      (recordImm (some m) w).extractLsb' 11 1 ++ (recordImm (some m) w).extractLsb' 12 8 = w.extractLsb' 12 20 := by
    rw [himm]
    repeat rw [extractLsb'_signExtend _ (by decide) (by decide)]
    apply BitVec.eq_of_getLsbD_eq
    intro i hi
    simp only [BitVec.getLsbD_append, BitVec.getLsbD_extractLsb']
    interval_cases i <;> simp
  rw [hrow] at h ⊢
  have hw := append_fields_U w
  rw [op_matches_iff.mp h] at hw
  constructor
  · rw [encodeRow_J, hupper]
    exact hw
  · rw [immJOk_iff, hbits, himm]

end

/-- Settles O47: the word matches the row of the instruction's mnemonic, and the fields its record gives the instruction encode
to the word again. -/
theorem encodeOfDecode : Obligations.EncodeOfDecode := by
  intro w i h
  have hi := instrOfFields_of_decode h
  have hm : (row i.name).matches w = true := mnemonicOf_eq_some_iff.mp (name_of_instrOfFields hi)
  rw [fields_of_matches hm] at hi
  generalize i.name = m at hm hi
  cases m <;> cases hi
  case mret => exact ⟨(mret_matches_iff.mp hm).symm ▸ by decide, rfl⟩
  case lui | auipc => exact encodeRow_fields_U hm rfl (by decide) (by decide)
  case jal => exact encodeRow_fields_J hm rfl
  case beq | bne | blt | bge | bltu | bgeu => exact encodeRow_fields_B hm rfl
  case sb | sh | sw => exact encodeRow_fields_S hm rfl
  case slli | srli | srai => exact encodeRow_fields_shift hm rfl (by decide)
  case jalr | lb | lh | lw | lbu | lhu | addi | slti | sltiu | xori | ori | andi =>
    exact encodeRow_fields_I hm rfl (by decide) (by decide)
  case add | sub | sll | slt | sltu | xor | srl | sra | or | and => exact ⟨encodeRow_fields_R hm rfl, rfl⟩

end Sys2Proof

/-! The assembly codec (30_encoding.md section 6): how a printed line splits into tokens (R82), how numbers and registers are read
back (R83), and that assembling a disassembled instruction gives its record (R80, R82). -/

namespace Sys2Proof.Machine

/-! ## Tokens (R82) -/

/-- A token: text without separators, and not empty. -/
def IsToken (t : Text) : Prop := t ≠ [] ∧ ∀ c ∈ t, isSeparator c = false

theorem tokensFrom_append {t : Text} (ht : ∀ c ∈ t, isSeparator c = false) (cur rest : Text) :
    tokensFrom cur (t ++ rest) = tokensFrom (t.reverse ++ cur) rest := by
  induction t generalizing cur with
  | nil => rfl
  | cons c cs ih =>
    obtain ⟨hc, hcs⟩ := List.forall_mem_cons.mp ht
    simp [tokensFrom, hc, ih hcs]

theorem tokensFrom_separator {c : Char} (hc : isSeparator c = true) (rest : Text) :
    tokensFrom [] (c :: rest) = tokensFrom [] rest := by
  simp [tokensFrom, hc]

theorem tokensFrom_token {t : Text} (ht : IsToken t) : tokensFrom [] t = [t] := by
  obtain ⟨hne, hsep⟩ := ht
  have h := tokensFrom_append hsep [] []
  simpa [tokensFrom, hne] using h

/-- A token ends at the first separator after it. -/
theorem tokensFrom_token_separator {t : Text} (ht : IsToken t) {c : Char} (hc : isSeparator c = true) (rest : Text) :
    tokensFrom [] (t ++ c :: rest) = t :: tokensFrom [] rest := by
  obtain ⟨hne, hsep⟩ := ht
  rw [tokensFrom_append hsep]
  simp [tokensFrom, hc, hne]

/-! ## Numbers (R80, R83) -/

theorem toNat_of_isDigit {c : Char} (h : c.isDigit = true) : 48 ≤ c.toNat ∧ c.toNat ≤ 57 := by
  simp only [Char.isDigit, Bool.and_eq_true, decide_eq_true_iff, ge_iff_le, UInt32.le_iff_toNat_le] at h
  exact h

theorem decDigit_of_isDigit {c : Char} (h : c.isDigit = true) : decDigit c = some (c.toNat - '0'.toNat) :=
  if_pos (toNat_of_isDigit h)

theorem digitsFrom_of_isDigit {t : Text} (ht : ∀ c ∈ t, c.isDigit = true) (acc : Nat) :
    digitsFrom 10 decDigit acc t = some (Nat.ofDigitChars 10 t acc) := by
  induction t generalizing acc with
  | nil => simp [digitsFrom]
  | cons c cs ih =>
    obtain ⟨hc, hcs⟩ := List.forall_mem_cons.mp ht
    simp only [digitsFrom, decDigit_of_isDigit hc, ih hcs, Nat.ofDigitChars_cons, Nat.mul_comm]

theorem isDigit_of_mem_decimal {n : Nat} {c : Char} (h : c ∈ Nat.toDigits 10 n) : c.isDigit = true :=
  Nat.isDigit_of_mem_toDigits (by decide) (by decide) h

theorem digitsFrom_toDigits (n : Nat) : digitsFrom 10 decDigit 0 (Nat.toDigits 10 n) = some n := by
  rw [digitsFrom_of_isDigit fun _ => isDigit_of_mem_decimal, Nat.ofDigitChars_ten_toDigits]

/-- Digits alone are never read as hexadecimal, since that takes an `x`. -/
theorem parseNat_of_isDigit {t : Text} (hne : t ≠ []) (ht : ∀ c ∈ t, c.isDigit = true) :
    parseNat t = digitsFrom 10 decDigit 0 t := by
  unfold parseNat
  split
  · exact absurd rfl hne
  · exact absurd (ht 'x' (by simp)) (by decide)
  · rfl

theorem parseNat_toDigits (n : Nat) : parseNat (Nat.toDigits 10 n) = some n := by
  rw [parseNat_of_isDigit Nat.toDigits_ne_nil fun _ => isDigit_of_mem_decimal, digitsFrom_toDigits]

theorem parseImm_toDigits (n : Nat) : parseImm (Nat.toDigits 10 n) = BitVec.ofNat 32 n := by
  unfold parseImm
  split
  · rename_i cs hcs
    exact absurd (isDigit_of_mem_decimal (n := n) (c := '-') (by simp [hcs])) (by decide)
  · simp [parseNat_toDigits]

theorem parseImm_neg_toDigits (n : Nat) : parseImm ('-' :: Nat.toDigits 10 n) = -BitVec.ofNat 32 n := by
  simp [parseImm, parseNat_toDigits]

theorem parseImm_signedDecimal (v : Word) : parseImm (signedDecimal v) = v := by
  unfold signedDecimal
  split
  · next hneg =>
    rw [parseImm_neg_toDigits, ← BitVec.ofInt_natCast, ← BitVec.ofInt_neg, ← Int.eq_neg_natAbs_of_nonpos hneg.le,
      BitVec.ofInt_toInt]
  · next hpos =>
    rw [parseImm_toDigits, ← BitVec.ofInt_natCast, Int.natAbs_of_nonneg (not_lt.mp hpos), BitVec.ofInt_toInt]

theorem parseReg_registerText (r : RegIdx) : parseReg .r32 (registerText r) = r := by
  have hr : r.toNat ≤ 31 := by omega
  obtain ⟨c, cs, hcs⟩ := List.exists_cons_of_ne_nil (Nat.toDigits_ne_nil (b := 10) (n := r.toNat))
  rw [registerText, hcs, parseReg, ← hcs, digitsFrom_toDigits]
  simp [RegCount.count, hr]

/-! ## Printed operands -/

theorem isSeparator_of_isDigit {c : Char} (h : c.isDigit = true) : isSeparator c = false := by
  have hdigits : ∀ n < 58, 48 ≤ n → isSeparator (Char.ofNat n) = false := by decide
  obtain ⟨hlow, hhigh⟩ := toNat_of_isDigit h
  rw [← Char.ofNat_toNat c]
  exact hdigits c.toNat (Nat.lt_succ_of_le hhigh) hlow

theorem isToken_toDigits (n : Nat) : IsToken (Nat.toDigits 10 n) :=
  ⟨Nat.toDigits_ne_nil, fun _ h => isSeparator_of_isDigit (isDigit_of_mem_decimal h)⟩

theorem IsToken.cons {t : Text} (ht : IsToken t) {c : Char} (hc : isSeparator c = false) : IsToken (c :: t) :=
  ⟨by simp, List.forall_mem_cons.mpr ⟨hc, ht.2⟩⟩

theorem isToken_registerText (r : RegIdx) : IsToken (registerText r) := (isToken_toDigits _).cons (by decide)

theorem isToken_signedDecimal (v : Word) : IsToken (signedDecimal v) := by
  unfold signedDecimal
  split
  · exact (isToken_toDigits _).cons (by decide)
  · exact isToken_toDigits _

/-- The texts that an operand token prints between separators. -/
def operandTexts (f : InstrFields) : OperandToken → List Text
  | .rd => [registerText f.rd]
  | .rs1 => [registerText f.rs1]
  | .rs2 => [registerText f.rs2]
  | .imm => [signedDecimal f.imm]
  | .pcRelative => [signedDecimal f.imm]
  | .indirect => [signedDecimal f.imm, registerText f.rs1]

theorem tokensFrom_operandText (f : InstrFields) (t : OperandToken) : tokensFrom [] (operandText f t) = operandTexts f t := by
  cases t
  case indirect =>
    simp only [operandText, operandTexts, List.append_assoc, List.cons_append, List.nil_append]
    rw [tokensFrom_token_separator (isToken_signedDecimal _) (by decide),
      tokensFrom_token_separator (isToken_registerText _) (by decide)]
    rfl
  case imm | pcRelative => exact tokensFrom_token (isToken_signedDecimal _)
  all_goals exact tokensFrom_token (isToken_registerText _)

theorem tokensFrom_operandText_comma (f : InstrFields) (t : OperandToken) (rest : Text) :
    tokensFrom [] (operandText f t ++ ',' :: rest) = operandTexts f t ++ tokensFrom [] rest := by
  cases t
  case indirect =>
    simp only [operandText, operandTexts, List.append_assoc, List.cons_append, List.nil_append]
    rw [tokensFrom_token_separator (isToken_signedDecimal _) (by decide),
      tokensFrom_token_separator (isToken_registerText _) (by decide), tokensFrom_separator (by decide)]
  case imm | pcRelative => exact tokensFrom_token_separator (isToken_signedDecimal _) (by decide) _
  all_goals exact tokensFrom_token_separator (isToken_registerText _) (by decide) _

theorem tokensFrom_joinOperands (f : InstrFields) (ts : List OperandToken) :
    tokensFrom [] (joinOperands (ts.map (operandText f))) = ts.flatMap (operandTexts f) := by
  induction ts with
  | nil => rfl
  | cons t ts ih =>
    cases ts with
    | nil => simp [joinOperands, tokensFrom_operandText]
    | cons u us =>
      simp only [List.map_cons, joinOperands, List.append_assoc, List.cons_append, List.nil_append] at ih ⊢
      rw [tokensFrom_operandText_comma, tokensFrom_separator (by decide), ih]
      rfl

/-! ## Mnemonics -/

theorem isToken_mnemonicText (m : Mnemonic) : IsToken (mnemonicText m) := by
  have hne : mnemonicText m ≠ [] := by cases m <;> exact List.cons_ne_nil _ _
  have hall : (mnemonicText m).all (fun c => !isSeparator c) = true := by cases m <;> decide
  exact ⟨hne, by simpa using hall⟩

theorem mnemonicNamed_mnemonicText (m : Mnemonic) : mnemonicNamed (mnemonicText m) = some m := by
  cases m <;> decide

theorem tokensFrom_disassemble {f : InstrFields} {m : Mnemonic} (h : f.name = some m) :
    tokensFrom [] (disassemble f) = mnemonicText m :: (operandTokens m).flatMap (operandTexts f) := by
  simp only [disassemble, h]
  split
  · rename_i hts
    rw [hts]
    exact tokensFrom_token (isToken_mnemonicText m)
  · rw [List.append_assoc, List.cons_append, List.nil_append,
      tokensFrom_token_separator (isToken_mnemonicText m) (by decide), tokensFrom_joinOperands]

/-! ## Filling the fields -/

/-- The fields of `g` with those that an operand token names taken from `f`. -/
def copyOperand (f g : InstrFields) : OperandToken → InstrFields
  | .rd => { g with rd := f.rd }
  | .rs1 => { g with rs1 := f.rs1 }
  | .rs2 => { g with rs2 := f.rs2 }
  | .imm => { g with imm := f.imm }
  | .pcRelative => { g with imm := f.imm }
  | .indirect => { g with imm := f.imm, rs1 := f.rs1 }

theorem fillOperands_operandTexts (f : InstrFields) (ts : List OperandToken) (g : InstrFields) :
    fillOperands .r32 ts (ts.flatMap (operandTexts f)) g = ts.foldl (copyOperand f) g := by
  induction ts generalizing g with
  | nil => rfl
  | cons t ts ih =>
    cases t <;> simp [fillOperands, operandTexts, copyOperand, parseReg_registerText, parseImm_signedDecimal, ih]

theorem assemble_disassemble {f : InstrFields} {m : Mnemonic} (h : f.name = some m) :
    assemble .r32 (disassemble f) = (operandTokens m).foldl (copyOperand f) { InstrFields.rejected with name := some m } := by
  simp only [assemble, tokensFrom_disassemble h, mnemonicNamed_mnemonicText, fillOperands_operandTexts]

/-- Settles O53: the text of an instruction splits into its mnemonic and the texts of its operands, each of which is read back as
what was printed; the fields that the operands do not name are 0 in `Instr.fields` as in the record being filled. -/
theorem assembleOfDisassemble : Obligations.AssembleOfDisassemble := by
  intro i
  have hname : i.fields.name = some i.name := by cases i <;> rfl
  rw [assemble_disassemble hname]
  cases i <;> rfl

end Sys2Proof.Machine

/-! The execution engine (40_execution_engine.md): every instruction and every step completes (R98), the bus faults of a fetch and
of a load (R43, R98), the stage machine (R87, R96, R100), and the instruction-level step as the composition of the stages (R101). -/

namespace Sys2Proof.Machine

/-! ## Completion (R98) -/

/-- Every instruction is its guard on the register fields it uses, around a next state (R16, R98). -/
theorem exec_eq_guardRegs_next (i : Instr) (s : State) : ∃ t, exec i s = guardRegs (usedRegsOf i) s (.next t) := by
  cases i <;> exact ⟨_, rfl⟩

/-- Settles O32: the guard lets the instruction pass, and behind it there is a next state. -/
theorem everyInstructionCompletes : Obligations.EveryInstructionCompletes := by
  intro i s hused
  obtain ⟨t, ht⟩ := exec_eq_guardRegs_next i s
  exact ⟨t, ht.trans (guardRegs_of_all hused)⟩

/-! ## The stage machine (R87, R96) -/

theorem Branch.isComparison_iff (b : Branch) : b.isComparison = true ↔ b ≠ .none ∧ b ≠ .al := by
  cases b <;> simp [Branch.isComparison]

/-- The exits of Compute (R93, decision D7). -/
theorem computeNext_stage (s : State) :
    (computeNext s).stage =
      if s.dp.branch ≠ .none ∧ s.dp.branch ≠ .al then .compare
      else if s.dp.wbMem = .none then .updatePC
      else if (s.dp.wbMem = .r ∨ s.dp.wbMem = .pcPlus) ∧ s.instr.rd = 0 then .updatePC
      else .loadStoreWriteBack := by
  unfold computeNext
  by_cases hb : s.dp.branch.isComparison = true
  · rw [if_pos hb, if_pos (s.dp.branch.isComparison_iff.mp hb)]
    rfl
  · rw [if_neg hb, if_neg fun h => hb (s.dp.branch.isComparison_iff.mpr h)]
    by_cases hrd : s.instr.rd = 0 <;> cases s.dp.wbMem <;> simp [hrd, WbMem.isMemory]

@[simp] theorem aluStage_dp (s : State) : (aluStage s).dp = s.dp := rfl
@[simp] theorem aluStage_instr (s : State) : (aluStage s).instr = s.instr := rfl

theorem decodeStage_stage (s : State) :
    (decodeStage s).stage = if (decodeStage s).dp.aluOp = .none then .updatePC else .compute := rfl

/-- Settles O42: `stageStep` runs the stage the state names, and each stage sets the next. -/
theorem stageTransitions : Obligations.StageTransitions := by
  intro s t h
  unfold stageStep at h
  cases hs : s.stage <;> simp only [hs] at h
  case fetch => cases h; simp [fetchStage]
  case decode => cases h; simp [decodeStage_stage]
  case compute =>
    cases (guardRegs_next h).2
    simp [computeNext_stage]
  case compare => cases h; simp [compareStage]
  case loadStoreWriteBack => cases h; simp [loadStoreStage]
  case updatePC => cases h; simp [updatePcStage]

theorem memoryKept_updatePC (s : State) (isMret : Bool) : MemoryKept s (s.updatePC isMret) :=
  memoryKept_of_view (by rw [updatePC_devices, view_map_nextSample])

theorem acceptInterrupt_iff (s : State) : s.acceptInterrupt = true ↔ s.irqLine = true ∧ s.irqState = false := by
  simp [State.acceptInterrupt]

/-- Settles O43: UpdatePC enters the handler if the interrupt is accepted, and goes on or returns if not. -/
theorem updatePcStage_spec : Obligations.UpdatePcStage := by
  intro s hs
  have hstep : stageStep s = .next (updatePcStage s) := by simp [stageStep, hs]
  refine ⟨_, hstep, updatePC_stage s _, ?_, updatePC_regs s _, memoryKept_updatePC s _, updatePC_devices s _, ?_⟩
  · unfold updatePcStage
    have hmret : (s.instr.name == some .mret) = true ↔ s.instr.name = some .mret := beq_iff_eq
    generalize (s.instr.name == some .mret) = isMret at hmret ⊢
    cases ha : s.acceptInterrupt with
    | true =>
      obtain ⟨hpc, hmepc, hlatch⟩ := updatePC_of_accept s isMret ha
      rw [if_pos ((acceptInterrupt_iff s).mp ha)]
      exact ⟨hmepc, hpc, hlatch⟩
    | false =>
      obtain ⟨hpc, hmepc, hlatch⟩ := updatePC_of_not_accept s isMret ha
      rw [if_neg fun h => by simp [(acceptInterrupt_iff s).mpr h] at ha]
      simp only [← hmret]
      cases isMret with
      | true => exact ⟨hpc, by simpa using hlatch, hmepc⟩
      | false => exact ⟨hpc, by simpa using hlatch, hmepc⟩
  · simp [updatePcStage]

/-! ## Bus faults (R43, R98) -/

/-- Settles O17: the load's bus read answers 0 with the error bit set, and its devices are those before it. -/
theorem loadBusFaultReadsZero : Obligations.LoadBusFaultReadsZero := by
  intro i size sg rd rs1 imm s hload hrd h1 ha
  obtain ⟨hval, herr, hdev⟩ := loadRead_of_none sg ha
  obtain ⟨t, ht, hreg, htdev, hbus, hls, hothers, hadv, hmem, hlatches⟩ :=
    loadFrom_spec (size := size) (sg := sg) (imm := imm) hrd h1
  rw [hval] at hreg
  rw [hdev] at htdev
  rw [herr] at hbus hls
  exact ⟨t, (exec_of_loadOf hload s).trans ht, hreg, hothers, hadv, hmem, htdev, hbus, hls, hlatches⟩

/-- The no-op of R140 only advances the pc. -/
theorem execInvalid_spec (s : State) :
    ∃ t, execInvalid s = .next t ∧ t.regs = s.regs ∧ Advances s t (s.pc + 4) ∧ QuietFrame s t :=
  retire_quiet false rfl rfl rfl rfl rfl rfl rfl rfl rfl rfl rfl

/-- Where an instruction goes on is said of any state while it is underway. -/
theorem Underway.advances {s u t : State} {next : Word} (h : Underway s u) (ha : Advances u t next) :
    Advances s t next := by
  unfold Advances at *
  rwa [h.line, h.irqState, h.mepc] at ha

/-- Settles O26: the fetch reads 0, which matches no row, and sets the error bit; the no-op keeps both latches. -/
theorem unmappedFetchIsNoOp : Obligations.UnmappedFetchIsNoOp := by
  intro s hs ha
  have hword : (s.busRead s.pc .word false).1 = 0 := by rw [busRead_of_none false ha]
  have hinvalid : mnemonicOf 0 = none := by decide
  have hd : Underway s (decodeStage (fetchStage s)) := (underway_fetchStage s).trans (underway_decodeStage _)
  have hfetch := fetchStage_of_none ha
  obtain ⟨t, ht, hregs, hadv, hmem, -, -, -, hdata, herr, hinstr, -, -, hstage⟩ :=
    execInvalid_spec (decodeStage (fetchStage s))
  refine ⟨t, ?_, ?_, ?_, ?_, fun r => readReg_congr ?_ r, ?_, ?_, hstage⟩
  · rw [step_of_fetch hs, hword, decode_of_invalid hinvalid]
    exact ht
  · rw [hdata, hfetch]; rfl
  · rw [herr, hfetch]; rfl
  · rw [hinstr, hfetch]; exact hinvalid
  · rw [hregs, hfetch]; rfl
  · rw [← hd.pc]; exact hd.advances hadv
  · intro k a
    rw [hmem k a, hfetch]; rfl

/-! ## The state that Fetch and Decode leave (R88, R89) -/

/-- Fetch and Decode, by what the bus reads at the pc. -/
theorem decodeStage_fetchStage {s t : State} {w : Word} (h : s.busRead s.pc .word false = (w, t)) :
    decodeStage (fetchStage s) =
      { t with
        branchTaken := false
        fetchData := w
        fetchError := t.busError
        instr := decodeRecord w
        dp := descriptor (mnemonicOf w)
        stage := if (descriptor (mnemonicOf w)).aluOp = .none then .updatePC else .compute } := by
  unfold fetchStage
  rw [setTaken_busRead, h]
  rfl

/-- Only `mret` leaves the engine without going through Compute (R89, R99). -/
theorem aluOp_descriptorOf_eq_none_iff (i : Instr) : (descriptorOf i.name).aluOp = .none ↔ i = .mret := by
  cases i <;> simp [Instr.name, descriptorOf, Datapath.memory, Datapath.branchOn, Datapath.opImm, Datapath.opReg,
    Datapath.allNone]

theorem mnemonicOf_of_decode {w : Word} {i : Instr} (h : decode w = .ok i) : mnemonicOf w = some i.name :=
  name_of_instrOfFields (instrOfFields_of_decode h)

/-- Settles O45: the descriptor and the next stage follow from the instruction's name, and a `Memory` answers with its bytes. -/
theorem stepRunsDecodedInstruction : Obligations.StepRunsDecodedInstruction := by
  intro s w t i hs hread hdecode
  refine ⟨?_, fun d cells initial ha hkind => ?_⟩
  · rw [step_of_fetch hs, hread, decodeStage_fetchStage hread, mnemonicOf_of_decode hdecode]
    simp only [hdecode, descriptor, aluOp_descriptorOf_eq_none_iff]
  · exact Prod.mk.inj (hread.symm.trans (busRead_of_memory false ha hkind))

/-- What Decode leaves of an instruction. -/
structure Decoded (i : Instr) (d : State) : Prop where
  fields : instrOfFields d.instr.toInstrFields = some i
  dp : d.dp = descriptorOf i.name
  branchTaken : d.branchTaken = false
  stage : d.stage = if i = .mret then .updatePC else .compute

theorem decoded_of_decode {s : State} {i : Instr} (h : decode (s.busRead s.pc .word false).1 = .ok i) :
    Decoded i (decodeStage (fetchStage s)) := by
  rcases hread : s.busRead s.pc .word false with ⟨w, t⟩
  rw [hread] at h
  rw [decodeStage_fetchStage hread, mnemonicOf_of_decode h]
  exact ⟨instrOfFields_of_decode h, rfl, rfl, by simp only [descriptor, aluOp_descriptorOf_eq_none_iff]⟩

/-- What Decode leaves of a word that is no instruction. -/
theorem decodeStage_of_invalid {s : State} (h : mnemonicOf (s.busRead s.pc .word false).1 = none) :
    (decodeStage (fetchStage s)).instr.name = none ∧ (decodeStage (fetchStage s)).branchTaken = false ∧
      (decodeStage (fetchStage s)).stage = .updatePC := by
  rcases hread : s.busRead s.pc .word false with ⟨w, t⟩
  rw [hread] at h
  rw [decodeStage_fetchStage hread, h]
  exact ⟨h, rfl, rfl⟩

theorem setTaken_eq_self {s : State} {b : Bool} (h : s.branchTaken = b) : s.setTaken b = s := by
  subst h
  rfl

theorem Decoded.name {i : Instr} {d : State} (h : Decoded i d) : d.instr.name = some i.name :=
  name_of_instrOfFields h.fields

/-- The mnemonic fixes the descriptor, and with the record's fields the instruction. -/
theorem Decoded.exists_mnemonic {i : Instr} {d : State} (h : Decoded i d) :
    ∃ m, d.dp = descriptorOf m ∧
      instrOfFields ⟨some m, d.instr.rd, d.instr.rs1, d.instr.rs2, d.instr.imm⟩ = some i :=
  ⟨i.name, h.dp, h.name ▸ h.fields⟩

/-- The engine uses the register fields that the instruction uses (R16). -/
theorem Decoded.usedRegs_eq {i : Instr} {d : State} (h : Decoded i d) : d.usedRegs = usedRegsOf i := by
  obtain ⟨m, hdp, hi⟩ := h.exists_mnemonic
  rw [State.usedRegs, hdp]
  cases m <;> cases hi <;> rfl

/-! ## What the stages from Compute on come to (R90 to R95) -/

theorem guardRegs_congr {used : List RegIdx} {s : State} {k k' : Outcome}
    (h : (∀ r ∈ used, s.hasReg r = true) → k = k') : guardRegs used s k = guardRegs used s k' := by
  unfold guardRegs
  split
  · rename_i hall
    exact h (by simpa using hall)
  · rfl

/-- After Compute, a real comparison decides the branch and nothing is written back (R94). -/
theorem runToBoundary_computeNext_of_comparison {n : Nat} {c : State} {taken : Bool}
    (hm : c.instr.name ≠ some .mret) (hb : c.dp.branch.holds c.x1v c.x2v = some taken) :
    runToBoundary (n + 2) (computeNext c) = c.retire taken := by
  have hcmp : c.dp.branch.isComparison = true := by
    cases hbr : c.dp.branch <;> simp [hbr, Branch.holds, Branch.isComparison] at hb ⊢
  have hstep : stageStep (computeNext c) = .next ((c.setTaken taken).setStage .updatePC) := by
    simp only [computeNext, if_pos hcmp, stageStep, compareStage, setStage_stage, setStage_dp, setStage_x1v, setStage_x2v,
      hb, Option.getD_some]
    rfl
  rw [runToBoundary, hstep]
  simp only [setStage_stage, reduceCtorEq, if_false]
  rw [runToBoundary_updatePC (setStage_stage _ _), updatePC_setStage, setStage_instr, setTaken_instr,
    beq_eq_false_iff_ne.mpr hm]
  rfl

/-- Where Compute may skip LoadStoreWriteBack (no write-back, or a register-only write to x0, D7), that stage would change
nothing. -/
theorem writeBack_eq_self {s : State}
    (h : s.dp.wbMem = .none ∨ (s.dp.wbMem = .r ∨ s.dp.wbMem = .pcPlus) ∧ s.instr.rd = 0) : writeBack s = s := by
  unfold writeBack
  rcases h with h | ⟨h | h, hrd⟩
  · simp [h]
  · simp [h, hrd]
  · simp [h, hrd]

/-- After Compute without a comparison the write-back follows, or is skipped where it changes nothing. -/
theorem runToBoundary_computeNext_of_not_comparison {n : Nat} {c : State} (hm : c.instr.name ≠ some .mret)
    (hb : c.dp.branch.isComparison = false) (ht : c.branchTaken = false) :
    runToBoundary (n + 2) (computeNext c) = (writeBack c).retire (c.dp.branch == .al) := by
  obtain ⟨g, hg, hnext⟩ : ∃ g, (g = .loadStoreWriteBack ∨ g = .updatePC ∧ writeBack c = c) ∧
      computeNext c = (c.setTaken (c.dp.branch == .al)).setStage g := by
    unfold computeNext
    rw [if_neg (by simp [hb]), ht, Bool.false_or]
    refine ⟨_, ?_, rfl⟩
    by_cases hrd : c.instr.rd = 0#5 <;> cases hw : c.dp.wbMem <;> simp [hrd, hw, WbMem.isMemory, writeBack_eq_self]
  rw [hnext]
  have hm' : (c.instr.name == some .mret) = false := beq_eq_false_iff_ne.mpr hm
  rcases hg with rfl | ⟨rfl, hw⟩
  · rw [runToBoundary_loadStore (s := (c.setTaken (c.dp.branch == .al)).setStage .loadStoreWriteBack) rfl hm',
      writeBack_setStage_setTaken, updatePC_setStage]
    rfl
  · rw [runToBoundary_updatePC (setStage_stage _ _), updatePC_setStage, setStage_instr, setTaken_instr, hm', hw]
    rfl

/-- What Compute gives as the ALU's result, with the operands read from the registers the latch `instr` names (R90 to R92). -/
def State.aluValue (s : State) : Option Word :=
  let x1 := s.readReg s.instr.rs1
  let x2 := s.readReg s.instr.rs2
  alu s.dp.aluOp (operandA s.dp.src1 { s with x1v := x1 }) (operandB s.dp.src2 { s with x2v := x2 })

/-- Operand `a` is the register's value when it is used (R91). -/
theorem operandA_latchOperands {d : State} (h : d.dp.src1 = .x1 → d.hasReg d.instr.rs1 = true) :
    operandA d.dp.src1 (d.latchOperands d.instr.rs1 d.instr.rs2) =
      operandA d.dp.src1 { d with x1v := d.readReg d.instr.rs1 } := by
  cases hs : d.dp.src1
  case x1 => exact latchOperands_x1v (h hs) _
  all_goals simp [operandA]

/-- Operand `b` is the register's value when it is used (R91). -/
theorem operandB_latchOperands {d : State} (h : d.dp.src2 = .x2 → d.hasReg d.instr.rs2 = true) :
    operandB d.dp.src2 (d.latchOperands d.instr.rs1 d.instr.rs2) =
      operandB d.dp.src2 { d with x2v := d.readReg d.instr.rs2 } := by
  cases hs : d.dp.src2
  case x2 => exact latchOperands_x2v _ (h hs)
  all_goals simp [operandB]

/-- The ALU part of Compute leaves the state `latchCompute` when every used register exists (R90 to R92). -/
theorem aluStage_latchOperands {d : State} {v : Word} (hv : d.aluValue = some v)
    (hall : ∀ r ∈ d.usedRegs, d.hasReg r = true) :
    aluStage (d.latchOperands d.instr.rs1 d.instr.rs2) = d.latchCompute d.instr.rs1 d.instr.rs2 v := by
  have h1 : d.dp.src1 = .x1 → d.hasReg d.instr.rs1 = true := fun h =>
    hall _ (by simp [State.usedRegs, Datapath.usesRs1, h])
  have h2 : d.dp.src2 = .x2 → d.hasReg d.instr.rs2 = true := fun h =>
    hall _ (by simp [State.usedRegs, Datapath.usesRs2, h])
  unfold State.aluValue at hv
  simp only [aluStage, State.latchCompute, latchOperands_dp, operandA_latchOperands h1, operandB_latchOperands h2, hv,
    Option.getD_some]

/-! ## Each shape of instruction is the stages from Compute on (R101) -/

section
variable {d : State} {used : List RegIdx} {v : Word} (hs : d.stage = .compute) (hm : d.instr.name ≠ some .mret)
  (ht : d.branchTaken = false) (hu : d.usedRegs = used) (hv : d.aluValue = some v)

include hs hu hv

/-- The stages from Compute on are the guard around the outcome they come to when every used register exists. -/
theorem runToBoundary_eq_guardRegs {k : Outcome}
    (hk : (∀ r ∈ used, d.hasReg r = true) →
      runToBoundary 2 (computeNext (d.latchCompute d.instr.rs1 d.instr.rs2 v)) = k) :
    runToBoundary 3 d = guardRegs used d k := by
  rw [runToBoundary_compute hs, hu]
  refine guardRegs_congr fun hall => ?_
  rw [aluStage_latchOperands hv (hu ▸ hall)]
  exact hk hall

include hm

/-- A conditional branch (R94, R125 to R130). -/
theorem runToBoundary_of_branch {cond : Word → Word → Bool} (hb : ∀ a b, d.dp.branch.holds a b = some (cond a b))
    (hx : ∀ r ∈ [d.instr.rs1, d.instr.rs2], r ∈ used) :
    runToBoundary 3 d = guardRegs used d
      ((d.latchCompute d.instr.rs1 d.instr.rs2 v).retire (cond (d.readReg d.instr.rs1) (d.readReg d.instr.rs2))) := by
  refine runToBoundary_eq_guardRegs hs hu hv fun hall => ?_
  obtain ⟨h1, h2⟩ : d.hasReg d.instr.rs1 = true ∧ d.hasReg d.instr.rs2 = true :=
    ⟨hall _ (hx _ (by simp)), hall _ (hx _ (by simp))⟩
  have hx1 : (d.latchCompute d.instr.rs1 d.instr.rs2 v).x1v = d.readReg d.instr.rs1 := latchOperands_x1v h1 _
  have hx2 : (d.latchCompute d.instr.rs1 d.instr.rs2 v).x2v = d.readReg d.instr.rs2 := latchOperands_x2v _ h2
  exact runToBoundary_computeNext_of_comparison (by simpa using hm) (by rw [latchCompute_dp, hx1, hx2, hb])

include ht

/-- An instruction that is no conditional branch, by what its write-back does (R95). -/
theorem runToBoundary_of_writeBack {u : State} {taken : Bool} (hb : d.dp.branch.isComparison = false)
    (htaken : (d.dp.branch == .al) = taken)
    (hw : (∀ r ∈ used, d.hasReg r = true) → writeBack (d.latchCompute d.instr.rs1 d.instr.rs2 v) = u) :
    runToBoundary 3 d = guardRegs used d (u.retire taken) := by
  refine runToBoundary_eq_guardRegs hs hu hv fun hall => ?_
  rw [runToBoundary_computeNext_of_not_comparison (by simpa using hm) (by simpa using hb) (by simpa using ht), hw hall,
    latchCompute_dp, htaken]

/-- An instruction that writes the ALU's result to `rd` (R102 to R122). -/
theorem runToBoundary_of_result (hb : d.dp.branch = .none) (hw : d.dp.wbMem = .r) :
    runToBoundary 3 d = guardRegs used d
      (((d.latchCompute d.instr.rs1 d.instr.rs2 v).writeReg d.instr.rd v).retire false) :=
  runToBoundary_of_writeBack hs hm ht hu hv (by rw [hb]; rfl) (by rw [hb]; rfl) fun _ => by simp [writeBack, hw]

/-- A jump that links (R123, R124). -/
theorem runToBoundary_of_link (hb : d.dp.branch = .al) (hw : d.dp.wbMem = .pcPlus) :
    runToBoundary 3 d = guardRegs used d
      (((d.latchCompute d.instr.rs1 d.instr.rs2 v).writeReg d.instr.rd (d.pc + 4)).retire true) :=
  runToBoundary_of_writeBack hs hm ht hu hv (by rw [hb]; rfl) (by rw [hb]; rfl) fun _ => by simp [writeBack, hw]

end

section
variable {d : State} {wb : WbMem} {size : AccessSize} (hs : d.stage = .compute) (hm : d.instr.name ≠ some .mret)
  (ht : d.branchTaken = false) (hdp : d.dp = .memory wb)

include hdp in
theorem aluValue_of_memory : d.aluValue = some (effectiveAddress d d.instr.rs1 d.instr.imm) := by
  rw [State.aluValue, hdp]
  rfl

include hs hm ht hdp

theorem loadFrom_eq_runToBoundary {sg : Bool} (hu : d.usedRegs = [d.instr.rs1, d.instr.rd])
    (hw : ∀ c : State, c.dp.wbMem = wb → writeBack c = loadStage c size sg) :
    loadFrom size sg d.instr.rd d.instr.rs1 d.instr.imm d = runToBoundary 3 d := by
  refine (runToBoundary_of_writeBack hs hm ht hu (aluValue_of_memory hdp) ?_ ?_ fun _ => ?_).symm
  · rw [hdp]; rfl
  · rw [hdp]; rfl
  · rw [hw _ (by rw [latchCompute_dp, hdp]; rfl), loadStage, latchCompute_instr]
    rfl

theorem storeTo_eq_runToBoundary (hu : d.usedRegs = [d.instr.rs1, d.instr.rs2])
    (hw : ∀ c : State, c.dp.wbMem = wb → writeBack c = storeStage c size) :
    storeTo size d.instr.rs1 d.instr.rs2 d.instr.imm d = runToBoundary 3 d := by
  refine (runToBoundary_of_writeBack hs hm ht hu (aluValue_of_memory hdp) ?_ ?_ fun hall => ?_).symm
  · rw [hdp]; rfl
  · rw [hdp]; rfl
  · have hx2 := latchOperands_x2v d.instr.rs1 (hall d.instr.rs2 (by simp))
    rw [hw _ (by rw [latchCompute_dp, hdp]; rfl), storeStage, storeWrite, ← hx2]
    rfl

end

/-- The stages from Compute on are the meaning of the decoded instruction (R101). -/
theorem Decoded.exec_eq_runToBoundary {i : Instr} {d : State} (h : Decoded i d) (hi : i ≠ .mret) :
    exec i d = runToBoundary 3 d := by
  have hs : d.stage = .compute := h.stage.trans (if_neg hi)
  have hm : d.instr.name ≠ some .mret := by
    rw [h.name]
    cases i <;> simp [Instr.name] at hi ⊢
  have hu := h.usedRegs_eq
  obtain ⟨m, hdp, hf⟩ := h.exists_mnemonic
  symm
  cases m <;> cases hf
  case mret => exact absurd rfl hi
  case beq | bne | blt | bge | bltu | bgeu =>
    exact runToBoundary_of_branch hs hm hu (by rw [State.aluValue, hdp]; rfl) (fun _ _ => by rw [hdp]; rfl)
      (by simp [usedRegsOf])
  case lb | lh | lw | lbu | lhu =>
    exact (loadFrom_eq_runToBoundary hs hm h.branchTaken hdp hu fun c hc => by rw [writeBack, hc]).symm
  case sb | sh | sw =>
    exact (storeTo_eq_runToBoundary hs hm h.branchTaken hdp hu fun c hc => by rw [writeBack, hc]).symm
  case jal | jalr =>
    exact runToBoundary_of_link hs hm h.branchTaken hu (by rw [State.aluValue, hdp]; rfl) (by rw [hdp]; rfl)
      (by rw [hdp]; rfl)
  all_goals
    exact runToBoundary_of_result hs hm h.branchTaken hu (by rw [State.aluValue, hdp]; rfl) (by rw [hdp]; rfl)
      (by rw [hdp]; rfl)

/-- Settles O40: Fetch and Decode are the same in both views; then an `mret` and an invalid word have only UpdatePC left, and any
other instruction the stages from Compute on. -/
theorem stepIsCompositionOfStages : Obligations.StepIsCompositionOfStages := by
  intro s hs
  rw [step_of_fetch hs, runToBoundary_fetch hs]
  cases hword : decode (s.busRead s.pc .word false).1 with
  | ok i =>
    have hd := decoded_of_decode hword
    by_cases hi : i = .mret
    · subst hi
      rw [runToBoundary_updatePC hd.stage, hd.name]
      exact congrArg (fun d : State => Host.Outcome.next (d.updatePC true)) (setTaken_eq_self hd.branchTaken)
    · exact hd.exec_eq_runToBoundary hi
  | error e =>
    obtain ⟨hname, htaken, hstage⟩ := decodeStage_of_invalid (mnemonicOf_of_reject hword)
    rw [runToBoundary_updatePC hstage, hname]
    exact congrArg (fun d : State => Host.Outcome.next (d.updatePC false)) (setTaken_eq_self htaken)

/-- From every stage the rest of the instruction runs to its end when every index names a register (R87, R98). -/
theorem runToBoundary_completes : ∀ {n : Nat} {s : State}, s.stage.left ≤ n → s.nregs = .r32 →
    ∃ t, runToBoundary n s = .next t ∧ t.stage = .fetch
  | 0, s, hn, _ => by cases hs : s.stage <;> simp [hs, Stage.left] at hn
  | n + 1, s, hn, hregs => by
    have hstep : ∃ t, stageStep s = .next t := by
      unfold stageStep
      cases s.stage
      case compute => exact ⟨_, guardRegs_of_all fun r _ => hasReg_of_r32 hregs r⟩
      all_goals exact ⟨_, rfl⟩
    obtain ⟨t, ht⟩ := hstep
    unfold runToBoundary
    rw [ht]
    by_cases hend : t.stage = .fetch
    · exact ⟨t, if_pos hend, hend⟩
    · rcases stageStep_cases ht with ⟨-, hu, -, hlt⟩ | ⟨-, rfl⟩
      · simp only [if_neg hend]
        exact runToBoundary_completes (by omega) (hu.nregs.trans hregs)
      · exact absurd (updatePC_stage s _) hend

/-- Settles O36: a step from any stage is the run of the stages that are left, and no stage is refused. -/
theorem machineIsAlwaysSteppable : Obligations.MachineIsAlwaysSteppable := by
  intro s hregs
  have hstep : step s = runToBoundary 5 s := by
    by_cases hs : s.stage = .fetch
    · exact stepIsCompositionOfStages s hs
    · exact if_neg hs
  rw [hstep]
  exact runToBoundary_completes (by cases s.stage <;> decide) hregs

/-! ## Which stages are visited (R100) -/

theorem stagesToBoundary_of_next {n : Nat} {s t : State} (h : stageStep s = .next t) :
    stagesToBoundary (n + 1) s = s.stage :: if t.stage = .fetch then [] else stagesToBoundary n t := by
  simp only [stagesToBoundary, h]

section
variable {n : Nat} {s : State}

theorem stagesToBoundary_updatePC (hs : s.stage = .updatePC) : stagesToBoundary (n + 1) s = [.updatePC] := by
  have hstep : stageStep s = .next (updatePcStage s) := by simp [stageStep, hs]
  rw [stagesToBoundary_of_next hstep, hs, updatePcStage, if_pos (updatePC_stage s _)]

theorem stagesToBoundary_compare (hs : s.stage = .compare) : stagesToBoundary (n + 2) s = [.compare, .updatePC] := by
  have hstep : stageStep s = .next (compareStage s) := by simp [stageStep, hs]
  have hnext : (compareStage s).stage = .updatePC := rfl
  rw [stagesToBoundary_of_next hstep, hs, hnext, if_neg (by decide), stagesToBoundary_updatePC hnext]

theorem stagesToBoundary_loadStore (hs : s.stage = .loadStoreWriteBack) :
    stagesToBoundary (n + 2) s = [.loadStoreWriteBack, .updatePC] := by
  have hstep : stageStep s = .next (loadStoreStage s) := by simp [stageStep, hs]
  have hnext : (loadStoreStage s).stage = .updatePC := rfl
  rw [stagesToBoundary_of_next hstep, hs, hnext, if_neg (by decide), stagesToBoundary_updatePC hnext]

theorem stagesToBoundary_fetch (hs : s.stage = .fetch) :
    stagesToBoundary (n + 2) s = .fetch :: .decode :: stagesToBoundary n (decodeStage (fetchStage s)) := by
  have hfetch : stageStep s = .next (fetchStage s) := by simp [stageStep, hs]
  have hnext : (fetchStage s).stage = .decode := rfl
  have hdecode : stageStep (fetchStage s) = .next (decodeStage (fetchStage s)) := by simp [stageStep, hnext]
  have hne : (decodeStage (fetchStage s)).stage ≠ .fetch := by rw [decodeStage_stage]; split <;> decide
  rw [stagesToBoundary_of_next hfetch, hs, hnext, if_neg (by decide), stagesToBoundary_of_next hdecode, hnext, if_neg hne]

end

theorem Decoded.stagesToBoundary_eq {i : Instr} {d : State} (h : Decoded i d) (hi : i ≠ .mret)
    (hall : ∀ r ∈ usedRegsOf i, d.hasReg r = true) (n : Nat) :
    .fetch :: .decode :: stagesToBoundary (n + 3) d = stagesVisited (some i) := by
  have hs : d.stage = .compute := h.stage.trans (if_neg hi)
  have hstep : stageStep d = .next (computeNext (aluStage (d.latchOperands d.instr.rs1 d.instr.rs2))) := by
    rw [stageStep, hs]
    exact guardRegs_of_all (h.usedRegs_eq ▸ hall)
  rw [stagesToBoundary_of_next hstep, hs, if_neg (computeNext_stage_ne _)]
  have hnext := computeNext_stage (aluStage (d.latchOperands d.instr.rs1 d.instr.rs2))
  rw [aluStage_dp, aluStage_instr, latchOperands_dp, latchOperands_instr] at hnext
  generalize computeNext _ = u at hnext
  obtain ⟨m, hdp, hf⟩ := h.exists_mnemonic
  rw [hdp] at hnext
  cases m <;> cases hf
  case mret => exact absurd rfl hi
  case beq | bne | blt | bge | bltu | bgeu => rw [stagesToBoundary_compare hnext]; rfl
  case lb | lh | lw | lbu | lhu | sb | sh | sw => rw [stagesToBoundary_loadStore hnext]; rfl
  all_goals
    have hexit : u.stage = if d.instr.rd = 0 then .updatePC else .loadStoreWriteBack := by
      simpa [descriptorOf, Datapath.opImm, Datapath.opReg] using hnext
    by_cases hrd : d.instr.rd = 0
    · rw [stagesToBoundary_updatePC (hexit.trans (if_pos hrd))]
      exact (if_pos hrd).symm
    · rw [stagesToBoundary_loadStore (hexit.trans (if_neg hrd))]
      exact (if_neg hrd).symm

/-- Settles O41: an `mret` and an invalid word leave Decode for UpdatePC, any other instruction goes through Compute. -/
theorem instructionVisitsItsStages : Obligations.InstructionVisitsItsStages := by
  intro s hs
  rw [stagesToBoundary_fetch hs]
  refine ⟨fun i hword hall => ?_, fun hinvalid => ?_⟩
  · have hd := decoded_of_decode hword
    by_cases hi : i = .mret
    · subst hi
      rw [stagesToBoundary_updatePC hd.stage]
      rfl
    · have hnregs : (decodeStage (fetchStage s)).nregs = s.nregs :=
        ((underway_fetchStage s).trans (underway_decodeStage _)).nregs
      exact hd.stagesToBoundary_eq hi (fun r hr => (hasReg_congr hnregs r).trans (hall r hr)) 1
  · obtain ⟨-, -, hstage⟩ := decodeStage_of_invalid hinvalid
    rw [stagesToBoundary_updatePC hstage]
    rfl

end Sys2Proof.Machine

/-! The integer computational instructions (41_integer_computational.md). Each is one of three shapes, upper immediate,
register-immediate and register-register, around an operation of the ALU: the shape's law says that it completes, advances and
changes nothing but `rd`, and the operation's law says in numbers what the written value is (R92). -/

namespace Sys2Proof.Machine

/-! ## Upper immediates (R102, R103) -/

/-- Settles O1: both have the upper-immediate shape, with the value `imm` and the value `pc + imm`. -/
theorem upperImmediateResults : Obligations.UpperImmediateResults := by
  intro rd imm s hrd
  exact ⟨completes_upperImmediate rfl hrd, completes_upperImmediate rfl hrd⟩

/-! ## Register-immediate instructions (R104 to R112) -/

/-- Settles O2: the four have the register-immediate shape, and their ALU operations are the stated ones by definition. -/
theorem immediateArithmeticLogicResults : Obligations.ImmediateArithmeticLogicResults := by
  intro rd rs1 imm s hrd h1
  refine ⟨?addi, ?xori, ?ori, ?andi⟩
  case addi => exact completes_opImmediate (op := aluAdd) rfl hrd h1
  case xori => exact completes_opImmediate (op := aluXor) rfl hrd h1
  case ori => exact completes_opImmediate (op := aluOr) rfl hrd h1
  case andi => exact completes_opImmediate (op := aluAnd) rfl hrd h1

/-- Settles O3: the stated comparisons are what `aluSlt` and `aluSltu` answer. -/
theorem immediateComparisonResults : Obligations.ImmediateComparisonResults := by
  intro rd rs1 imm s hrd h1
  rw [← aluSlt_eq, ← aluSltu_eq]
  exact ⟨completes_opImmediate rfl hrd h1, completes_opImmediate rfl hrd h1⟩

/-- Settles O4: the stated products and quotients are what `aluSll`, `aluSrl` and `aluSra` answer. -/
theorem immediateShiftResults : Obligations.ImmediateShiftResults := by
  intro rd rs1 imm s hrd h1
  rw [← aluSll_eq, ← aluSrl_eq, ← aluSra_eq]
  exact ⟨completes_opImmediate rfl hrd h1, completes_opImmediate rfl hrd h1, completes_opImmediate rfl hrd h1⟩

/-! ## Register-register instructions (R113 to R122) -/

/-- Settles O5: both have the register-register shape, which reads the sources before it writes `rd`. -/
theorem registerArithmeticResults : Obligations.RegisterArithmeticResults := by
  intro rd rs1 rs2 s hrd h1 h2
  refine ⟨?add, ?sub⟩
  case add => exact completes_opRegister (op := aluAdd) rfl hrd h1 h2
  case sub => exact completes_opRegister (op := aluSub) rfl hrd h1 h2

/-- Settles O6: the three have the register-register shape, and their ALU operations are the stated ones by definition. -/
theorem registerLogicResults : Obligations.RegisterLogicResults := by
  intro rd rs1 rs2 s hrd h1 h2
  refine ⟨?xor, ?or, ?and⟩
  case xor => exact completes_opRegister (op := aluXor) rfl hrd h1 h2
  case or => exact completes_opRegister (op := aluOr) rfl hrd h1 h2
  case and => exact completes_opRegister (op := aluAnd) rfl hrd h1 h2

/-- Settles O7: the stated comparisons are what `aluSlt` and `aluSltu` answer. -/
theorem registerComparisonResults : Obligations.RegisterComparisonResults := by
  intro rd rs1 rs2 s hrd h1 h2
  rw [← aluSlt_eq, ← aluSltu_eq]
  exact ⟨completes_opRegister rfl hrd h1 h2, completes_opRegister rfl hrd h1 h2⟩

/-- Settles O8: the stated products and quotients are what `aluSll`, `aluSrl` and `aluSra` answer. -/
theorem registerShiftResults : Obligations.RegisterShiftResults := by
  intro rd rs1 rs2 s hrd h1 h2
  rw [← aluSll_eq, ← aluSrl_eq, ← aluSra_eq]
  exact ⟨completes_opRegister rfl hrd h1 h2, completes_opRegister rfl hrd h1 h2, completes_opRegister rfl hrd h1 h2⟩

end Sys2Proof.Machine

/-! The control transfer instructions (42_control_transfer.md). The two jumps share one shape, link and go on at a target formed
from the old registers; the six branches share another, and the laws of the comparisons (R94) give each one's condition in numbers. -/

namespace Sys2Proof.Machine

/-! ## Jumps (R123, R124) -/

/-- An instruction that, behind its guard, latches the target `v`, links `pc + 4` and is taken goes on at `v`. -/
theorem completes_link {i : Instr} {s : State} {used : List RegIdx} {rd r1 r2 : RegIdx} {v : Word}
    (he : exec i s = guardRegs used s (((s.latchCompute r1 r2 v).writeReg rd (s.pc + 4)).retire true))
    (hused : ∀ r ∈ used, s.hasReg r = true) : CompletesWriting i s rd (s.pc + 4) v := by
  apply completesWriting_of (taken := true) (u := s.latchCompute r1 r2 v)
  · rw [he, guardRegs_of_all hused]
  all_goals simp

/-- Settles O9: `jal` links, and its target is formed from the pc before it. -/
theorem jalLinksAndJumps : Obligations.JalLinksAndJumps := by
  intro rd imm s hrd
  exact completes_link (used := [rd]) rfl (by simpa using hrd)

/-- Settles O10: `jalr` links, and its target is latched before `rd` is written, so `rd = rs1` is no special case. -/
theorem jalrLinksAndJumps : Obligations.JalrLinksAndJumps := by
  intro rd rs1 imm s hrd h1
  exact completes_link (used := [rs1, rd]) rfl (by simp [hrd, h1])

/-! ## Conditional branches (R125 to R130) -/

/-- A branch whose comparison decides `p` on its operands goes on at `pc + imm` if `p` holds, else at `pc + 4`. -/
theorem completes_branchIf_decide {i : Instr} {s : State} {cond : Word → Word → Bool} {rs1 rs2 : RegIdx} {imm : Word}
    {p : Prop} [Decidable p] (he : exec i s = branchIf cond rs1 rs2 imm s)
    (hcond : cond (s.readReg rs1) (s.readReg rs2) = decide p) (h1 : s.hasReg rs1 = true) (h2 : s.hasReg rs2 = true) :
    CompletesQuietly i s (if p then s.pc + imm else s.pc + 4) := by
  simpa [hcond] using completes_branchIf he h1 h2

/-- Settles O11: `beq` and `bne` have the branch shape; the condition of `bne` is the negated one, which exchanges the targets. -/
theorem equalityBranches : Obligations.EqualityBranches := by
  intro rs1 rs2 imm s h1 h2
  refine ⟨?beq, ?bne⟩
  case beq => exact completes_branchIf_decide rfl (condEq_eq _ _) h1 h2
  case bne =>
    rw [← ite_not]
    exact completes_branchIf_decide rfl ((condNe_eq _ _).trans decide_not.symm) h1 h2

/-- Settles O12: `blt` and `bge` have the branch shape with the signed comparisons. -/
theorem signedBranches : Obligations.SignedBranches := by
  intro rs1 rs2 imm s h1 h2
  refine ⟨?blt, ?bge⟩
  case blt => exact completes_branchIf_decide rfl (condLt_eq _ _) h1 h2
  case bge => exact completes_branchIf_decide rfl (condGe_eq _ _) h1 h2

/-- Settles O13: `bltu` and `bgeu` have the branch shape with the unsigned comparisons. -/
theorem unsignedBranches : Obligations.UnsignedBranches := by
  intro rs1 rs2 imm s h1 h2
  refine ⟨?bltu, ?bgeu⟩
  case bltu => exact completes_branchIf_decide rfl (condLtu_eq _ _) h1 h2
  case bgeu => exact completes_branchIf_decide rfl (condGeu_eq _ _) h1 h2

end Sys2Proof.Machine

/-! The loads and stores on `Memory` devices (43_load_store.md). A load completes with the extension of the bytes its one bus read
answers, and the laws of the bytes name these, the byte at EA lowest (decision D1). A store makes one bus write, after which no
byte changes before the instruction has ended. -/

namespace Sys2Proof.Machine

/-! ## Loads (R131 to R135) -/

/-- A byte read, extended, is the byte's own extension (R131, R134). -/
theorem extend_readBytes_one (m : Memory) (off : Nat) (sg : Bool) :
    extend .byte sg (m.readBytes off 1) = if sg then (m.read off).signExtend 32 else (m.read off).setWidth 32 := by
  have hlow : ((m.read off).setWidth 32).setWidth 8 = m.read off := BitVec.setWidth_setWidth_of_le _ (by decide)
  rw [Memory.readBytes_one, extend, hlow]

/-- A halfword read, extended, is the extension of its two bytes, the one at the lower offset in the low bits (R132, R135). -/
theorem extend_readBytes_two (m : Memory) (off : Nat) (sg : Bool) :
    extend .half sg (m.readBytes off 2) =
      if sg then (m.read (off + 1) ++ m.read off).signExtend 32 else (m.read (off + 1) ++ m.read off).setWidth 32 := by
  have hlow : ((m.read (off + 1) ++ m.read off).setWidth 32).setWidth 16 = m.read (off + 1) ++ m.read off :=
    BitVec.setWidth_setWidth_of_le _ (by decide)
  rw [Memory.readBytes_two, extend, hlow]

/-- A load that a `Memory` answers completes with the extension of the bytes at EA, and with no error (R42, R43). -/
theorem loadCompletes_of_memory {i : Instr} {size : AccessSize} {sg : Bool} {rd rs1 : RegIdx} {imm v : Word} {s : State}
    {d : Device} {cells initial : Memory} (hload : loadOf i = some (size, sg, rd, rs1, imm)) (hrd : s.hasReg rd = true)
    (h1 : s.hasReg rs1 = true) (ha : s.acceptor (effectiveAddress s rs1 imm) size = some d)
    (hk : d.kind = .memory cells initial)
    (hv : extend size sg (cells.readBytes (d.offset (effectiveAddress s rs1 imm)) size.bytes) = v) :
    LoadCompletes i s rd v false := by
  obtain ⟨hval, herr, hdev⟩ := loadRead_of_memory sg ha hk
  obtain ⟨t, ht, hreg, htdev, hbus, hls, hothers, hadv, hmem, hlatches⟩ :=
    loadFrom_spec (size := size) (sg := sg) (imm := imm) hrd h1
  rw [hval, hv] at hreg
  rw [hdev] at htdev
  rw [herr] at hbus hls
  exact ⟨t, (exec_of_loadOf hload s).trans ht, hreg, hothers, hadv, hmem, htdev, hbus, hls, hlatches⟩

/-- Settles O14: the read answers the byte at EA, which `lb` and `lbu` extend. -/
theorem byteLoadsFromMemory : Obligations.ByteLoadsFromMemory := by
  intro rd rs1 imm s d cells initial hrd h1 ha hk off
  refine ⟨?lb, ?lbu⟩
  case lb => exact loadCompletes_of_memory rfl hrd h1 ha hk (extend_readBytes_one cells off true)
  case lbu => exact loadCompletes_of_memory rfl hrd h1 ha hk (extend_readBytes_one cells off false)

/-- Settles O15: the read answers the two bytes from EA on, at any alignment, which `lh` and `lhu` extend. -/
theorem halfLoadsFromMemory : Obligations.HalfLoadsFromMemory := by
  intro rd rs1 imm s d cells initial hrd h1 ha hk off
  refine ⟨?lh, ?lhu⟩
  case lh => exact loadCompletes_of_memory rfl hrd h1 ha hk (extend_readBytes_two cells off true)
  case lhu => exact loadCompletes_of_memory rfl hrd h1 ha hk (extend_readBytes_two cells off false)

/-- Settles O16: the read answers the four bytes from EA on, at any alignment, and a word read is not extended. -/
theorem wordLoadFromMemory : Obligations.WordLoadFromMemory := by
  intro rd rs1 imm s d cells initial hrd h1 ha hk off
  exact loadCompletes_of_memory rfl hrd h1 ha hk (Memory.readBytes_four cells off)

/-! ## Stores (R136 to R138) -/

/-- When a store has ended, the bytes are those its bus write left: UpdatePC changes none. -/
theorem memByte_of_stored {s t : State} {addr v : Word} {size : AccessSize}
    (h : t.devices = (writeAccepting addr size v s.devices).map Device.nextSample) (k a : Nat) :
    t.memByte k a = (s.busWrite addr size v).memByte k a := by
  apply memByte_congr
  rw [h, view_map_nextSample, busWrite_devices]

/-- Settles O19: the bus write puts the bytes in place in each accepting `Memory` and leaves every other byte. -/
theorem storesWriteTheirBytesOnly : Obligations.StoresWriteTheirBytesOnly := by
  intro i size rs1 rs2 imm s hstore h1 h2 ea
  obtain ⟨t, ht, htdev, hbus, hls, hregs, hadv, hlatches⟩ := storeTo_spec (size := size) (imm := imm) h1 h2
  refine ⟨t, (exec_of_storeOf hstore s).trans ht, readReg_congr hregs, hadv, hlatches, hbus, hls, ?stored, ?others⟩
  case stored =>
    intro k d cells initial hd ha hk j hj
    exact (memByte_of_stored htdev k _).trans (memByte_busWrite_in hd ha hk hj)
  case others =>
    intro k a hout
    exact (memByte_of_stored htdev k a).trans (memByte_busWrite_out hout)

end Sys2Proof.Machine

/-! `mret` and the words that are no instruction (44_system.md). Both are one UpdatePC: `mret` of the state before it, with no bus
access at all, and the no-op of R140 of the state that Fetch and Decode leave, whose one bus access is the fetch. -/

namespace Sys2Proof.Machine

/-! ## mret (R139) -/

/-- `mret` makes no bus access and leaves the latches of Fetch alone, whether it returns or an interrupt is taken instead. -/
theorem quietFrame_mret (s : State) : QuietFrame s ((s.setTaken false).updatePC true) :=
  ⟨memoryKept_updatePC (s.setTaken false) true, by simp, by simp, by simp, by simp [FetchLatchesKept]⟩

/-- Settles O23: with no interrupt accepted, the UpdatePC of `mret` returns to `mepc` and clears the latch. -/
theorem mretReturns : Obligations.MretReturns := by
  intro s hna
  obtain ⟨hpc, hmepc, hlatch⟩ := updatePC_of_return (s.setTaken false) hna
  exact ⟨_, rfl, hpc, fun haligned => hpc.trans (alignPc_of_aligned haligned), hlatch, hmepc,
    fun r => readReg_congr (updatePC_regs _ _) r, quietFrame_mret s⟩

/-! ## Words that match no row (R140) -/

/-- Fetch and Decode write no register and not `loadStoreError`, and access no device but by the fetch's read (R88, R89). -/
theorem decodeStage_fetchStage_keeps (s : State) :
    (decodeStage (fetchStage s)).regs = s.regs ∧ (decodeStage (fetchStage s)).loadStoreError = s.loadStoreError ∧
      (decodeStage (fetchStage s)).devices = (s.busRead s.pc .word false).2.devices := by
  rw [decodeStage_fetchStage rfl]
  exact ⟨busRead_regs s _ _ _, busRead_loadStoreError s _ _ _, rfl⟩

/-- Settles O25: the decoder rejects the word, and the no-op runs on what Fetch and Decode leave; the fetch's read changes no byte
of memory, whichever device answers. -/
theorem invalidWordIsNoOp : Obligations.InvalidWordIsNoOp := by
  intro s hs hinvalid
  have hd : Underway s (decodeStage (fetchStage s)) := (underway_fetchStage s).trans (underway_decodeStage _)
  obtain ⟨hregs, hls, hdev⟩ := decodeStage_fetchStage_keeps s
  obtain ⟨t, ht, htregs, hadv, -, htdev, -, htls, -, -, -, -, -, hstage⟩ := execInvalid_spec (decodeStage (fetchStage s))
  rw [hd.pc] at hadv
  rw [hdev] at htdev
  refine ⟨t, ?step, readReg_congr (htregs.trans hregs), hd.advances hadv, ?memory, htdev, htls.trans hls, hstage⟩
  case step =>
    rw [step_of_fetch hs, decode_of_invalid hinvalid]
    exact ht
  case memory =>
    apply memoryKept_of_view
    rw [htdev, view_map_nextSample, view_busRead]

end Sys2Proof.Machine

/-! Interrupts (60_exceptions.md). A step ends with one UpdatePC, which alone looks at the line: hence an accepted interrupt always
enters the handler, at an `mret` too (R150, R151, R153), and up to its UpdatePC an instruction does the same whether or not a device
requests, which is why an interrupt is precise (R152). -/

namespace Sys2Proof.Machine

/-! ## Entry to the handler (R150, R151, R153) -/

/-- Settles O28: the line and the latch are still those before the step when its UpdatePC looks at them. -/
theorem assertedLineEntersHandler : Obligations.AssertedLineEntersHandler := by
  intro s t ha h
  obtain ⟨u, isMret, hu, rfl⟩ := step_cases h
  obtain ⟨hpc, hmepc, hlatch⟩ := updatePC_of_accept u isMret (hu.acceptInterrupt_eq.trans ha)
  exact ⟨hpc, hlatch, by rw [hmepc, aligned_alignPc]⟩

/-- Settles O24: UpdatePC looks at the line before it looks at `mret`, and no jump is taken, so it saves `pc + 4`. -/
theorem interruptBeatsMret : Obligations.InterruptBeatsMret := by
  intro s ha
  obtain ⟨hpc, hmepc, hlatch⟩ := updatePC_of_accept (s.setTaken false) true ha
  exact ⟨_, rfl, hpc, hmepc, hlatch, fun r => readReg_congr (updatePC_regs _ _) r, quietFrame_mret s⟩

/-! ## The machine with no interrupt requested (log 6) -/

/-- The device with no request at any coming sample. -/
def Device.quiet (d : Device) : Device :=
  match d.kind with
  | .memory _ _ => d
  | .external _ answers accesses => { d with kind := .external [] answers accesses }

theorem quiet_eq (s : State) : s.quiet = { s with devices := s.devices.map Device.quiet } := rfl

@[simp] theorem quiet_regs (s : State) : s.quiet.regs = s.regs := rfl
@[simp] theorem quiet_pc (s : State) : s.quiet.pc = s.pc := rfl
@[simp] theorem quiet_fetchError (s : State) : s.quiet.fetchError = s.fetchError := rfl
@[simp] theorem quiet_instr (s : State) : s.quiet.instr = s.instr := rfl
@[simp] theorem quiet_loadStoreError (s : State) : s.quiet.loadStoreError = s.loadStoreError := rfl
@[simp] theorem quiet_busError (s : State) : s.quiet.busError = s.busError := rfl
@[simp] theorem quiet_draws (s : State) : s.quiet.draws = s.draws := rfl
@[simp] theorem quiet_devices (s : State) : s.quiet.devices = s.devices.map Device.quiet := rfl

@[simp] theorem Device.irq_quiet (d : Device) : d.quiet.irq = false := by
  unfold Device.quiet; split <;> simp [Device.irq, *]

@[simp] theorem Device.view_quiet (d : Device) : d.quiet.view = d.view := by
  unfold Device.quiet; split <;> simp [Device.view, *]

@[simp] theorem Device.range_quiet (d : Device) : d.quiet.range = d.range := by
  unfold Device.quiet; split <;> rfl

theorem Device.accepts_quiet (d : Device) (addr : Word) (size : AccessSize) : d.quiet.accepts addr size = d.accepts addr size :=
  Device.accepts_congr d.range_quiet addr size

theorem Device.offset_quiet (d : Device) (addr : Word) : d.quiet.offset addr = d.offset addr := by
  unfold Device.quiet; split <;> rfl

/-- A local read answers whatever the device requests, and leaves its requests alone (R38, R149). -/
theorem Device.localRead_quiet (d : Device) (off : Nat) (size : AccessSize) (n : Nat) :
    d.quiet.localRead off size n =
      ((d.localRead off size n).1, (d.localRead off size n).2.1.quiet, (d.localRead off size n).2.2) := by
  obtain ⟨lo, hi, kind⟩ := d
  cases kind with
  | memory cells initial => rfl
  | external irqs answers accesses => cases answers <;> rfl

theorem Device.localWrite_quiet (d : Device) (off : Nat) (size : AccessSize) (v : Word) :
    d.quiet.localWrite off size v = (d.localWrite off size v).quiet := by
  obtain ⟨lo, hi, kind⟩ := d
  cases kind <;> rfl

theorem firstRead_quiet (addr : Word) (size : AccessSize) (n : Nat) : ∀ ds : List Device,
    firstRead addr size n (ds.map Device.quiet) =
      (firstRead addr size n ds).map fun r => (r.1, r.2.1.map Device.quiet, r.2.2)
  | [] => rfl
  | d :: ds => by
    rw [List.map_cons, firstRead, firstRead, Device.accepts_quiet, Device.offset_quiet, Device.localRead_quiet,
      firstRead_quiet addr size n ds]
    cases d.accepts addr size with
    | true => rfl
    | false => cases firstRead addr size n ds <;> rfl

theorem writeAccepting_quiet (addr : Word) (size : AccessSize) (v : Word) (ds : List Device) :
    writeAccepting addr size v (ds.map Device.quiet) = (writeAccepting addr size v ds).map Device.quiet := by
  simp only [writeAccepting, List.map_map]
  refine List.map_congr_left fun d _ => ?_
  simp only [Function.comp, Device.accepts_quiet, Device.offset_quiet, Device.localWrite_quiet]
  split <;> rfl

/-- No interrupt is accepted while no device requests (R45, R150). -/
theorem acceptInterrupt_quiet (s : State) : s.quiet.acceptInterrupt = false := by
  simp [State.acceptInterrupt, State.irqLine]

theorem memoryKept_quiet (s : State) : MemoryKept s s.quiet :=
  memoryKept_of_view (by simp [Function.comp_def])

/-! ## An instruction up to its UpdatePC does not look at the requests -/

@[simp] theorem quiet_busRead (s : State) (addr : Word) (size : AccessSize) (sg : Bool) :
    s.quiet.busRead addr size sg = ((s.busRead addr size sg).1, (s.busRead addr size sg).2.quiet) := by
  unfold State.busRead
  rw [quiet_devices, quiet_draws, firstRead_quiet]
  cases firstRead addr size s.draws s.devices <;> rfl

@[simp] theorem quiet_busWrite (s : State) (addr : Word) (size : AccessSize) (v : Word) :
    s.quiet.busWrite addr size v = (s.busWrite addr size v).quiet := by
  simp only [State.busWrite, quiet_eq, writeAccepting_quiet, List.any_map, Function.comp_def, Device.accepts_quiet]

@[simp] theorem quiet_hasReg (s : State) (r : RegIdx) : s.quiet.hasReg r = s.hasReg r := rfl

@[simp] theorem quiet_readReg (s : State) (r : RegIdx) : s.quiet.readReg r = s.readReg r := rfl

@[simp] theorem quiet_writeReg (s : State) (r : RegIdx) (v : Word) : s.quiet.writeReg r v = (s.writeReg r v).quiet := by
  unfold State.writeReg; split <;> rfl

theorem quiet_latchX1 (s : State) (r : RegIdx) : s.quiet.latchX1 r = (s.latchX1 r).quiet := by
  unfold State.latchX1; rw [quiet_hasReg]; split <;> rfl

theorem quiet_latchX2 (s : State) (r : RegIdx) : s.quiet.latchX2 r = (s.latchX2 r).quiet := by
  unfold State.latchX2; rw [quiet_hasReg]; split <;> rfl

@[simp] theorem quiet_latchCompute (s : State) (a b : RegIdx) (v : Word) :
    s.quiet.latchCompute a b v = (s.latchCompute a b v).quiet := by
  simp only [State.latchCompute, State.latchOperands, quiet_latchX1, quiet_latchX2]
  rfl

@[simp] theorem quiet_captureError (s : State) : s.quiet.captureError = s.captureError.quiet := rfl

@[simp] theorem quiet_loadRead (s : State) (size : AccessSize) (sg : Bool) (rs1 : RegIdx) (imm : Word) :
    loadRead size sg rs1 imm s.quiet = ((loadRead size sg rs1 imm s).1, (loadRead size sg rs1 imm s).2.quiet) := by
  simp [loadRead, effectiveAddress]

@[simp] theorem quiet_storeWrite (s : State) (size : AccessSize) (rs1 rs2 : RegIdx) (imm : Word) :
    storeWrite size rs1 rs2 imm s.quiet = (storeWrite size rs1 rs2 imm s).quiet := by
  simp [storeWrite, effectiveAddress]

/-- Fetch and Decode of the state with no request leave what they leave of the state itself, but for the requests. -/
theorem decodeStage_fetchStage_quiet (s : State) :
    decodeStage (fetchStage s.quiet) = (decodeStage (fetchStage s)).quiet := by
  rcases hread : s.busRead s.pc .word false with ⟨w, t⟩
  have hquiet : s.quiet.busRead s.quiet.pc .word false = (w, t.quiet) := by rw [quiet_pc, quiet_busRead, hread]
  rw [decodeStage_fetchStage hread, decodeStage_fetchStage hquiet]
  rfl

theorem underway_loadRead (s : State) (size : AccessSize) (sg : Bool) (rs1 : RegIdx) (imm : Word) :
    Underway s (loadRead size sg rs1 imm s).2 :=
  (Underway.latchCompute _ _ _ _).trans (.busRead _ _ _ _)

theorem underway_storeWrite (s : State) (size : AccessSize) (rs1 rs2 : RegIdx) (imm : Word) :
    Underway s (storeWrite size rs1 rs2 imm s) :=
  (Underway.latchCompute _ _ _ _).trans (.busWrite _ _ _ _)

/-- A guarded instruction whose effects leave `u`, and `u.quiet` where no device requests, ends with UpdatePC of such a pair too. -/
theorem guardRegs_retire_quiet {used : List RegIdx} {s u v t : State} {taken : Bool} (hu : Underway s u) (hv : v = u.quiet)
    (h : guardRegs used s (u.retire taken) = .next t) :
    ∃ w, Underway s w ∧ t = w.updatePC false ∧
      guardRegs used s.quiet (v.retire taken) = .next (w.quiet.updatePC false) := by
  obtain ⟨hall, hend⟩ := guardRegs_next h
  cases hend
  subst hv
  exact ⟨_, hu.trans (.setTaken u taken), rfl, guardRegs_of_all (s := s.quiet) hall⟩

/-- An instruction ends with UpdatePC of some state `u`; where no device requests, it ends with UpdatePC of `u.quiet`. -/
theorem exec_quiet {i : Instr} {s t : State} (h : exec i s = .next t) :
    ∃ u, Underway s u ∧ t = u.updatePC (i == .mret) ∧ exec i s.quiet = .next (u.quiet.updatePC (i == .mret)) := by
  cases i
  case mret =>
    cases h
    exact ⟨_, .setTaken s false, rfl, rfl⟩
  case beq | bne | blt | bge | bltu | bgeu =>
    exact guardRegs_retire_quiet (.latchCompute _ _ _ _) (by simp) h
  case sb | sh | sw =>
    exact guardRegs_retire_quiet ((underway_storeWrite _ _ _ _ _).trans (.captureError _)) (by simp) h
  case lb | lh | lw | lbu | lhu =>
    exact guardRegs_retire_quiet (((underway_loadRead _ _ _ _ _).trans (.captureError _)).trans (.writeReg _ _ _))
      (by simp) h
  all_goals
    exact guardRegs_retire_quiet (.trans (.latchCompute _ _ _ _) (.writeReg _ _ _)) (by simp) h

/-- At a boundary a step ends with UpdatePC of some state `u`, and with UpdatePC of `u.quiet` where no device requests; it is the
UpdatePC of `mret` exactly when the fetched word is `mret`. -/
theorem step_quiet {s t : State} (hs : s.stage = .fetch) (h : step s = .next t) :
    ∃ u isMret, Underway s u ∧ t = u.updatePC isMret ∧ step s.quiet = .next (u.quiet.updatePC isMret) ∧
      (isMret = true ↔ decode (s.busRead s.pc .word false).1 = .ok .mret) := by
  have hd : Underway s (decodeStage (fetchStage s)) := (underway_fetchStage s).trans (underway_decodeStage _)
  have hword : (s.quiet.busRead s.quiet.pc .word false).1 = (s.busRead s.pc .word false).1 := by simp
  rw [step_of_fetch hs] at h
  rw [step_of_fetch (s := s.quiet) hs, hword, decodeStage_fetchStage_quiet]
  cases hw : decode (s.busRead s.pc .word false).1 with
  | ok i =>
    rw [hw] at h
    obtain ⟨u, hu, ht, hq⟩ := exec_quiet h
    exact ⟨u, _, hd.trans hu, ht, hq, by simp⟩
  | error e =>
    rw [hw] at h
    cases h
    exact ⟨_, false, hd.trans (.setTaken _ false), rfl, rfl, by simp⟩

/-! ## Precision (R152) -/

/-- The step of an `mret` at which an interrupt is accepted saves the address after the `mret` (R153). -/
theorem mepc_of_step_mret {s t : State} (hs : s.stage = .fetch) (ha : s.acceptInterrupt = true)
    (hmret : decode (s.busRead s.pc .word false).1 = .ok .mret) (h : step s = .next t) : t.mepc = alignPc (s.pc + 4) := by
  have hd : Underway s (decodeStage (fetchStage s)) := (underway_fetchStage s).trans (underway_decodeStage _)
  obtain ⟨t', ht', -, hmepc, -⟩ := interruptBeatsMret _ (hd.acceptInterrupt_eq.trans ha)
  rw [step_of_fetch hs, hmret] at h
  cases ht'.symm.trans h
  rw [hmepc, hd.pc]

/-- Settles O31: the step and the step with no request reach UpdatePC with the same registers, bytes and error bits and the same
next pc; there the one saves that pc and the other goes on at it. -/
theorem interruptsArePrecise : Obligations.InterruptsArePrecise := by
  intro s t hs ha h
  obtain ⟨u, isMret, hu, ht, hquiet, hmret⟩ := step_quiet hs h
  obtain ⟨hpc, hmepc, -⟩ := updatePC_of_accept u isMret (hu.acceptInterrupt_eq.trans ha)
  obtain ⟨hqpc, -, -⟩ := updatePC_of_not_accept u.quiet isMret (acceptInterrupt_quiet u)
  refine ⟨_, hquiet, ?regs, ?bytes, ?fetchError, ?loadStoreError, ?busError, ht ▸ hpc, fun hne => ?goesOn,
    fun heq => mepc_of_step_mret hs ha heq h⟩
  case bytes =>
    intro k a
    calc t.memByte k a = u.memByte k a := ht ▸ memoryKept_updatePC u isMret k a
      _ = u.quiet.memByte k a := (memoryKept_quiet u k a).symm
      _ = (u.quiet.updatePC isMret).memByte k a := (memoryKept_updatePC u.quiet isMret k a).symm
  case goesOn =>
    have hf : isMret = false := by simpa using fun htrue => hne (hmret.mp htrue)
    rw [ht, hmepc, hqpc, hf]
    rfl
  all_goals simp [ht]

end Sys2Proof.Machine

/-! Reset (R167, R168) and what the driver may do between instructions (R169). -/

namespace Sys2Proof.Machine

/-! ## Reset (R167, R168) -/

/-- The register file that both reset states hold reads 0 at every index. -/
theorem readReg_of_regs_zero {s : State} (h : s.regs = Vector.replicate 32 0) (r : RegIdx) : s.readReg r = 0 := by
  unfold State.readReg
  split
  · rfl
  · simp [h]

/-- Settles O54: `State.reset` lists each value, and its register file is all zeros. -/
theorem resetValues : Obligations.ResetValues :=
  ⟨readReg_of_regs_zero rfl, rfl, rfl, rfl, rfl, rfl, rfl, rfl⟩

/-- Settles O55: the driver's reset answers `resetBlock`, which sets the block's own fields and no other. -/
theorem resetLeavesBusAlone : Obligations.ResetLeavesBusAlone := fun s =>
  ⟨s.resetBlock, rfl, readReg_of_regs_zero rfl, rfl, rfl, rfl, rfl, rfl, rfl, rfl, rfl⟩

/-! ## The driver between instructions (R169, D16) -/

theorem atBoundary_of_fetch {s : State} (h : s.stage = .fetch) (t : State) : atBoundary s t = .next t := if_pos h

theorem atBoundary_of_not_fetch {s : State} (h : s.stage ≠ .fetch) (t : State) :
    atBoundary s t = .refused .driverMidInstruction := if_neg h

/-- For a register that exists, `setX` is the boundary check alone. -/
theorem driver_setX_of_hasReg {s : State} {i : RegIdx} (h : s.hasReg i = true) (v : Word) :
    driver (.setX i v) s = atBoundary s (s.writeReg i v) :=
  guardRegs_of_all (by simpa using h)

/-- Settles O60: each of the three actions is `atBoundary` of its update, which lets the update through at Fetch only. -/
theorem driverActsAtBoundariesOnly : Obligations.DriverActsAtBoundariesOnly := by
  intro s i addr v size hi
  rw [driver_setX_of_hasReg hi]
  constructor
  · intro hfetch
    exact ⟨atBoundary_of_fetch hfetch _, atBoundary_of_fetch hfetch _, aligned_alignPc v, atBoundary_of_fetch hfetch _⟩
  · intro hmid
    exact ⟨atBoundary_of_not_fetch hmid _, atBoundary_of_not_fetch hmid _, atBoundary_of_not_fetch hmid _⟩

end Sys2Proof.Machine

/-! Words written out from the encodings (spec's vectors V1, V3, V4 and section 2.1). -/

namespace Sys2Proof

/-- The encoder tells which instruction a word decodes to (R73): its row need not be looked for again. -/
theorem decode_of_encode_eq {w : Word} {i : Instr} (hwf : i.wf = true) (hw : encode i = w) : decode w = .ok i :=
  hw ▸ decodeOfEncode i hwf

/-- Settles O52: each valid word is the encoding of its instruction, whose immediate its format can hold; the last word matches
no row. -/
theorem wordsDecodeAsWritten : Obligations.WordsDecodeAsWritten := by
  refine ⟨decode_of_encode_eq ?_ ?_, decode_of_encode_eq ?_ ?_, decode_of_encode_eq ?_ ?_, decode_of_encode_eq ?_ ?_,
    decode_of_encode_eq ?_ ?_, decode_of_encode_eq ?_ ?_, decode_of_encode_eq ?_ ?_, decode_of_encode_eq ?_ ?_,
    decode_of_invalid ?_⟩ <;> decide

end Sys2Proof
